-- ==== Sys2Proof/Word.lean ====
section
/-! DEFINITION. The byte and the ASCII string of the block (00_scope R7). -/

namespace Sys2Proof

/-- A byte: 8 bits, bit 7 the most significant (R7). -/
abbrev Byte := BitVec 8

/-- A string: a sequence of ASCII characters, `s[i]` the character at zero-based position `i` (R7).
Held as a list of characters (log 17); `Instr.wf` asks that they are ASCII. -/
abbrev Str := List Char

end Sys2Proof
end

