-- ==== Sys2Proof/Syntax.lean ====
section
/-! DEFINITION. The data types of 10_state R10 and the instruction inductive: one constructor for
every row of spec/opcode_table.json. -/

namespace Sys2Proof

/-- `Width := 1 | 2 | 3 | 4` (R10, `GROUP_MAX` and `IMM_BYTES` of R5). -/
inductive Width where
  | w1 | w2 | w3 | w4
deriving DecidableEq, Repr

/-- The inner component of a memory-indirect operand (R10). -/
inductive Inner where
  | address (bytes : Width)
  | group (width : Width)
deriving DecidableEq, Repr

/-- The displacement component of a memory-indirect operand (R10). -/
inductive Disp where
  | none
  | immediate (bytes : Width)
  | group (width : Width)
deriving DecidableEq, Repr

/-- One operand's shape (R10). -/
inductive OperandShape where
  | registerGroup (width : Width)
  | memoryIndirect (inner : Inner) (disp : Disp)
  | immediate (bytes : Width)
  | floatRegister
deriving DecidableEq, Repr

/-- A field letter `A`..`Z` as its zero-based position in the alphabet (R7, R88). -/
abbrev Letter := Fin 26

/-- What one bit of a layout is (R10, R46). -/
inductive Tag where
  | op
  | lit0
  | lit1
  | dontCare
  | field (letter : Letter)
deriving DecidableEq, Repr

/-- The tags of one layout byte, leftmost (bit 7) first. That there are exactly 8 is the check
`wf_whole_bytes` of R48. -/
abbrev LayoutByte := List Tag

/-- A bit layout, byte 0 first (R10). -/
abbrev BitLayout := List LayoutByte

/-- An addressing-mode id: a natural number (R10). -/
abbrev AddressingModeId := Nat

/-- A primary operator (R10, R12). -/
structure Primary where
  mnemonic : Str
  opcode : Byte
  title : Str
  description : Str
deriving DecidableEq, Repr

/-- A secondary operator (R10, R13). -/
structure Secondary where
  key : Str
  parent : Byte
  amid : AddressingModeId
  layout : BitLayout
deriving DecidableEq, Repr

/-- The operator table `T = (PT, ST)`, both in registration order (R6, R12, R13). -/
structure Table where
  pt : List Primary
  st : List Secondary
deriving DecidableEq, Repr

/-- One call of `REGSEQ` (R6, R191): its arguments as `registerPrimary` (R126) and
`registerSecondary` (R128) take them, the layout as a template string. -/
inductive RegCall where
  | primary (mnemonic : Str) (opcode : Byte) (title description : Str)
  | secondary (key : Str) (parent : Byte) (layout : Str) (amid : AddressingModeId)
deriving DecidableEq, Repr

/-- The two functions of the table's row `nameOfGroup / nameOfFloat` (R74). A float register's index
is 0..15 (R10), which the type says (log 22). -/
inductive NameRequest where
  | group (index : Nat) (width : Width)
  | float (index : Fin 16)
deriving DecidableEq, Repr

/-- The two functions of the table's row `parseTemplate / printTemplate` (R47). -/
inductive TemplateRequest where
  | parse (s : Str)
  | print (L : BitLayout)
deriving DecidableEq, Repr

/-- The instructions: one constructor per row of spec/opcode_table.json, in the table's order. The
first ten are the rows that name encodings; the rest are the operations of the block. -/
inductive Instr where
  /-- `NOP`: the byte 0x00 (R55). -/
  | nop
  /-- `LD`: the primary opcode byte of the family (R55, R57). -/
  | ld
  /-- `ADD`: the primary opcode byte of the family. -/
  | add
  /-- `SUB`: the primary opcode byte of the family. -/
  | sub
  /-- `AND`: the primary opcode byte of the family. -/
  | and
  /-- `DIV`: the primary opcode byte of the family. -/
  | div
  /-- `ADD r,n`: register-group index `a` and immediate byte `b` (R57). -/
  | addRN (a : BitVec 5) (b : Byte)
  /-- `ADD r,r`: two register-group indices; `literalsOk` as R153 reports it (log 14). -/
  | addRR (a b : BitVec 5) (literalsOk : Bool)
  /-- Any registered secondary operator, by its key, with its operand values `A`, `B`, … and
  `literalsOk` as R153 reports it (R154; log 14). -/
  | secondary (key : Str) (vals : List Nat) (literalsOk : Bool)
  /-- Any registered primary with no secondary operator, by its mnemonic (R154). -/
  | primaryOnly (mnemonic : Str)
  | resolve (name : Str)
  | groupOf (name : Str)
  | resolveFloat (name : Str)
  | isSpecialRegister (name : Str)
  | nameOf (request : NameRequest)
  | parseShape (sig : Str)
  | printShape (shapes : List OperandShape)
  | template (request : TemplateRequest)
  | wfLayout (L : BitLayout)
  | compileLayout (header : List Tag) (shapes : List OperandShape)
  | packCompile (header : List Tag) (shapes : List OperandShape)
  | catalogLookup (sig : Str)
  | registerPrimary (mnemonic : Str) (opcode : Byte) (title description : Str)
  | registerSecondary (key : Str) (parent : Byte) (layout : Str) (amid : AddressingModeId)
  | primaryOpcodeOf (mnemonic : Str)
  | formatOf (key : Str)
  | matchShape (mnemonic : Str) (shapes : List OperandShape)
  | secondariesOf (parent : Byte)
  | primaryByCode (code : Byte)
  | primaryByMnemonic (mnemonic : Str)
  | fieldPositions (L : BitLayout) (letter : Letter)
  | hdr (L : BitLayout)
  | matchesRaw (q : Secondary) (raw : Byte)
  | decodeSecondary (parent raw : Byte)
  | extractField (L : BitLayout) (lb : List Byte) (letter : Letter)
  | splitIndirect (inner : Inner) (disp : Disp) (v : Nat)
  | decodeInstr (ib : List Byte)
  | encodeInstr (q : Secondary) (vals : List Nat)
  | consistent (T : Table)
  | startup (calls : List RegCall)
  | freeze
deriving DecidableEq, Repr

/-- The operation a call of `REGSEQ` performs (R191). -/
def RegCall.instr : RegCall → Instr
  | .primary m p t d => .registerPrimary m p t d
  | .secondary k p l a => .registerSecondary k p l a

end Sys2Proof
end

