-- ==== Sys2Proof/Config.lean ====
section
/-! DEFINITION. What the spec fixes for the block (00_scope R5) and what it leaves open: the OPEN
parameters (R6) and the free values, each an opaque constant that nothing can evaluate. -/

namespace Sys2Proof.Config

/-- `NREG`: 26 general registers "A".."Z", indices 0..25 (R5). -/
def nreg : Nat := 26

/-- `NFREG`: 16 float registers, indices 0..15 (R5). -/
def nfreg : Nat := 16

/-- `GROUP_MAX`: a register group has 1 to 4 cells (R5). -/
def groupMax : Nat := 4

/-- `REG_FIELD_BITS`: 5 for every group width (R5, R50). -/
def regFieldBits : Nat := 5

/-- `FREG_FIELD_BITS`: 4 (R5, R50). -/
def fregFieldBits : Nat := 4

/-- `PRIMARY_BITS`: the primary opcode has 8 bits (R5). -/
def primaryBits : Nat := 8

/-- `NOP_OPCODE`: 0 (R5, R55). -/
def nopOpcode : Byte := 0

/-- `MAX_OPERANDS`: 26, the uppercase alphabet (R6, D19). -/
def maxOperands : Nat := 26

/-- The width of a register cell, 8 bits, "recorded for orientation; no rule of the block depends on
it" (D18, R15; log 23). -/
def cellBits : Nat := 8

/-- `REGSEQ`: the ordered registration calls of start-up. OPEN parameter (R6, D21; log 7). -/
opaque regSeq : List RegCall

/-- The entries the platform supplies for the addressing-mode catalog `CAT`. OPEN parameter (R6, D22);
`Machine.catalog` keeps those that obey the laws of R117 and R119 (log 8). -/
opaque catTable : List (Str × AddressingModeId)

/-- What the platform supplies for `PACK_COMPILE`. OPEN parameter (R6, D5); `Machine.packCompile` keeps the
results that obey R108 (log 9). -/
opaque packRaw : List Tag → List OperandShape → Option BitLayout

/-- FREE VALUE: `hdr` of a layout whose byte 0 is missing or has not the form of R49, for which R145
gives no result (D4; log 10). -/
opaque hdrOutside : BitLayout → Nat × Nat × Nat

/-- FREE VALUE: the byte `lb[j]` that `extractField` is not given (R151 asks for at least `|L|` bytes;
log 11). -/
opaque absentByte : Nat → Byte

/-- FREE VALUE: the bit `encodeInstr` writes for an `Op` tag beyond the `k` of `hdr`, which R158 says
cannot occur in a well-formed layout; its argument is how many tags are left (log 12). -/
opaque spareOpBit : Nat → Bool

/-- FREE VALUE: whether R117's "immediate matching width" takes in, for a float first operand, the immediate of a
width. "What immediate "matches" a float first operand is not stated" (R118; log 26). -/
opaque floatMatchesImmediate : Width → Bool

end Sys2Proof.Config
end

