-- ==== Sys2Proof/Machine/Text.lean ====
section
/-! DEFINITION. String and bit helpers the rules share: splitting and joining at a character, runs of
one letter, the bits of a byte and of a number (00_scope R7). -/

namespace Sys2Proof.Machine

/-- Split at every `c`; never empty, since a string without `c` is one group (R47, R87). -/
def splitOnChar (c : Char) : Str → List Str
  | [] => [[]]
  | x :: xs =>
    if x = c then [] :: splitOnChar c xs
    else
      match splitOnChar c xs with
      | [] => [[x]]
      | g :: gs => (x :: g) :: gs

/-- The strings joined by single `c`. -/
def joinWith (c : Char) : List Str → Str
  | [] => []
  | [s] => s
  | s :: t :: ss => s ++ c :: joinWith c (t :: ss)

/-- Apply a partial function to every element; `none` if it fails on any. -/
def mapAll {α β : Type} (f : α → Option β) : List α → Option (List β)
  | [] => some []
  | a :: as =>
    match f a, mapAll f as with
    | some b, some bs => some (b :: bs)
    | _, _ => none

/-- The zero-based position of an uppercase letter in the alphabet, `ord(c) - ord('A')` (R7). -/
def letterPos? (c : Char) : Option Nat :=
  if 65 ≤ c.toNat ∧ c.toNat ≤ 90 then some (c.toNat - 65) else none

/-- The uppercase letter at position `i` modulo 26 (R7, R74). -/
def letterChar (i : Nat) : Char := Char.ofNat (65 + i % 26)

/-- A decimal digit's value. -/
def digitVal? (c : Char) : Option Nat :=
  if 48 ≤ c.toNat ∧ c.toNat ≤ 57 then some (c.toNat - 48) else none

/-- The decimal number a list of digits spells. -/
def decimalOf (ds : List Nat) : Nat := ds.foldl (fun v d => v * 10 + d) 0

/-- The decimal spelling of a number below 100. -/
def decimalStr (n : Nat) : Str :=
  if n < 10 then [Char.ofNat (48 + n)] else [Char.ofNat (48 + n / 10), Char.ofNat (48 + n % 10)]

/-- The bits of a byte, bit 7 first (R7). -/
def byteBits (b : Byte) : List Bool :=
  [b.getLsbD 7, b.getLsbD 6, b.getLsbD 5, b.getLsbD 4, b.getLsbD 3, b.getLsbD 2, b.getLsbD 1, b.getLsbD 0]

/-- The number a list of bits spells, first bit most significant: `v <- (v << 1) | bit` (R151, D2). -/
def natOfBits (bs : List Bool) : Nat := bs.foldl (fun v b => 2 * v + b.toNat) 0

/-- The `w` low bits of `v`, from bit `w - 1` down to bit 0 (R158). -/
def bitsOfNat : Nat → Nat → List Bool
  | 0, _ => []
  | w + 1, v => v.testBit w :: bitsOfNat w v

/-- The byte whose bits are given, bit 7 first (R158: `byte <- (byte << 1) | bit`). -/
def byteOfBits (bs : List Bool) : Byte := BitVec.ofNat 8 (natOfBits bs)

/-- All 256 byte values in rising order. -/
def allBytes : List Byte := (List.range 256).map (BitVec.ofNat 8)

end Sys2Proof.Machine
end

