-- ==== Sys2Proof/Machine/Namespace.lean ====
section
/-! DEFINITION. The Register Namespace (40_register_namespace R70 to R75; R15 to R18): names and indices of the
CPU's registers. Constant functions; the block holds no register values (10_state R15). -/

namespace Sys2Proof.Machine

/-- The number a `Width` is. -/
def widthNat : Width → Nat
  | .w1 => 1
  | .w2 => 2
  | .w3 => 3
  | .w4 => 4

/-- The `Width` a number is, 1 to 4 (R10). -/
def widthOfNat? : Nat → Option Width
  | 1 => some .w1
  | 2 => some .w2
  | 3 => some .w3
  | 4 => some .w4
  | _ => none

/-- Each position is the successor, modulo 26, of the one before it (R70). -/
def contiguous : List Nat → Bool
  | a :: b :: rest => b == (a + 1) % 26 && contiguous (b :: rest)
  | _ => true

/-- `resolve` (R70): a general register or register group, by the position of its first letter. -/
def resolve (name : Str) : Option Nat :=
  if name.length < 1 ∨ 4 < name.length then none
  else
    match mapAll letterPos? name with
    | none => none
    | some ps => if contiguous ps then ps.head? else none

/-- `groupOf` (R71): the group a name denotes, its index and its width. -/
def groupOf (name : Str) : Option (Nat × Width) :=
  match resolve name, widthOfNat? name.length with
  | some i, some w => some (i, w)
  | _, _ => none

/-- The registers of a group, with wrap-around at the alphabet's end (R16, R71). -/
def groupMembers (i : Nat) (w : Width) : List Nat :=
  (List.range (widthNat w)).map fun j => (i + j) % 26

/-- The digits after the prefix "FR" or "F" of a float-register name, "FR" tried first (R72). -/
def floatSuffix : Str → Option Str
  | 'F' :: 'R' :: d => some d
  | 'F' :: d => some d
  | _ => none

/-- `resolveFloat` (R72): 1 or 2 digits, no redundant leading zero, at most 15. -/
def resolveFloat (name : Str) : Option Nat :=
  match floatSuffix name with
  | none => none
  | some d =>
    if d.length = 0 ∨ 2 < d.length then none
    else
      match mapAll digitVal? d with
      | none => none
      | some ds =>
        if ds.length = 2 ∧ ds.head? = some 0 then none
        else if 15 < decimalOf ds then none
        else some (decimalOf ds)

/-- `isSpecialRegister` (R73): exactly "SPC", "SPR" and "IPO". -/
def isSpecialRegister (name : Str) : Bool :=
  name == ['S', 'P', 'C'] || name == ['S', 'P', 'R'] || name == ['I', 'P', 'O']

/-- `nameOfGroup` (R74): the letters of the group's members, `none` for an index over 25. -/
def nameOfGroup (i : Nat) (w : Width) : Option Str :=
  if i ≤ 25 then some ((groupMembers i w).map letterChar) else none

/-- `nameOfFloat` (R74): "F" and the decimal index. -/
def nameOfFloat (i : Fin 16) : Str := 'F' :: decimalStr i.val

/-- All names the namespace gives a general register or group: 26 indices by 4 widths (R74, R16). -/
def allGroupNames : List Str :=
  (List.range 26).flatMap fun i => [Width.w1, .w2, .w3, .w4].filterMap (nameOfGroup i)

/-- The 32 spellings of the float registers: "F" and "FR" (R17, R72). -/
def allFloatNames : List Str :=
  (List.range 16).flatMap fun i => ['F' :: decimalStr i, 'F' :: 'R' :: decimalStr i]

end Sys2Proof.Machine
end

