-- ==== Sys2Proof/Machine/Shape.lean ====
section
/-! DEFINITION. The Operand Shape Grammar (41_shape_grammar R85 to R90): parsing and printing a shape signature.
One letter of the signature is one unit of width (90_conflicts C1); parentheses do not nest (C2). -/

namespace Sys2Proof.Machine

/-- The field letter of operand `i`, the `i`-th uppercase letter (R88). The spec gives no letter past `Z` (D19); that the
function wraps there is the model's choice (DESIGN CHOICE, log 25), and no operation asks for such a letter. -/
def letterOf (i : Nat) : Letter := ⟨i % 26, Nat.mod_lt i (by decide)⟩

/-- All field letters, `A` first. -/
def allLetters : List Letter := (List.range 26).map letterOf

/-- A token that is 1 to 4 times the character `c` and nothing else (R86). -/
def runOf (c : Char) (t : Str) : Option Width :=
  if t.all (· == c) then widthOfNat? t.length else none

/-- `parseBase` (R87): an address or a register group. -/
def parseBase (p : Str) : Option Inner :=
  match runOf 'n' p with
  | some w => some (.address w)
  | none => (runOf 'r' p).map .group

/-- `parseDisp` (R87): an immediate or a register-group displacement. -/
def parseDisp (p : Str) : Option Disp :=
  match runOf 'n' p with
  | some w => some (.immediate w)
  | none => (runOf 'r' p).map .group

/-- The parenthesised form, given the text between the parentheses (R87). -/
def parseIndirect (inside : Str) : Option OperandShape :=
  match splitOnChar ',' inside with
  | [b] => (parseBase b).map fun b => .memoryIndirect b .none
  | [b, d] =>
    match parseBase b, parseDisp d with
    | some b, some d => some (.memoryIndirect b d)
    | _, _ => none
  | _ => none

/-- `parseToken` (R87). -/
def parseToken (t : Str) : Option OperandShape :=
  match runOf 'r' t with
  | some w => some (.registerGroup w)
  | none =>
    match runOf 'n' t with
    | some w => some (.immediate w)
    | none =>
      if t = ['f', 'r'] then some .floatRegister
      else if 3 ≤ t.length ∧ t.head? = some '(' ∧ t.getLast? = some ')' then parseIndirect t.tail.dropLast
      else none

/-- The loop of `splitTop` (R87): `inParen` is `depth = 1`. -/
def splitTopFrom : Str → Bool → Str → List Str → Option (List Str)
  | [], inParen, cur, toks => if inParen then none else some (toks ++ [cur])
  | c :: cs, inParen, cur, toks =>
    if c = '(' then
      if inParen then none else splitTopFrom cs true (cur ++ [c]) toks
    else if c = ')' then
      if inParen then splitTopFrom cs false (cur ++ [c]) toks else none
    else if c = ',' ∧ inParen = false then splitTopFrom cs inParen [] (toks ++ [cur])
    else splitTopFrom cs inParen (cur ++ [c]) toks

/-- `splitTop` (R87): split at the commas that are outside parentheses. -/
def splitTop (sig : Str) : Option (List Str) := splitTopFrom sig false [] []

/-- `parseShape` (R87); the empty signature has no operands (D9), more than 26 operands fail (D19). -/
def parseShape (sig : Str) : Option (List OperandShape) :=
  if sig = [] then some []
  else
    match splitTop sig with
    | none => none
    | some toks => if Config.maxOperands < toks.length then none else mapAll parseToken toks

/-- A base spelled by the grammar (R89). -/
def printInner : Inner → Str
  | .address w => List.replicate (widthNat w) 'n'
  | .group w => List.replicate (widthNat w) 'r'

/-- A displacement spelled by the grammar (R89); `NoDisp` has no text of its own. -/
def printDisp : Disp → Str
  | .none => []
  | .immediate w => List.replicate (widthNat w) 'n'
  | .group w => List.replicate (widthNat w) 'r'

/-- One operand spelled by the grammar (R89). -/
def printToken : OperandShape → Str
  | .registerGroup w => List.replicate (widthNat w) 'r'
  | .immediate w => List.replicate (widthNat w) 'n'
  | .floatRegister => ['f', 'r']
  | .memoryIndirect b .none => '(' :: printInner b ++ [')']
  | .memoryIndirect b d => '(' :: printInner b ++ ',' :: printDisp d ++ [')']

/-- `printShape` (R89). -/
def printShape (shapes : List OperandShape) : Str := joinWith ',' (shapes.map printToken)

/-- The four widths. -/
def allWidths : List Width := [.w1, .w2, .w3, .w4]

/-- The 8 bases (R90). -/
def allInners : List Inner := allWidths.map .address ++ allWidths.map .group

/-- The 9 displacements, none among them (R90). -/
def allDisps : List Disp := .none :: allWidths.map .immediate ++ allWidths.map .group

/-- Every single-operand shape of the grammar (R90). -/
def allShapes : List OperandShape :=
  allWidths.map .registerGroup ++ allWidths.map .immediate ++ [.floatRegister] ++
    allInners.flatMap fun b => allDisps.map fun d => .memoryIndirect b d

end Sys2Proof.Machine
end

