-- ==== Sys2Proof/Machine/Layout.lean ====
section
/-! DEFINITION. Bit layouts: template strings (30_encoding R45 to R47), well-formedness (R48), the Bit Layout
Compiler (42_layout_compiler R100 to R110) and field positions (44_operator_registry R138). -/

namespace Sys2Proof.Machine

/-- The tag a template character stands for (R46). -/
def tagOfChar (c : Char) : Option Tag :=
  if c = 'o' then some .op
  else if c = '0' then some .lit0
  else if c = '1' then some .lit1
  else if c = 'u' then some .dontCare
  else (letterPos? c).map fun i => .field (letterOf i)

/-- The template character of a tag (R46). -/
def charOfTag : Tag → Char
  | .op => 'o'
  | .lit0 => '0'
  | .lit1 => '1'
  | .dontCare => 'u'
  | .field X => letterChar X.val

/-- One group of a template: exactly 8 tag characters, leftmost bit 7 (R45). -/
def parseGroup (g : Str) : Option LayoutByte :=
  if g.length = 8 then mapAll tagOfChar g else none

/-- `parseTemplate` (R47). -/
def parseTemplate (s : Str) : Option BitLayout := mapAll parseGroup (splitOnChar ' ' s)

/-- `printTemplate` (R47). -/
def printTemplate (L : BitLayout) : Str := joinWith ' ' (L.map (List.map charOfTag))

/-- An opcode tag. -/
def isOpTag : Tag → Bool
  | .op => true
  | _ => false

/-- A literal tag. -/
def isLitTag : Tag → Bool
  | .lit0 | .lit1 => true
  | _ => false

/-- `k`: the number of consecutive `Op` tags from the left (R145). -/
def leadingOps (t : LayoutByte) : Nat := (t.takeWhile isOpTag).length

/-- The literal tags that follow the leading `Op` tags (R145). -/
def leadingLits (t : LayoutByte) : List Tag := (t.dropWhile isOpTag).takeWhile isLitTag

/-- The tags after the leading `Op` and literal tags: the "rest" of R49. -/
def afterHeader (t : LayoutByte) : List Tag := (t.dropWhile isOpTag).dropWhile isLitTag

/-- `wf_header_form` on byte 0: after the opcode and literal tags, no opcode or literal tag (R48, D4). -/
def headerForm (t : LayoutByte) : Bool := (afterHeader t).all fun x => !isOpTag x && !isLitTag x

/-- A list of tags that is `Op`×k then literal×l and nothing else, with `k + l ≤ 8`: the header `H` of
R101. -/
def isHeader (H : List Tag) : Bool := (afterHeader H).isEmpty && H.length ≤ 8

/-- The layouts `hdr` is for: a byte 0 of 8 tags in the form of R49 (R145). -/
def hdrDomain (L : BitLayout) : Bool :=
  match L with
  | [] => false
  | t :: _ => t.length == 8 && headerForm t

/-- The number of tags `Field(X)` in a layout. -/
def fieldCount (L : BitLayout) (X : Letter) : Nat := L.flatten.count (.field X)

/-- The letters that occur in a layout, in the order A, B, … (R154, R158). -/
def lettersOf (L : BitLayout) : List Letter := allLetters.filter fun X => L.flatten.contains (.field X)

/-- The named checks of R48. -/
inductive WfCheck where
  | nonempty
  | wholeBytes
  | headerForm
  | opOnlyInByte0
  | lettersDense
  | lettersOrdered
deriving DecidableEq, Repr

/-- One named check of R48 on a layout. Without a byte 0 only `nonempty` fails. -/
def wfCheck (L : BitLayout) : WfCheck → Bool
  | .nonempty => !L.isEmpty
  | .wholeBytes => L.all fun t => t.length == 8
  | .headerForm => L.head?.all headerForm
  | .opOnlyInByte0 => L.tail.all fun t => !t.any isOpTag
  | .lettersDense => lettersOf L == (List.range (lettersOf L).length).map letterOf
  | .lettersOrdered =>
    (lettersOf L).all fun X => (lettersOf L).all fun Y =>
      !(decide (X < Y)) || decide (L.flatten.idxOf (.field X) < L.flatten.idxOf (.field Y))

/-- `wfLayout` (R48): all its named checks. -/
def wfLayout (L : BitLayout) : Bool :=
  wfCheck L .nonempty && wfCheck L .wholeBytes && wfCheck L .headerForm && wfCheck L .opOnlyInByte0 &&
    wfCheck L .lettersDense && wfCheck L .lettersOrdered

/-- The byte of a register-group field, `uuuXXXXX` (R51, R103). -/
def regByte (X : Letter) : LayoutByte :=
  List.replicate 3 .dontCare ++ List.replicate Config.regFieldBits (.field X)

/-- The byte of a float-register field, `uuuuXXXX` (R51). -/
def fregByte (X : Letter) : LayoutByte :=
  List.replicate 4 .dontCare ++ List.replicate Config.fregFieldBits (.field X)

/-- The bytes of an immediate or address of `w` bytes, `XXXXXXXX` each (R51, R104). -/
def immBytes (w : Width) (X : Letter) : BitLayout :=
  List.replicate (widthNat w) (List.replicate 8 (.field X))

/-- `baseBytes` (R101). -/
def baseBytes : Inner → Letter → BitLayout
  | .address w, X => immBytes w X
  | .group _, X => [regByte X]

/-- `dispBytes` (R101). -/
def dispBytes : Disp → Letter → BitLayout
  | .none, _ => []
  | .immediate w, X => immBytes w X
  | .group _, X => [regByte X]

/-- `operandBytes` (R101): a memory-indirect operand's base and displacement share its letter (R105). -/
def operandBytes : OperandShape → Letter → BitLayout
  | .registerGroup _, X => [regByte X]
  | .floatRegister, X => [fregByte X]
  | .immediate w, X => immBytes w X
  | .memoryIndirect b d, X => baseBytes b X ++ dispBytes d X

/-- The bytes of the operands from ordinal `i` on, in signature order (R101). -/
def operandsBytes : Nat → List OperandShape → BitLayout
  | _, [] => []
  | i, sh :: shs => operandBytes sh (letterOf i) ++ operandsBytes (i + 1) shs

/-- `baseBits` (R106). -/
def baseBits : Inner → Nat
  | .address w => 8 * widthNat w
  | .group _ => Config.regFieldBits

/-- `dispBits` (R106). -/
def dispBits : Disp → Nat
  | .none => 0
  | .immediate w => 8 * widthNat w
  | .group _ => Config.regFieldBits

/-- `fieldBits` (R106): how many bits an operand's letter has. -/
def fieldBits : OperandShape → Nat
  | .registerGroup _ => Config.regFieldBits
  | .floatRegister => Config.fregFieldBits
  | .immediate w => 8 * widthNat w
  | .memoryIndirect b d => baseBits b + dispBits d

/-- The number of `Field` tags of each operand from ordinal `i` on is its `fieldBits` (R106, R108). -/
def fieldBitsAgree (L : BitLayout) : Nat → List OperandShape → Bool
  | _, [] => true
  | i, sh :: shs => fieldCount L (letterOf i) == fieldBits sh && fieldBitsAgree L (i + 1) shs

/-- What R108 asks of a result of `PACK_COMPILE`: a well-formed layout whose byte 0 begins with exactly
the tags of `H` and goes on with `Field(A)` or don't-care tags, at least one of them `Field(A)` when
there are operands, and whose every operand has its `fieldBits`. An operand past the 26th has no letter (R88, D19), so no
layout gives it bits and no result is allowed (DEDUCED, log 25). -/
def packAllowed (H : List Tag) (shapes : List OperandShape) (L : BitLayout) : Bool :=
  match L with
  | [] => false
  | t :: _ =>
    isHeader H && decide (shapes.length ≤ Config.maxOperands) && wfLayout L && H.isPrefixOf t &&
      (t.drop H.length).all (fun x => x == .dontCare || x == .field (letterOf 0)) &&
      (shapes.isEmpty || (t.drop H.length).contains (.field (letterOf 0))) &&
      fieldBitsAgree L 0 shapes

/-- `PACK_COMPILE` for a function `raw` the platform supplies: its results that R108 allows (log 9). -/
def packCompileWith (raw : List Tag → List OperandShape → Option BitLayout) (H : List Tag)
    (shapes : List OperandShape) : Option BitLayout :=
  match raw H shapes with
  | some L => if packAllowed H shapes L then some L else none
  | none => none

/-- `PACK_COMPILE` (R108): the OPEN parameter. -/
def packCompile (H : List Tag) (shapes : List OperandShape) : Option BitLayout :=
  packCompileWith Config.packRaw H shapes

/-- `compileLayout` (R101), given a `PACK_COMPILE`. -/
def compileLayoutWith (pack : List Tag → List OperandShape → Option BitLayout) (H : List Tag)
    (shapes : List OperandShape) : Option BitLayout :=
  if isHeader H = false ∨ Config.maxOperands < shapes.length then none
  else if H.length = 8 then some (H :: operandsBytes 0 shapes)
  else pack H shapes

/-- `compileLayout` (R101). -/
def compileLayout (H : List Tag) (shapes : List OperandShape) : Option BitLayout :=
  compileLayoutWith packCompile H shapes

/-- The `(byteIndex, bitIndex)` pairs tagged `Field(X)` in byte `j`, bit 7 first (R138). -/
def bytePositions (j : Nat) (t : LayoutByte) (X : Letter) : List (Nat × Nat) :=
  t.zipIdx.filterMap fun p => if p.1 = .field X then some (j, 7 - p.2) else none

/-- `fieldPositions` (R138): byte 0 first, bit 7 first. -/
def fieldPositions (L : BitLayout) (X : Letter) : List (Nat × Nat) :=
  L.zipIdx.flatMap fun p => bytePositions p.2 p.1 X

end Sys2Proof.Machine
end

