-- ==== Sys2Proof/Machine/Catalog.lean ====
section
/-! DEFINITION. The Addressing-Mode Catalog (43_addressing_catalog R115 to R122). The entries are the OPEN parameter
`Config.catTable`; the catalog the block sees is those entries that obey the spec's laws (log 8). -/

namespace Sys2Proof.Machine

/-- A catalog: entries (signature, id). -/
abbrev Catalog := List (Str × AddressingModeId)

/-- `CAT(sig)` of a finite map given as entries: the first entry of that signature. -/
def catalogFind (cat : Catalog) (sig : Str) : Option AddressingModeId :=
  (cat.find? fun e => e.1 == sig).map Prod.snd

/-- All literal patterns of `l` tags. -/
def litPatterns : Nat → List (List Tag)
  | 0 => [[]]
  | l + 1 => (litPatterns l).flatMap fun p => [.lit0 :: p, .lit1 :: p]

/-- Every header `H` of R101: `Op`×k then l literal tags, `k + l ≤ 8`. -/
def allHeaders : List (List Tag) :=
  (List.range 9).flatMap fun k =>
    (List.range (9 - k)).flatMap fun l => (litPatterns l).map fun p => List.replicate k .op ++ p

/-- R119: two signatures may share an id only if, for every header, they compile to the same layout.
Compiled layouts take their letters in order of first use, so a renaming of letters between two of
them is the identity (log 18). -/
def aliasAllowed (pack : List Tag → List OperandShape → Option BitLayout) (s1 s2 : Str) : Bool :=
  match parseShape s1, parseShape s2 with
  | some sh1, some sh2 =>
    allHeaders.all fun H => compileLayoutWith pack H sh1 == compileLayoutWith pack H sh2
  | _, _ => false

/-- An entry that may stand beside the ones already in the catalog: its signature parses (R117), is new
(a map has one value per signature), and shares an id only with an alias (R119). -/
def catalogAdmits (pack : List Tag → List OperandShape → Option BitLayout) (cat : Catalog)
    (e : Str × AddressingModeId) : Bool :=
  (parseShape e.1).isSome &&
    cat.all fun f => f.1 != e.1 && (f.2 != e.2 || aliasAllowed pack f.1 e.1)

/-- The entries of `raw` from the left that obey the laws. -/
def lawfulCatalog (pack : List Tag → List OperandShape → Option BitLayout) (raw : Catalog) : Catalog :=
  raw.foldl (fun cat e => if catalogAdmits pack cat e then cat ++ [e] else cat) []

/-- `CAT` (R6, R115): the OPEN parameter. -/
def catalog : Catalog := lawfulCatalog packCompile Config.catTable

/-- `catalogLookup` (R115): `none` for a signature that is not catalogued (D22). -/
def catalogLookup (sig : Str) : Option AddressingModeId := catalogFind catalog sig

/-- `N_MODES`: the size of the image of a catalog (R6). -/
def nModes (cat : Catalog) : Nat := ((cat.map Prod.snd).dedup).length

/-- "append-only" (R120): a later catalog keeps every entry of the earlier one. -/
def catalogExtends (old new : Catalog) : Bool :=
  old.all fun e => catalogFind new e.1 == catalogFind old e.1

/-- "immediate matching width" of a register group of width `k` (R118). -/
def matchingImmediate (k : Width) : OperandShape := .immediate k

/-- The cross-product R117 describes: a first operand that is a register group or a float register; a second
that is a register group of any width, a float register, a memory-indirect form, or the immediate matching a
register-group first operand. Which immediates match a float first operand is not stated (R118, 91_not_in_source N2): a free
value (log 26). The catalog may hold other combinations (R117). -/
def describedCombination : List OperandShape → Bool
  | [.registerGroup k, .immediate w] => .immediate w == matchingImmediate k
  | [.registerGroup _, _] => true
  | [.floatRegister, .immediate w] => Config.floatMatchesImmediate w
  | [.floatRegister, _] => true
  | _ => false

end Sys2Proof.Machine
end

