-- ==== Sys2Proof/Machine/Registry.lean ====
section
/-! DEFINITION. Forward lookup in the operator table and the operand-shape matcher (44_operator_registry R129 to
R135): pure functions of a table. -/

namespace Sys2Proof.Machine

/-- `mnemOf` (R129): the characters before the first space. -/
def mnemOf (key : Str) : Str := key.takeWhile (· != ' ')

/-- `sigOf` (R129): the characters after the first space, empty when there is none. -/
def sigOf (key : Str) : Str := (key.dropWhile (· != ' ')).tail

/-- The key of a mnemonic and a signature (R129, D9). -/
def keyOf (mnemonic sig : Str) : Str := if sig = [] then mnemonic else mnemonic ++ ' ' :: sig

/-- `primaryByMnemonic` (R135). -/
def primaryByMnemonic (T : Table) (m : Str) : Option Primary := T.pt.find? fun p => p.mnemonic == m

/-- `primaryOpcodeOf` (R130): 0 for an unknown mnemonic, the silent fallback (R198, 90_conflicts C6). -/
def primaryOpcodeOf (T : Table) (m : Str) : Byte :=
  match primaryByMnemonic T m with
  | some p => p.opcode
  | none => Config.nopOpcode

/-- `primaryByCode` (R134): the first registered (D25). -/
def primaryByCode (T : Table) (code : Byte) : Option Primary := T.pt.find? fun p => p.opcode == code

/-- The secondary registered under a key (R131, R132). -/
def secondaryByKey (T : Table) (key : Str) : Option Secondary := T.st.find? fun q => q.key == key

/-- `formatOf` (R131): reads `ST` only (D23). -/
def formatOf (T : Table) (key : Str) : Option BitLayout := (secondaryByKey T key).map Secondary.layout

/-- `matchShape` (R132): the exact shape, no widening. -/
def matchShape (T : Table) (m : Str) (shapes : List OperandShape) : Option Secondary :=
  secondaryByKey T (keyOf m (printShape shapes))

/-- `secondariesOf` (R133): in registration order. -/
def secondariesOf (T : Table) (parent : Byte) : List Secondary := T.st.filter fun q => q.parent == parent

/-- `MAX_LAYOUT_BYTES`: the longest registered layout (R6). -/
def maxLayoutBytes (T : Table) : Nat := T.st.foldl (fun n q => max n q.layout.length) 0

/-- `N = 1 + MAX_LAYOUT_BYTES`, the width of the input port in bytes (R166). -/
def portBytes (T : Table) : Nat := 1 + maxLayoutBytes T

end Sys2Proof.Machine
end

