-- ==== Sys2Proof/Machine/State.lean ====
section
/-! DEFINITION. The state of the block and what an operation can answer (10_state; 45_decode R153, R154;
60_exceptions R171). -/

namespace Sys2Proof.Machine

/-- `phase` (R11). -/
inductive Phase where
  | registering
  | frozen
  | failed
deriving DecidableEq, Repr

/-- The named checks of `Consistent`, in the order of R163's table. -/
inductive Check where
  | layoutWf
  | subcodeFits
  | disjoint
  | primaryOpcodeUnique
  | parentRegistered
  | keyMnemonic
  | shapeParses
  | fieldWidths
deriving DecidableEq, Repr

/-- The witness of a failed check (R175): for `chk_disjoint` the pair and the smallest raw byte both match,
for the others the first offending entry. -/
inductive Witness where
  | pair (q1 q2 : Secondary) (raw : Byte)
  | secondary (q : Secondary)
  | primary (p : Primary)
deriving DecidableEq, Repr

/-- `RegistrationError`, the closed set of fatal causes (R171). -/
inductive RegistrationError where
  | duplicatePrimaryMnemonic (mnemonic : Str)
  | duplicateSecondaryKey (key : Str)
  | malformedLayout (key : Str)
  | selfTestFailed (check : Check) (witness : Witness)
deriving DecidableEq, Repr

/-- The base of a decoded memory-indirect operand (R153). -/
inductive DecodedBase where
  | addr (value : Nat) (bytes : Width)
  | reg (index : Nat) (width : Width) (inRange : Bool)
deriving DecidableEq, Repr

/-- The displacement of a decoded memory-indirect operand (R153). -/
inductive DecodedDisp where
  | none
  | imm (value : Nat) (bytes : Width)
  | reg (index : Nat) (width : Width) (inRange : Bool)
deriving DecidableEq, Repr

/-- `DecodedOperand` (R153). -/
inductive DecodedOperand where
  | reg (index : Nat) (width : Width) (inRange : Bool)
  | freg (index : Nat)
  | imm (value : Nat) (bytes : Width)
  | mem (base : DecodedBase) (disp : DecodedDisp)
deriving DecidableEq, Repr

/-- One extracted field (R154: `(letter, value, width)`). -/
structure FieldValue where
  letter : Letter
  value : Nat
  width : Nat
deriving DecidableEq, Repr

/-- The record of a decoded instruction (R154). -/
structure DecodedInstr where
  primary : Primary
  op : Secondary
  len : Nat
  fields : List FieldValue
  operands : Option (List DecodedOperand)
  literalsOk : Bool
deriving DecidableEq, Repr

/-- `DecodeResult` (R154). -/
inductive DecodeResult where
  | decoded (d : DecodedInstr)
  | primaryOnly (primary : Primary)
  | illegalPrimary (P : Byte)
  | illegalSecondary (P raw : Byte)
  | truncated (need : Nat)
deriving DecidableEq, Repr

/-- What an operation answers: the "return v" of R8, one constructor for each type of result.
The model's own type (log 1). -/
inductive Result where
  /-- No operation has answered yet. -/
  | idle
  /-- `resolve`, `resolveFloat`. -/
  | index (i : Option Nat)
  /-- `groupOf`. -/
  | group (g : Option (Nat × Width))
  /-- `isSpecialRegister`, `wfLayout`, `matches`, `Consistent`. -/
  | bool (b : Bool)
  /-- `nameOfGroup`, `nameOfFloat`. -/
  | name (n : Option Str)
  /-- `parseShape`. -/
  | shapes (shs : Option (List OperandShape))
  /-- `printShape`, `printTemplate`. -/
  | text (s : Str)
  /-- `parseTemplate`, `compileLayout`, `PACK_COMPILE`, `formatOf`. -/
  | layout (L : Option BitLayout)
  /-- `catalogLookup`. -/
  | modeId (id : Option AddressingModeId)
  /-- `primaryOpcodeOf`. -/
  | opcode (P : Byte)
  /-- `primaryByCode`, `primaryByMnemonic`; `none` also for the family of an instruction row that is not
  registered. -/
  | primary (p : Option Primary)
  /-- `matchShape`, `decodeSecondary`; `none` also for the operator of an instruction row that is not
  registered. -/
  | secondary (q : Option Secondary)
  /-- `secondariesOf`. -/
  | secondaries (qs : List Secondary)
  /-- `fieldPositions`. -/
  | positions (ps : List (Nat × Nat))
  /-- `hdr`: `(k, l, lit)`. -/
  | hdr (k l lit : Nat)
  /-- `extractField`: `(value, width)`. -/
  | field (value width : Nat)
  /-- `splitIndirect`: `(baseValue, dispValue)`. -/
  | split (base disp : Nat)
  /-- `decodeInstr` and every instruction row. -/
  | decode (r : DecodeResult)
  /-- `encodeInstr`; `none` also for an instruction row whose values the operator does not encode. -/
  | bytes (bs : Option (List Byte))
deriving DecidableEq, Repr

/-- The machine's state. `phase`, `pt`, `st`, `err` are the block's (R11 to R14) and all of it (R21); `seq` is the
start-up sequencer's place in `REGSEQ` (R191); `ib`, `calls`, `out` are the model's own and stand for the
block's ports (R166). No register, flag, program counter or memory (R15 to R20, R35). -/
structure State where
  /-- `phase` (R11). -/
  phase : Phase
  /-- `PT` (R12). -/
  pt : List Primary
  /-- `ST` (R13). -/
  st : List Secondary
  /-- `err` (R14). -/
  err : Option RegistrationError
  /-- The registration calls still to perform; `none` is all of `REGSEQ` (R191; log 3). -/
  seq : Option (List RegCall)
  /-- The bytes presented at the input port, `ib[0]` first (R30, R166; log 2). -/
  ib : List Byte
  /-- The operations consumers wait for, oldest first (R37, R41; log 2). -/
  calls : List Instr
  /-- The last result (R166; log 1). -/
  out : Result
deriving DecidableEq, Repr

/-- The state right after reset (R27, R190). The last four fields are the model's own and hold nothing
(DESIGN CHOICE, log 19). -/
def State.reset : State where
  phase := .registering
  pt := []
  st := []
  err := none
  seq := none
  ib := []
  calls := []
  out := .idle

/-- Why the machine stops. -/
inductive Fault where
  /-- A step in `FAILED`: "`FAILED` is terminal: no operation has a result in that phase" (R178, U12). Raised by `step`.
  SAFE: the block has no transition there. -/
  | blockFailed
deriving DecidableEq, Repr

/-- The phases in which an operation may be used (R125, R178). -/
inductive PhaseNeed where
  | registering
  | frozen
  | live
deriving DecidableEq, Repr

/-- Why an operation has no step. -/
inductive Refusal where
  /-- Not modelled yet: raised by `exec` only, for an instruction without a meaning. SAFE. No arm uses it. -/
  | notModelled (mnemonic : String)
  /-- The operation may not be used in this phase: "refused: no state changes and no result is produced"
  (R125, U11). Raised by every operation whose phase condition fails. SAFE. -/
  | wrongPhase (need : PhaseNeed) (now : Phase)
deriving DecidableEq, Repr

end Sys2Proof.Machine
end

