-- ==== Sys2Proof/Machine/Operands.lean ====
section
/-! DEFINITION. Operand forms (45_decode R151 to R153): collecting a field's bits, splitting a memory-indirect value,
the typed operand. Every value is the unsigned number its bits spell (30_encoding R54). -/

namespace Sys2Proof.Machine

/-- A register-field value names a register (R61, R153): 0 to 25. -/
def inRange (v : Nat) : Bool := v ≤ 25

/-- The layout's tags, each with the instruction bit at its position, in layout order (R151). -/
def taggedBits (L : BitLayout) (lb : List Byte) : List (Tag × Bool) :=
  (L.zip lb).flatMap fun p => p.1.zip (byteBits p.2)

/-- The bits tagged `Field(X)`, in layout order (R151, R138). -/
def collect (X : Letter) (tb : List (Tag × Bool)) : List Bool :=
  tb.filterMap fun p => if p.1 = .field X then some p.2 else none

/-- `extractField` (R151): the value, first collected bit most significant, and the width. -/
def extractField (L : BitLayout) (lb : List Byte) (X : Letter) : Nat × Nat :=
  (natOfBits (collect X (taggedBits L lb)), (collect X (taggedBits L lb)).length)

/-- The first `n` bytes of `lb`; a byte it does not hold is free (R151 asks for at least `|L|`; log 11). -/
def padBytes (n : Nat) (lb : List Byte) : List Byte :=
  (List.range n).map fun j => lb.getD j (Config.absentByte j)

/-- `splitIndirect` (R152): the base is the more significant part; it does not depend on the inner's kind. -/
def splitIndirect (_b : Inner) (d : Disp) (v : Nat) : Nat × Nat :=
  (v >>> dispBits d, v &&& (2 ^ dispBits d - 1))

/-- The value of a memory-indirect operand from its parts (R158): `(baseValue << dispBits(d)) | dispValue`. -/
def joinIndirect (d : Disp) (base disp : Nat) : Nat := (base <<< dispBits d) ||| disp

/-- The base of a typed memory-indirect operand (R153). -/
def typedBase : Inner → Nat → DecodedBase
  | .address n, bv => .addr bv n
  | .group g, bv => .reg bv g (inRange bv)

/-- The displacement of a typed memory-indirect operand (R153). -/
def typedDisp : Disp → Nat → DecodedDisp
  | .none, _ => .none
  | .immediate n, dv => .imm dv n
  | .group g, dv => .reg dv g (inRange dv)

/-- `typed` (R153). -/
def typedOperand : OperandShape → Nat → DecodedOperand
  | .registerGroup g, v => .reg v g (inRange v)
  | .floatRegister, v => .freg v
  | .immediate n, v => .imm v n
  | .memoryIndirect b d, v => .mem (typedBase b (splitIndirect b d v).1) (typedDisp d (splitIndirect b d v).2)

/-- The shapes and fields of an operator fit: as many, and each field as wide as its shape (R154). -/
def fieldsFit : List OperandShape → List FieldValue → Bool
  | [], [] => true
  | sh :: shs, f :: fs => f.width == fieldBits sh && fieldsFit shs fs
  | _, _ => false

/-- The typed operands of an operator's fields, when its signature parses and fits them (R154). -/
def operandsOf (q : Secondary) (fields : List FieldValue) : Option (List DecodedOperand) :=
  match parseShape (sigOf q.key) with
  | some shapes =>
    if fieldsFit shapes fields then some (List.zipWith (fun sh f => typedOperand sh f.value) shapes fields)
    else none
  | none => none

end Sys2Proof.Machine
end

