-- ==== Sys2Proof/Machine/Flags.lean ====
section
/-! DEFINITION. The flag of a decoded record. The block has no condition codes (10_state R20: "None"); the two
flags the spec gives are `inRange` (Machine/Operands.lean, R61) and `literalsOk` (R62, R153). -/

namespace Sys2Proof.Machine

/-- A literal tag and the stream bit at its position agree; any other tag asks nothing (R153). -/
def literalAgrees (p : Tag × Bool) : Bool :=
  match p.1 with
  | .lit0 => !p.2
  | .lit1 => p.2
  | _ => true

/-- `literalsOk` (R153): every literal tag in bytes 1.. of the layout equals the stream bit at its
position. Byte 0 takes part in the match instead (R62). -/
def literalsOk (L : BitLayout) (lb : List Byte) : Bool := (taggedBits L.tail lb.tail).all literalAgrees

end Sys2Proof.Machine
end

