-- ==== Sys2Proof/Decode.lean ====
section
/-! DEFINITION. The decoder (45_decode R145 to R156), then the encoder (R158), then the model's own reading of bytes as an
`Instr` and back. All are pure functions of their arguments and a table. -/

namespace Sys2Proof.Machine

/-- The number of literal tags spell, the first most significant (R145). -/
def litValue (ts : List Tag) : Nat := natOfBits (ts.map (· == .lit1))

/-- `hdr` (R145): `(k, l, lit)`; a free value for a layout it is not for (log 10). -/
def hdr (L : BitLayout) : Nat × Nat × Nat :=
  match L with
  | [] => Config.hdrOutside L
  | t :: _ =>
    if hdrDomain L then (leadingOps t, (leadingLits t).length, litValue (leadingLits t))
    else Config.hdrOutside L

/-- The document's `subOpBits`, `s = k + l` (R145). -/
def subOpBits (L : BitLayout) : Nat := (hdr L).1 + (hdr L).2.1

/-- `corrected` (R146): `(amid << l) | lit`, on natural numbers. -/
def corrected (q : Secondary) : Nat := (q.amid <<< (hdr q.layout).2.1) ||| (hdr q.layout).2.2

/-- `matches` (R147): `(raw >> (8 - s)) == corrected` (R200: the shifts are `l` and `8 - s`). -/
def matchesRaw (q : Secondary) (raw : Byte) : Bool :=
  (raw.toNat >>> (8 - subOpBits q.layout)) == corrected q

/-- The first value of the block of raw bytes an operator owns (R148). -/
def rawSetStart (q : Secondary) : Nat := corrected q <<< (8 - subOpBits q.layout)

/-- How many raw bytes an operator owns (R148). -/
def rawSetSize (q : Secondary) : Nat := if q.amid < 2 ^ (hdr q.layout).1 then 2 ^ (8 - subOpBits q.layout) else 0

/-- `decodeSecondary` (R149): the first operator of the parent that matches. -/
def decodeSecondary (T : Table) (parent raw : Byte) : Option Secondary :=
  (secondariesOf T parent).find? fun q => matchesRaw q raw

/-- The fields of a layout's letters in order A, B, … (R154). -/
def fieldsOf (L : BitLayout) (lb : List Byte) : List FieldValue :=
  (lettersOf L).map fun X => { letter := X, value := (extractField L lb X).1, width := (extractField L lb X).2 }

/-- The decoded record of an operator's fields (R154). -/
def decodedRecord (p : Primary) (q : Secondary) (fields : List FieldValue) (litOk : Bool) : DecodedInstr where
  primary := p
  op := q
  len := 1 + q.layout.length
  fields := fields
  operands := operandsOf q fields
  literalsOk := litOk

/-- `decodeInstr` (R154). -/
def decodeInstr (T : Table) (ib : List Byte) : DecodeResult :=
  match ib with
  | [] => .truncated 1
  | P :: rest =>
    match primaryByCode T P with
    | none => .illegalPrimary P
    | some p =>
      if secondariesOf T P = [] then .primaryOnly p
      else
        match rest with
        | [] => .truncated 2
        | raw :: _ =>
          match decodeSecondary T P raw with
          | none => .illegalSecondary P raw
          | some q =>
            if rest.length < q.layout.length then .truncated (1 + q.layout.length)
            else
              .decoded (decodedRecord p q (fieldsOf q.layout (rest.take q.layout.length))
                (literalsOk q.layout (rest.take q.layout.length)))

/-- The length of a decoded instruction (R155); the other verdicts have none. -/
def lengthOf : DecodeResult → Option Nat
  | .decoded d => some d.len
  | .primaryOnly _ => some 1
  | _ => none

/-- The bytes at which the next instruction starts (R155), for the consumer that advances the stream (R19). -/
def nextBytes (r : DecodeResult) (ib : List Byte) : Option (List Byte) := (lengthOf r).map ib.drop

/-- How many bytes of the stream a verdict rests on (R32): none beyond `ib[len-1]`. R32 counts only up to a decoded
instruction's `len`; of a `Truncated` verdict the model counts what R154's pseudocode has used by then, at most `ib[0]`
and `ib[1]` (DEDUCED, log 24). -/
def bytesRead : DecodeResult → Nat
  | .decoded d => d.len
  | .primaryOnly _ => 1
  | .illegalPrimary _ => 1
  | .illegalSecondary _ _ => 2
  | .truncated need => min (need - 1) 2

/-- One letter's bits left to place. -/
def takeFieldBit (fb : Letter → List Bool) (X : Letter) : Bool × (Letter → List Bool) :=
  ((fb X).headD false, fun Y => if Y = X then (fb X).tail else fb Y)

/-- The instruction bits of a list of tags (R158): `Op` takes the next bit of the subcode, a literal its value,
a don't-care 0 (D6), `Field(X)` the next bit of operand X's value. An `Op` tag with no bit of the subcode left
writes a free bit (log 12). -/
def placeBits : List Tag → List Bool → (Letter → List Bool) → List Bool
  | [], _, _ => []
  | .op :: ts, ob, fb => ob.headD (Config.spareOpBit ts.length) :: placeBits ts ob.tail fb
  | .lit0 :: ts, ob, fb => false :: placeBits ts ob fb
  | .lit1 :: ts, ob, fb => true :: placeBits ts ob fb
  | .dontCare :: ts, ob, fb => false :: placeBits ts ob fb
  | .field X :: ts, ob, fb => (takeFieldBit fb X).1 :: placeBits ts ob (takeFieldBit fb X).2

/-- Cut a list of bits into one byte per layout byte (R158). -/
def bitsToBytes : BitLayout → List Bool → List Byte
  | [], _ => []
  | t :: L, bs => byteOfBits (bs.take t.length) :: bitsToBytes L (bs.drop t.length)

/-- The bits of each letter's value, most significant first (R158). -/
def valueBits (L : BitLayout) (vals : List Nat) (X : Letter) : List Bool :=
  bitsOfNat (fieldCount L X) (vals.getD ((lettersOf L).idxOf X) 0)

/-- The operand values fit their fields: as many as letters, none too wide (R158, D31). -/
def valuesFit (L : BitLayout) (vals : List Nat) : Bool :=
  vals.length == (lettersOf L).length &&
    (List.zip (lettersOf L) vals).all fun p => decide (p.2 < 2 ^ fieldCount L p.1)

/-- `encodeInstr` (R158). -/
def encodeInstr (q : Secondary) (vals : List Nat) : Option (List Byte) :=
  if 2 ^ (hdr q.layout).1 ≤ q.amid then none
  else if valuesFit q.layout vals = false then none
  else
    some (q.parent :: bitsToBytes q.layout
      (placeBits q.layout.flatten (bitsOfNat (hdr q.layout).1 q.amid) (valueBits q.layout vals)))

/-- A tag's bit in the canonical encoding (R159 (b)): `u` cleared, a literal at its value, any other as
received. -/
def canonicalBit (p : Tag × Bool) : Bool :=
  match p.1 with
  | .dontCare => false
  | .lit0 => false
  | .lit1 => true
  | _ => p.2

/-- The layout bytes with every `u` bit cleared and every literal bit set to its value (R159 (b), R202). -/
def canonicalBytes : BitLayout → List Byte → List Byte
  | t :: L, b :: bs => byteOfBits ((t.zip (byteBits b)).map canonicalBit) :: canonicalBytes L bs
  | _, _ => []

/-- The record of an operator with given operand values, without the bytes in between (R153, R154). -/
def fieldsOfValues (L : BitLayout) (vals : List Nat) : List FieldValue :=
  List.zipWith (fun X v => { letter := X, value := v, width := fieldCount L X }) (lettersOf L) vals

/-- The verdict on an instruction of operator `q` with operand values `vals`, its later literal bits as `litOk`
says (R154). -/
def decodeValues (T : Table) (q : Secondary) (vals : List Nat) (litOk : Bool) : DecodeResult :=
  match primaryByCode T q.parent with
  | none => .illegalPrimary q.parent
  | some p => .decoded (decodedRecord p q (fieldsOfValues q.layout vals) litOk)

end Sys2Proof.Machine

namespace Sys2Proof

open Machine

/-- The text of the families and keys the opcode table names (R57, R64). -/
def textLD : Str := ['L', 'D']

/-- "ADD". -/
def textADD : Str := ['A', 'D', 'D']

/-- "SUB". -/
def textSUB : Str := ['S', 'U', 'B']

/-- "AND". -/
def textAND : Str := ['A', 'N', 'D']

/-- "DIV". -/
def textDIV : Str := ['D', 'I', 'V']

/-- "ADD r,n" (R57; the document's "r,nnn" is a slip, 90_conflicts C1). -/
def keyADDrn : Str := ['A', 'D', 'D', ' ', 'r', ',', 'n']

/-- "ADD r,r" (R57). -/
def keyADDrr : Str := ['A', 'D', 'D', ' ', 'r', ',', 'r']

/-- The one complete layout of the source (R57): `oooooooo uuuAAAAA BBBBBBBB`. -/
def layoutADDrn : BitLayout :=
  [List.replicate 8 .op,
   List.replicate 3 .dontCare ++ List.replicate 5 (.field (letterOf 0)),
   List.replicate 8 (.field (letterOf 1))]

/-- Why a byte list is no instruction: the verdicts of R154 that are not instructions. -/
inductive Reject where
  | illegalPrimary (P : Byte)
  | illegalSecondary (P raw : Byte)
  | truncated (need : Nat)
deriving DecidableEq, Repr

/-- The row of a primary without secondary operators: byte 0 is NOP (R55), the named families have rows of
their own, any other is the general row. -/
def familyInstr (p : Primary) : Instr :=
  if p.opcode = Config.nopOpcode then .nop
  else if p.mnemonic = textLD then .ld
  else if p.mnemonic = textADD then .add
  else if p.mnemonic = textSUB then .sub
  else if p.mnemonic = textAND then .and
  else if p.mnemonic = textDIV then .div
  else .primaryOnly p.mnemonic

/-- The row of a secondary operator with its operand values (log 14): the two the table names, else the
general row. -/
def operatorInstr (q : Secondary) (vals : List Nat) (litOk : Bool) : Instr :=
  match vals with
  | [a, b] =>
    if q.key = keyADDrn ∧ q.layout = layoutADDrn ∧ litOk = true ∧ a < 32 ∧ b < 256 then
      .addRN (BitVec.ofNat 5 a) (BitVec.ofNat 8 b)
    else if q.key = keyADDrr ∧ a < 32 ∧ b < 32 then .addRR (BitVec.ofNat 5 a) (BitVec.ofNat 5 b) litOk
    else .secondary q.key vals litOk
  | _ => .secondary q.key vals litOk

/-- The instruction a byte list begins with, by the table; every other byte list is rejected by name. -/
def decode (T : Table) (ib : List Byte) : Except Reject Instr :=
  match decodeInstr T ib with
  | .decoded d => .ok (operatorInstr d.op (d.fields.map FieldValue.value) d.literalsOk)
  | .primaryOnly p => .ok (familyInstr p)
  | .illegalPrimary P => .error (.illegalPrimary P)
  | .illegalSecondary P raw => .error (.illegalSecondary P raw)
  | .truncated need => .error (.truncated need)

/-- The one-byte encoding of a family: its primary opcode (R52). -/
def encodeFamily (T : Table) (m : Str) : Option (List Byte) := (primaryByMnemonic T m).map fun p => [p.opcode]

/-- The bytes of the operator registered under a key (R52, R158). -/
def encodeOperator (T : Table) (key : Str) (vals : List Nat) : Option (List Byte) :=
  match secondaryByKey T key with
  | some q => encodeInstr q vals
  | none => none

/-- The bytes of an instruction, by the table. The operations of the block have no bit pattern
(spec/opcode_table.json: "encoding": "none"). -/
def encode (T : Table) : Instr → Option (List Byte)
  | .nop => some [Config.nopOpcode]
  | .ld => encodeFamily T textLD
  | .add => encodeFamily T textADD
  | .sub => encodeFamily T textSUB
  | .and => encodeFamily T textAND
  | .div => encodeFamily T textDIV
  | .addRN a b => encodeOperator T keyADDrn [a.toNat, b.toNat]
  | .addRR a b _ => encodeOperator T keyADDrr [a.toNat, b.toNat]
  | .secondary key vals _ => encodeOperator T key vals
  | .primaryOnly m => encodeFamily T m
  | .resolve _ | .groupOf _ | .resolveFloat _ | .isSpecialRegister _ | .nameOf _ | .parseShape _
  | .printShape _ | .template _ | .wfLayout _ | .compileLayout _ _ | .packCompile _ _ | .catalogLookup _
  | .registerPrimary _ _ _ _ | .registerSecondary _ _ _ _ | .primaryOpcodeOf _ | .formatOf _ | .matchShape _ _
  | .secondariesOf _ | .primaryByCode _ | .primaryByMnemonic _ | .fieldPositions _ _ | .hdr _ | .matchesRaw _ _
  | .decodeSecondary _ _ | .extractField _ _ _ | .splitIndirect _ _ _ | .decodeInstr _ | .encodeInstr _ _
  | .consistent _ | .startup _ | .freeze => none

/-- The NOP primary with the one opcode number the spec gives (R55); title and description are opaque and
empty here (log 4). -/
def nopPrimary : Primary where
  mnemonic := ['N', 'O', 'P']
  opcode := Config.nopOpcode
  title := []
  description := []

/-- The table that knows only what the spec gives a number for: NOP = 0 (R55, R57; log 4). -/
def nopTable : Table where
  pt := [nopPrimary]
  st := []

/-- The bytes of a word of `nbits` bits: byte `j` is bits `8j+7..8j`, the first byte at the lowest address
(R31). At least one byte. -/
def bytesOfWord (nbits w : Nat) : List Byte :=
  (List.range (max 1 ((nbits + 7) / 8))).map fun j => BitVec.ofNat 8 (w >>> (8 * j))

/-- The instruction the decoder reads from a word, with the table that knows only NOP (log 4). -/
def decodeTableWord (nbits w : Nat) : Option Instr :=
  match decode nopTable (bytesOfWord nbits w ++ List.replicate (portBytes nopTable) 0) with
  | .ok i => some i
  | .error _ => none

end Sys2Proof
end

