-- ==== Sys2Proof/Machine/SelfTest.lean ====
section
/-! DEFINITION. The consistency of a table (45_decode R160 to R163), the freeze self-test's report (60_exceptions R175)
and the offline checks (42_layout_compiler R109, 43_addressing_catalog R116). -/

namespace Sys2Proof.Machine

/-- Two operators of one parent that can match the same raw byte (R160). -/
def clashAt (q1 q2 : Secondary) (raw : Byte) : Bool :=
  q1.parent == q2.parent && matchesRaw q1 raw && matchesRaw q2 raw

/-- `chk_layout_wf` for one entry (R48, R163). -/
def entryLayoutWf (q : Secondary) : Bool := wfLayout q.layout

/-- `chk_subcode_fits` for one entry (R121, R163). -/
def entrySubcodeFits (q : Secondary) : Bool := decide (q.amid < 2 ^ (hdr q.layout).1)

/-- `chk_parent_registered` for one entry (R163). -/
def entryParentRegistered (T : Table) (q : Secondary) : Bool := (primaryByCode T q.parent).isSome

/-- `chk_key_mnemonic` for one entry (R163): the key's mnemonic is that of the primary with opcode `q.parent`. -/
def entryKeyMnemonic (T : Table) (q : Secondary) : Bool :=
  match primaryByCode T q.parent with
  | some p => mnemOf q.key == p.mnemonic
  | none => false

/-- `chk_shape_parses` for one entry (R163). -/
def entryShapeParses (q : Secondary) : Bool := (parseShape (sigOf q.key)).isSome

/-- `chk_field_widths` for one entry (R163): the layout's letters are exactly those of the operands, and each has
the `fieldBits` of its operand. -/
def entryFieldWidths (q : Secondary) : Bool :=
  match parseShape (sigOf q.key) with
  | some shapes =>
    lettersOf q.layout == (List.range shapes.length).map letterOf && fieldBitsAgree q.layout 0 shapes
  | none => false

/-- One check of R163 on a table. -/
def check (T : Table) : Check → Bool
  | .layoutWf => T.st.all entryLayoutWf
  | .subcodeFits => T.st.all entrySubcodeFits
  | .disjoint =>
    T.st.all fun q1 => T.st.all fun q2 => q1 == q2 || allBytes.all fun raw => !clashAt q1 q2 raw
  | .primaryOpcodeUnique => decide (T.pt.map Primary.opcode).Nodup
  | .parentRegistered => T.st.all (entryParentRegistered T)
  | .keyMnemonic => T.st.all (entryKeyMnemonic T)
  | .shapeParses => T.st.all entryShapeParses
  | .fieldWidths => T.st.all entryFieldWidths

/-- The checks in the order of R163's table. -/
def checkOrder : List Check :=
  [.layoutWf, .subcodeFits, .disjoint, .primaryOpcodeUnique, .parentRegistered, .keyMnemonic, .shapeParses, .fieldWidths]

/-- `Consistent(T)` (R163). -/
def consistent (T : Table) : Bool := checkOrder.all (check T)

/-- The first pair in registration order, ordered by `q1` then `q2`, that can match one raw byte, with the
smallest such byte (R175). -/
def firstClash : List Secondary → Option Witness
  | [] => none
  | q1 :: qs =>
    match qs.findSome? (fun q2 =>
        if q1 = q2 then none else (allBytes.find? (clashAt q1 q2)).map fun raw => Witness.pair q1 q2 raw) with
    | some w => some w
    | none => firstClash qs

/-- The first primary in registration order that shares its opcode with another entry (R175; log 15). -/
def firstSharedOpcode : List Primary → Option Witness
  | [] => none
  | p :: ps => if ps.any (·.opcode == p.opcode) then some (.primary p) else firstSharedOpcode ps

/-- The first secondary in registration order that fails an entry's check (R175). -/
def firstOffender (ok : Secondary → Bool) (st : List Secondary) : Option Witness :=
  (st.find? fun q => !ok q).map .secondary

/-- The witness of a failed check, `none` when it holds (R175). -/
def offender (T : Table) : Check → Option Witness
  | .layoutWf => firstOffender entryLayoutWf T.st
  | .subcodeFits => firstOffender entrySubcodeFits T.st
  | .disjoint => firstClash T.st
  | .primaryOpcodeUnique => firstSharedOpcode T.pt
  | .parentRegistered => firstOffender (entryParentRegistered T) T.st
  | .keyMnemonic => firstOffender (entryKeyMnemonic T) T.st
  | .shapeParses => firstOffender entryShapeParses T.st
  | .fieldWidths => firstOffender entryFieldWidths T.st

/-- The first failing check in R163's order with its witness (R175, R176); `none` for a consistent table. -/
def selfTest (T : Table) : Option (Check × Witness) :=
  checkOrder.findSome? fun c => (offender T c).map fun w => (c, w)

/-- R109 for one entry and a `PACK_COMPILE`: its signature parses, and its shapes compile under its own header, the first
`k + l` tags of byte 0, to its layout. -/
def entryRoundtripWith (pack : List Tag → List OperandShape → Option BitLayout) (q : Secondary) : Bool :=
  match parseShape (sigOf q.key) with
  | some shapes => compileLayoutWith pack ((q.layout.headD []).take (subOpBits q.layout)) shapes == some q.layout
  | none => false

/-- `chk_roundtrip` for one entry: "applied to an operator with a partial header only when `PACK_COMPILE` is supplied" (R163),
so without one such an operator, whatever its signature, does not fail it. -/
def entryRoundtrip (pack : Option (List Tag → List OperandShape → Option BitLayout)) (q : Secondary) : Bool :=
  match pack with
  | some f => entryRoundtripWith f q
  | none => subOpBits q.layout != 8 || entryRoundtripWith (fun _ _ => none) q

/-- `chk_roundtrip` (R109, R163): an offline property. -/
def chkRoundtrip (pack : Option (List Tag → List OperandShape → Option BitLayout)) (T : Table) : Bool :=
  T.st.all (entryRoundtrip pack)

/-- `chk_catalog_agrees` (R163): an offline property. -/
def chkCatalogAgrees (cat : Catalog) (T : Table) : Bool :=
  T.st.all fun q => catalogFind cat (sigOf q.key) == some q.amid

/-- `skeleton` (R116): byte 0's opcode and literal tags replaced by a placeholder, every other tag kept. -/
def skeleton : BitLayout → List (List (Option Tag))
  | [] => []
  | t :: L => t.map (fun x => if isOpTag x || isLitTag x then none else some x) :: L.map (List.map some)

/-- `chk_catalog_stable` (R116, R163): operators with one id have one skeleton and the same signature or
aliases. -/
def chkCatalogStable (pack : List Tag → List OperandShape → Option BitLayout) (T : Table) : Bool :=
  T.st.all fun p => T.st.all fun q =>
    p.amid != q.amid || (skeleton p.layout == skeleton q.layout &&
      (sigOf p.key == sigOf q.key || aliasAllowed pack (sigOf p.key) (sigOf q.key)))

/-- Every duplicate of a registration sequence, by the error its call would raise (R137: a function that lists all
duplicates and changes nothing). -/
def duplicatesIn : List RegCall → List Str → List Str → List RegistrationError
  | [], _, _ => []
  | .primary m _ _ _ :: cs, ms, ks =>
    if ms.contains m then .duplicatePrimaryMnemonic m :: duplicatesIn cs ms ks else duplicatesIn cs (m :: ms) ks
  | .secondary k _ _ _ :: cs, ms, ks =>
    if ks.contains k then .duplicateSecondaryKey k :: duplicatesIn cs ms ks else duplicatesIn cs ms (k :: ks)

end Sys2Proof.Machine
end

