-- ==== Sys2Proof/Machine/Ops.lean ====
section
/-! DEFINITION. The named operations over the state: raising a fatal error (60_exceptions R177), answering, the phase
conditions (44_operator_registry R125), registration (R126, R128), freeze and start-up (70_reset R191, R193), and the
presentation of bytes (20_memory R31). There is no return from an exception (R178). -/

namespace Sys2Proof.Machine

/-- What an operation gives: the next state, or a stop. -/
abbrev Answer := Host.Outcome State Fault Refusal

/-- The table `T = (PT, ST)` (R6). -/
def State.table (s : State) : Table where
  pt := s.pt
  st := s.st

/-- TAKING AN EXCEPTION: "`raise E(info)` does exactly this: `err <- Some(E(info))`; `phase <- FAILED`" (R177). -/
def State.raise (s : State) (e : RegistrationError) : State := { s with err := some e, phase := .failed }

/-- The cause code of an error (R171): "the names and ordinal numbers are the spec's". -/
def errorCode : RegistrationError → Nat
  | .duplicatePrimaryMnemonic _ => 1
  | .duplicateSecondaryKey _ => 2
  | .malformedLayout _ => 3
  | .selfTestFailed _ _ => 4

/-- Put a result on the output port (R8 "return v", R166; log 1). -/
def State.answer (s : State) (r : Result) : State := { s with out := r }

/-- Append a primary (R126). -/
def State.addPrimary (s : State) (p : Primary) : State := { s with pt := s.pt ++ [p] }

/-- Append a secondary (R128). -/
def State.addSecondary (s : State) (q : Secondary) : State := { s with st := s.st ++ [q] }

/-- `phase <- FROZEN` (R193). -/
def State.enterFrozen (s : State) : State := { s with phase := .frozen }

/-- The sequencer's place after a call has been taken (R191). -/
def State.withSeq (s : State) (cs : List RegCall) : State := { s with seq := some cs }

/-- The consumers' queue after a call has been taken (log 2). -/
def State.withCalls (s : State) (is : List Instr) : State := { s with calls := is }

/-- Bytes presented at the input port (R30, R166). -/
def State.present (s : State) (ib : List Byte) : State := { s with ib := ib }

/-- The calls of `REGSEQ` still to perform (R191; log 3). -/
def State.remaining (s : State) : List RegCall := s.seq.getD Config.regSeq

/-- `require phase = REGISTERING` (R125). -/
def whileRegistering (s s' : State) : Answer :=
  if s.phase = .registering then .next s' else .refused (.wrongPhase .registering s.phase)

/-- `require phase = FROZEN` (R125). -/
def whileFrozen (s s' : State) : Answer :=
  if s.phase = .frozen then .next s' else .refused (.wrongPhase .frozen s.phase)

/-- The constant functions of 30 and 40 to 43: the same before and after the freeze, without a result in `FAILED`
only (R24, R178; log 5). -/
def whileLive (s s' : State) : Answer :=
  if s.phase = .failed then .refused (.wrongPhase .live s.phase) else .next s'

/-- The effect of `registerPrimary` (R126, R172). -/
def State.registerPrimary (s : State) (m : Str) (opcode : Byte) (title description : Str) : State :=
  if s.pt.any (·.mnemonic == m) then s.raise (.duplicatePrimaryMnemonic m)
  else s.addPrimary { mnemonic := m, opcode := opcode, title := title, description := description }

/-- The effect of `registerSecondary` (R128, R173, R174): the duplicate test comes first. -/
def State.registerSecondary (s : State) (key : Str) (parent : Byte) (layout : Str) (amid : AddressingModeId) : State :=
  if s.st.any (·.key == key) then s.raise (.duplicateSecondaryKey key)
  else
    match parseTemplate layout with
    | none => s.raise (.malformedLayout key)
    | some L => s.addSecondary { key := key, parent := parent, amid := amid, layout := L }

/-- The effect of one call of `REGSEQ` (R191). -/
def State.perform (s : State) : RegCall → State
  | .primary m p t d => s.registerPrimary m p t d
  | .secondary k p l a => s.registerSecondary k p l a

/-- The effect of `freeze` (R193): the self-test decides (R175). -/
def State.freezeTable (s : State) : State :=
  match selfTest s.table with
  | none => s.enterFrozen
  | some (c, w) => s.raise (.selfTestFailed c w)

/-- `startup(REGSEQ)` (R191): the calls in order, stopping at the first failure, then the freeze. -/
def runStartup : List RegCall → State → State
  | [], s => (s.withSeq []).freezeTable
  | c :: cs, s =>
    if ((s.withSeq cs).perform c).phase = .failed then (s.withSeq cs).perform c
    else runStartup cs ((s.withSeq cs).perform c)

/-- The instruction the block runs on the bytes at its input port: the decoded one, or, where they begin no
instruction, the decode itself with its verdict (R154, R180). -/
def fetchInstr (s : State) : Instr :=
  match decode s.table s.ib with
  | .ok i => i
  | .error _ => .decodeInstr s.ib

/-- `MemRead(addr, 1)` of a platform's memory (R8, R31): a list of cells; `none` where it has no byte. The block holds
no memory (R35; log 21). -/
def memRead (m : List Host.Cell) (a : Nat) : Option Byte := (m.find? fun c => c.1 == a).map Prod.snd

/-- Fetch (R31): up to `n` bytes at ascending addresses from `a`, any `a` (R34), ending where the platform has no byte. -/
def fetchBytes (m : List Host.Cell) (a : Nat) : Nat → List Byte
  | 0 => []
  | n + 1 =>
    match memRead m a with
    | some b => b :: fetchBytes m (a + 1) n
    | none => []

/-- The block ready to decode at the very next step (log 4): as it is when already frozen; otherwise frozen with
the table that knows only NOP, the one opcode the spec numbers (R55). -/
def State.armed (s : State) : State :=
  if s.phase = .frozen then s
  else { s with phase := .frozen, pt := nopTable.pt, st := nopTable.st, err := none, seq := some [] }

/-- A word presented to a ready block: its bytes at the input port, zeros after them up to the longest instruction,
and no call waiting (log 4). -/
def State.presentWord (s : State) (nbits w : Nat) : State :=
  (s.armed.withCalls []).present
    (bytesOfWord nbits w ++ List.replicate (portBytes s.armed.table) 0)

/-- The `kind` output of the decoder (R166). -/
inductive Kind where
  | decoded
  | primaryOnly
  | illegalPrimary
  | illegalSecondary
  | truncated
deriving DecidableEq, Repr

/-- The decoder's outputs as R166 lists them: indices into the tables, the length, the fields, `literalsOk`, and
`inRange[...]`, one list for each typed operand in order (log 27). -/
structure OutPorts where
  kind : Kind
  primarySel : Option Nat
  opSel : Option Nat
  len : Option Nat
  fields : List FieldValue
  literalsOk : Option Bool
  inRange : List (List Bool)
deriving DecidableEq, Repr

/-- The `inRange` flag of a base, when it is a register (R153). -/
def baseInRange : DecodedBase → List Bool
  | .addr _ _ => []
  | .reg _ _ ok => [ok]

/-- The `inRange` flag of a displacement, when it is a register (R153). -/
def dispInRange : DecodedDisp → List Bool
  | .none => []
  | .imm _ _ => []
  | .reg _ _ ok => [ok]

/-- The `inRange` flags of an operand's register fields, the base before the displacement (R153, R105). -/
def operandInRange : DecodedOperand → List Bool
  | .reg _ _ ok => [ok]
  | .freg _ => []
  | .imm _ _ => []
  | .mem b d => baseInRange b ++ dispInRange d

/-- The index of the operator a consumer reads at `op_sel` (R166). -/
def opIndex (T : Table) (q : Secondary) : Nat := T.st.idxOf q

/-- The matcher's port: "a second combinational lookup `(mnemonic, shapes) -> op_sel`" (R166, R132). -/
def matcherPort (T : Table) (m : Str) (shapes : List OperandShape) : Option Nat :=
  (matchShape T m shapes).map (opIndex T)

/-- The outputs of a verdict that names no entry: nothing but its kind. R166 does not say what the other outputs hold then,
nor `primary_sel` where the family was found but the verdict's record does not carry it; that they hold nothing is the
model's choice (DESIGN CHOICE, log 27). -/
def kindOnly (k : Kind) : OutPorts where
  kind := k
  primarySel := none
  opSel := none
  len := none
  fields := []
  literalsOk := none
  inRange := []

/-- A verdict on the output ports: what the record of R154 carries (R166; the outputs it does not carry: log 27). -/
def portsOf (T : Table) : DecodeResult → OutPorts
  | .decoded d =>
    { kind := .decoded, primarySel := some (T.pt.idxOf d.primary), opSel := some (opIndex T d.op), len := some d.len,
      fields := d.fields, literalsOk := some d.literalsOk, inRange := (d.operands.getD []).map operandInRange }
  | .primaryOnly p => { kindOnly .primaryOnly with primarySel := some (T.pt.idxOf p), len := some 1 }
  | .illegalPrimary _ => kindOnly .illegalPrimary
  | .illegalSecondary _ _ => kindOnly .illegalSecondary
  | .truncated _ => kindOnly .truncated

end Sys2Proof.Machine
end

