-- ==== Sys2Proof/Machine/DecodeFamily.lean ====
section
/-! DEFINITION. The meanings of the operations of 45_decode_matching. -/

namespace Sys2Proof.Machine

/-- `hdr` (R145). -/
def execHdr (L : BitLayout) (s : State) : Answer :=
  whileFrozen s (s.answer (.hdr (hdr L).1 (hdr L).2.1 (hdr L).2.2))

/-- `matches` (R147). -/
def execMatchesRaw (q : Secondary) (raw : Byte) (s : State) : Answer :=
  whileFrozen s (s.answer (.bool (matchesRaw q raw)))

/-- `decodeSecondary` (R149). -/
def execDecodeSecondary (parent raw : Byte) (s : State) : Answer :=
  whileFrozen s (s.answer (.secondary (decodeSecondary s.table parent raw)))

/-- `extractField` (R151). -/
def execExtractField (L : BitLayout) (lb : List Byte) (X : Letter) (s : State) : Answer :=
  whileFrozen s (s.answer (.field (extractField L (padBytes L.length lb) X).1 (extractField L (padBytes L.length lb) X).2))

/-- `splitIndirect` (R152). -/
def execSplitIndirect (b : Inner) (d : Disp) (v : Nat) (s : State) : Answer :=
  whileFrozen s (s.answer (.split (splitIndirect b d v).1 (splitIndirect b d v).2))

/-- `decodeInstr` (R154). -/
def execDecodeInstr (ib : List Byte) (s : State) : Answer :=
  whileFrozen s (s.answer (.decode (decodeInstr s.table ib)))

/-- `encodeInstr` (R158). -/
def execEncodeInstr (q : Secondary) (vals : List Nat) (s : State) : Answer :=
  whileFrozen s (s.answer (.bytes (encodeInstr q vals)))

/-- `Consistent` (R163). -/
def execConsistent (T : Table) (s : State) : Answer := whileFrozen s (s.answer (.bool (consistent T)))

end Sys2Proof.Machine
end

