-- ==== Sys2Proof/Machine/InstructionRows.lean ====
section
/-! DEFINITION. The meanings of the rows that name encodings. What such an instruction does to registers or memory is out
of scope (00_scope R4); in this block its effect is its decoded record on the output port (R154; log 13). -/

namespace Sys2Proof.Machine

/-- The verdict on the primary opcode byte of the family `m` (R154); `none` where no such family is registered
(R135). -/
def familyResult (T : Table) (m : Str) : Result :=
  match primaryByMnemonic T m with
  | none => .primary none
  | some p => .decode (decodeInstr T [p.opcode])

/-- The record of the operator registered under `key` with the given operand values (R154, R158); `none` where no such
operator is registered, or where its fields cannot hold the values. -/
def operatorResult (T : Table) (key : Str) (vals : List Nat) (litOk : Bool) : Result :=
  match secondaryByKey T key with
  | none => .secondary none
  | some q =>
    match encodeInstr q vals with
    | none => .bytes none
    | some _ => .decode (decodeValues T q vals litOk)

/-- NOP (R55): the verdict on the byte 0x00. -/
def execNop (s : State) : Answer :=
  whileFrozen s (s.answer (.decode (decodeInstr s.table [Config.nopOpcode])))

/-- LD (R55, R57). -/
def execLd (s : State) : Answer := whileFrozen s (s.answer (familyResult s.table textLD))

/-- ADD (R55, R57). -/
def execAdd (s : State) : Answer := whileFrozen s (s.answer (familyResult s.table textADD))

/-- SUB (R55, R57). -/
def execSub (s : State) : Answer := whileFrozen s (s.answer (familyResult s.table textSUB))

/-- AND (R55, R57). -/
def execAnd (s : State) : Answer := whileFrozen s (s.answer (familyResult s.table textAND))

/-- DIV (R55, R57). -/
def execDiv (s : State) : Answer := whileFrozen s (s.answer (familyResult s.table textDIV))

/-- ADD r,n (R57, R154). -/
def execAddRN (a : BitVec 5) (b : Byte) (s : State) : Answer :=
  whileFrozen s (s.answer (operatorResult s.table keyADDrn [a.toNat, b.toNat] true))

/-- ADD r,r (R57, R154). -/
def execAddRR (a b : BitVec 5) (litOk : Bool) (s : State) : Answer :=
  whileFrozen s (s.answer (operatorResult s.table keyADDrr [a.toNat, b.toNat] litOk))

/-- Any registered secondary operator (R154). -/
def execSecondary (key : Str) (vals : List Nat) (litOk : Bool) (s : State) : Answer :=
  whileFrozen s (s.answer (operatorResult s.table key vals litOk))

/-- Any registered primary with no secondary operator (R154, D15). -/
def execPrimaryOnly (m : Str) (s : State) : Answer := whileFrozen s (s.answer (familyResult s.table m))

end Sys2Proof.Machine
end

