-- ==== Sys2Proof/Machine/LayoutFamily.lean ====
section
/-! DEFINITION. The meanings of the template and layout operations (30_encoding R47, R48) and of the Bit Layout Compiler
and the catalog (42_layout_compiler, 43_addressing_catalog). -/

namespace Sys2Proof.Machine

/-- `parseTemplate / printTemplate` (R47). -/
def execTemplate (request : TemplateRequest) (s : State) : Answer :=
  match request with
  | .parse t => whileLive s (s.answer (.layout (parseTemplate t)))
  | .print L => whileLive s (s.answer (.text (printTemplate L)))

/-- `wfLayout` (R48). -/
def execWfLayout (L : BitLayout) (s : State) : Answer := whileLive s (s.answer (.bool (wfLayout L)))

/-- `compileLayout` (R101). -/
def execCompileLayout (H : List Tag) (shapes : List OperandShape) (s : State) : Answer :=
  whileLive s (s.answer (.layout (compileLayout H shapes)))

/-- `PACK_COMPILE` (R108). -/
def execPackCompile (H : List Tag) (shapes : List OperandShape) (s : State) : Answer :=
  whileLive s (s.answer (.layout (packCompile H shapes)))

/-- `catalogLookup` (R115). -/
def execCatalogLookup (sig : Str) (s : State) : Answer := whileLive s (s.answer (.modeId (catalogLookup sig)))

end Sys2Proof.Machine
end

