-- ==== Sys2Proof/Machine/NameFamily.lean ====
section
/-! DEFINITION. The meanings of the Register Namespace operations (40_register_namespace). -/

namespace Sys2Proof.Machine

/-- `resolve` (R70). -/
def execResolve (name : Str) (s : State) : Answer := whileLive s (s.answer (.index (resolve name)))

/-- `groupOf` (R71). -/
def execGroupOf (name : Str) (s : State) : Answer := whileLive s (s.answer (.group (groupOf name)))

/-- `resolveFloat` (R72). -/
def execResolveFloat (name : Str) (s : State) : Answer := whileLive s (s.answer (.index (resolveFloat name)))

/-- `isSpecialRegister` (R73). -/
def execIsSpecialRegister (name : Str) (s : State) : Answer :=
  whileLive s (s.answer (.bool (isSpecialRegister name)))

/-- `nameOfGroup / nameOfFloat` (R74). -/
def execNameOf (request : NameRequest) (s : State) : Answer :=
  match request with
  | .group i w => whileLive s (s.answer (.name (nameOfGroup i w)))
  | .float i => whileLive s (s.answer (.name (some (nameOfFloat i))))

end Sys2Proof.Machine
end

