-- ==== Sys2Proof/Machine/RegistryFamily.lean ====
section
/-! DEFINITION. The meanings of registration and forward lookup (44_operator_registry). -/

namespace Sys2Proof.Machine

/-- `registerPrimary` (R126). -/
def execRegisterPrimary (m : Str) (opcode : Byte) (title description : Str) (s : State) : Answer :=
  whileRegistering s (s.registerPrimary m opcode title description)

/-- `registerSecondary` (R128). -/
def execRegisterSecondary (key : Str) (parent : Byte) (layout : Str) (amid : AddressingModeId) (s : State) : Answer :=
  whileRegistering s (s.registerSecondary key parent layout amid)

/-- `primaryOpcodeOf` (R130). -/
def execPrimaryOpcodeOf (m : Str) (s : State) : Answer :=
  whileFrozen s (s.answer (.opcode (primaryOpcodeOf s.table m)))

/-- `formatOf` (R131). -/
def execFormatOf (key : Str) (s : State) : Answer := whileFrozen s (s.answer (.layout (formatOf s.table key)))

/-- `matchShape` (R132). -/
def execMatchShape (m : Str) (shapes : List OperandShape) (s : State) : Answer :=
  whileFrozen s (s.answer (.secondary (matchShape s.table m shapes)))

/-- `secondariesOf` (R133). -/
def execSecondariesOf (parent : Byte) (s : State) : Answer :=
  whileFrozen s (s.answer (.secondaries (secondariesOf s.table parent)))

/-- `primaryByCode` (R134). -/
def execPrimaryByCode (code : Byte) (s : State) : Answer :=
  whileFrozen s (s.answer (.primary (primaryByCode s.table code)))

/-- `primaryByMnemonic` (R135). -/
def execPrimaryByMnemonic (m : Str) (s : State) : Answer :=
  whileFrozen s (s.answer (.primary (primaryByMnemonic s.table m)))

/-- `fieldPositions` (R138). -/
def execFieldPositions (L : BitLayout) (X : Letter) (s : State) : Answer :=
  whileFrozen s (s.answer (.positions (fieldPositions L X)))

end Sys2Proof.Machine
end

