-- ==== Sys2Proof/Machine/ShapeFamily.lean ====
section
/-! DEFINITION. The meanings of the Operand Shape Grammar operations (41_shape_grammar). -/

namespace Sys2Proof.Machine

/-- `parseShape` (R87). -/
def execParseShape (sig : Str) (s : State) : Answer := whileLive s (s.answer (.shapes (parseShape sig)))

/-- `printShape` (R89). -/
def execPrintShape (shapes : List OperandShape) (s : State) : Answer :=
  whileLive s (s.answer (.text (printShape shapes)))

end Sys2Proof.Machine
end

