-- ==== Sys2Proof/Machine/StartupFamily.lean ====
section
/-! DEFINITION. The meanings of start-up and freeze (70_reset_and_hazards). -/

namespace Sys2Proof.Machine

/-- `startup` (R191): the whole sequence and the freeze as one operation (log 20). -/
def execStartup (calls : List RegCall) (s : State) : Answer := whileRegistering s (runStartup calls s)

/-- `freeze` (R193). -/
def execFreeze (s : State) : Answer := whileRegistering s s.freezeTable

end Sys2Proof.Machine
end

