-- ==== Sys2Proof/Machine/Dispatch.lean ====
section
/-! DEFINITION. One arm per instruction, in the order of spec/opcode_table.json. -/

namespace Sys2Proof.Machine

def exec (i : Instr) (s : State) : Host.Outcome State Fault Refusal :=
  match i with
  | .nop => Sys2Proof.Machine.execNop s
  | .ld => Sys2Proof.Machine.execLd s
  | .add => Sys2Proof.Machine.execAdd s
  | .sub => Sys2Proof.Machine.execSub s
  | .and => Sys2Proof.Machine.execAnd s
  | .div => Sys2Proof.Machine.execDiv s
  | .addRN a b => Sys2Proof.Machine.execAddRN a b s
  | .addRR a b lit => Sys2Proof.Machine.execAddRR a b lit s
  | .secondary key vals lit => Sys2Proof.Machine.execSecondary key vals lit s
  | .primaryOnly m => Sys2Proof.Machine.execPrimaryOnly m s
  | .resolve name => Sys2Proof.Machine.execResolve name s
  | .groupOf name => Sys2Proof.Machine.execGroupOf name s
  | .resolveFloat name => Sys2Proof.Machine.execResolveFloat name s
  | .isSpecialRegister name => Sys2Proof.Machine.execIsSpecialRegister name s
  | .nameOf req => Sys2Proof.Machine.execNameOf req s
  | .parseShape sig => Sys2Proof.Machine.execParseShape sig s
  | .printShape shapes => Sys2Proof.Machine.execPrintShape shapes s
  | .template req => Sys2Proof.Machine.execTemplate req s
  | .wfLayout L => Sys2Proof.Machine.execWfLayout L s
  | .compileLayout H shapes => Sys2Proof.Machine.execCompileLayout H shapes s
  | .packCompile H shapes => Sys2Proof.Machine.execPackCompile H shapes s
  | .catalogLookup sig => Sys2Proof.Machine.execCatalogLookup sig s
  | .registerPrimary m p t d => Sys2Proof.Machine.execRegisterPrimary m p t d s
  | .registerSecondary k p l n => Sys2Proof.Machine.execRegisterSecondary k p l n s
  | .primaryOpcodeOf m => Sys2Proof.Machine.execPrimaryOpcodeOf m s
  | .formatOf key => Sys2Proof.Machine.execFormatOf key s
  | .matchShape m shapes => Sys2Proof.Machine.execMatchShape m shapes s
  | .secondariesOf p => Sys2Proof.Machine.execSecondariesOf p s
  | .primaryByCode c => Sys2Proof.Machine.execPrimaryByCode c s
  | .primaryByMnemonic m => Sys2Proof.Machine.execPrimaryByMnemonic m s
  | .fieldPositions L X => Sys2Proof.Machine.execFieldPositions L X s
  | .hdr L => Sys2Proof.Machine.execHdr L s
  | .matchesRaw q raw => Sys2Proof.Machine.execMatchesRaw q raw s
  | .decodeSecondary p raw => Sys2Proof.Machine.execDecodeSecondary p raw s
  | .extractField L lb X => Sys2Proof.Machine.execExtractField L lb X s
  | .splitIndirect b d v => Sys2Proof.Machine.execSplitIndirect b d v s
  | .decodeInstr ib => Sys2Proof.Machine.execDecodeInstr ib s
  | .encodeInstr q vals => Sys2Proof.Machine.execEncodeInstr q vals s
  | .consistent T => Sys2Proof.Machine.execConsistent T s
  | .startup calls => Sys2Proof.Machine.execStartup calls s
  | .freeze => Sys2Proof.Machine.execFreeze s

end Sys2Proof.Machine
end

