-- ==== Sys2Proof/Machine/Step.lean ====
section
/-! DEFINITION. One step of the machine (log 2, log 16). -/

namespace Sys2Proof.Machine

/-- One step. `REGISTERING`: the start-up sequencer performs its next call, or freezes (R36, R191, R205).
`FROZEN`: the oldest waiting call is answered; with none waiting, the decoder answers on the bytes at its
input port (R166). `FAILED`: nothing runs (R178). -/
def step (s : State) : Host.Outcome State Fault Refusal :=
  match s.phase with
  | .failed => .fault .blockFailed
  | .registering =>
    match s.remaining with
    | [] => exec .freeze (s.withSeq [])
    | c :: cs => exec c.instr (s.withSeq cs)
  | .frozen =>
    match s.calls with
    | [] => exec (fetchInstr s) s
    | i :: is => exec i (s.withCalls is)

/-- The state with a word where the next step fetches: at the input port of a ready block (log 4). -/
def State.withFetchWord (s : State) (nbits w : Nat) : State := s.presentWord nbits w

end Sys2Proof.Machine
end

