-- ==== Sys2Proof/WellFormed.lean ====
section
/-! DEFINITION. Well-formed instructions: what the spec asks of an operation's operands beyond their types
(`Instr.wf`), and which terms name an instruction of a given table (`Instr.wfIn`). -/

namespace Sys2Proof

open Machine

/-- "Strings are sequences of ASCII characters" (R7). -/
def asciiStr (s : Str) : Bool := s.all fun c => c.toNat < 128

/-- A family mnemonic: "The mnemonic contains no space" (R129). -/
def mnemonicOk (m : Str) : Bool := asciiStr m && !m.contains ' '

/-- `LayoutByte := 8 Tags` (R10). -/
def wholeBytes (L : BitLayout) : Bool := L.all fun t => t.length == 8

/-- A primary's strings. -/
def primaryOk (p : Primary) : Bool := mnemonicOk p.mnemonic && asciiStr p.title && asciiStr p.description

/-- A secondary's key and layout, the layout one that `hdr` is for (R145). -/
def secondaryOk (q : Secondary) : Bool := asciiStr q.key && wholeBytes q.layout && hdrDomain q.layout

/-- A registration call's strings. -/
def RegCall.wf : RegCall → Bool
  | .primary m _ t d => mnemonicOk m && asciiStr t && asciiStr d
  | .secondary k _ l _ => asciiStr k && asciiStr l

/-- An instruction whose operands are of the kind its rule names. -/
def Instr.wf : Instr → Bool
  | .nop | .ld | .add | .sub | .and | .div | .addRN _ _ | .addRR _ _ _ => true
  | .secondary key vals _ => asciiStr key && decide (vals.length ≤ Config.maxOperands)
  | .primaryOnly m => mnemonicOk m
  | .resolve name => asciiStr name
  | .groupOf name => asciiStr name
  | .resolveFloat name => asciiStr name
  | .isSpecialRegister name => asciiStr name
  | .nameOf _ => true
  | .parseShape sig => asciiStr sig
  | .printShape shapes => decide (shapes.length ≤ Config.maxOperands)
  | .template (.parse s) => asciiStr s
  | .template (.print L) => wholeBytes L
  | .wfLayout _ => true
  | .compileLayout _ _ => true
  | .packCompile H shapes => isHeader H && decide (shapes.length ≤ Config.maxOperands)
  | .catalogLookup sig => asciiStr sig
  | .registerPrimary m _ t d => mnemonicOk m && asciiStr t && asciiStr d
  | .registerSecondary k _ l _ => asciiStr k && asciiStr l
  | .primaryOpcodeOf m => asciiStr m
  | .formatOf key => asciiStr key
  | .matchShape m shapes => mnemonicOk m && decide (shapes.length ≤ Config.maxOperands)
  | .secondariesOf _ => true
  | .primaryByCode _ => true
  | .primaryByMnemonic m => asciiStr m
  | .fieldPositions L _ => wholeBytes L
  | .hdr L => wholeBytes L && hdrDomain L
  | .matchesRaw q _ => secondaryOk q
  | .decodeSecondary _ _ => true
  | .extractField L lb _ => wholeBytes L && decide (L.length ≤ lb.length)
  | .splitIndirect _ _ _ => true
  | .decodeInstr _ => true
  | .encodeInstr q _ => secondaryOk q && wfCheck q.layout .opOnlyInByte0
  | .consistent T => T.pt.all primaryOk && T.st.all fun q => asciiStr q.key && wholeBytes q.layout
  | .startup calls => calls.all RegCall.wf
  | .freeze => true

/-- A family that is registered under an opcode other than NOP's and has no secondary operator, so that its
primary byte alone is an instruction (R154). -/
def familyStands (T : Table) (m : Str) : Bool :=
  match primaryByMnemonic T m with
  | some p => p.opcode != Config.nopOpcode && (secondariesOf T p.opcode).isEmpty
  | none => false

/-- The mnemonics that have a row of their own (R57). -/
def namedFamily (m : Str) : Bool := m == textLD || m == textADD || m == textSUB || m == textAND || m == textDIV

/-- The operator registered under `key` takes these values, and the term `i` is the row for it. -/
def operatorStands (T : Table) (key : Str) (vals : List Nat) (i : Instr) : Bool :=
  match secondaryByKey T key with
  | some q => valuesFit q.layout vals && operatorInstr q vals true == i
  | none => false

/-- The term is the name of an instruction of the table `T`, in the canonical encoding (literal bits as
the layout has them). The operations of the block are no encodings. -/
def Instr.wfIn (T : Table) : Instr → Bool
  | .nop => (Machine.primaryByCode T Config.nopOpcode).isSome && (Machine.secondariesOf T Config.nopOpcode).isEmpty
  | .ld => familyStands T textLD
  | .add => familyStands T textADD
  | .sub => familyStands T textSUB
  | .and => familyStands T textAND
  | .div => familyStands T textDIV
  | .addRN a b => operatorStands T keyADDrn [a.toNat, b.toNat] (.addRN a b)
  | .addRR a b lit => operatorStands T keyADDrr [a.toNat, b.toNat] (.addRR a b lit)
  | .secondary key vals lit => operatorStands T key vals (.secondary key vals lit)
  | .primaryOnly m => familyStands T m && !namedFamily m
  | .resolve _ | .groupOf _ | .resolveFloat _ | .isSpecialRegister _ | .nameOf _ | .parseShape _
  | .printShape _ | .template _ | .wfLayout _ | .compileLayout _ _ | .packCompile _ _ | .catalogLookup _
  | .registerPrimary _ _ _ _ | .registerSecondary _ _ _ _ | .primaryOpcodeOf _ | .formatOf _ | .matchShape _ _
  | .secondariesOf _ | .primaryByCode _ | .primaryByMnemonic _ | .fieldPositions _ _ | .hdr _ | .matchesRaw _ _
  | .decodeSecondary _ _ | .extractField _ _ _ | .splitIndirect _ _ _ | .decodeInstr _ | .encodeInstr _ _
  | .consistent _ | .startup _ | .freeze => false

end Sys2Proof
end

