-- ==== Sys2Proof/Safety.lean ====
section
/-! DEFINITION. What counts as a good state and a safe run of the block, in the terms the claims use. -/

namespace Sys2Proof.Machine

/-- "Invariant kept by registration: no two entries have the same `mnemonic`" (R12). -/
abbrev State.mnemonicsUnique (s : State) : Prop := (s.pt.map Primary.mnemonic).Nodup

/-- "Invariant kept by registration: no two entries have the same `key`" (R13). -/
abbrev State.keysUnique (s : State) : Prop := (s.st.map Secondary.key).Nodup

/-- `ST` never holds an unparsed layout: at least one byte, 8 tags each (R45, R174). -/
abbrev State.layoutsParsed (s : State) : Prop :=
  ∀ q ∈ s.st, wfCheck q.layout .nonempty = true ∧ wfCheck q.layout .wholeBytes = true

/-- `err` is set exactly in `FAILED` (R11, R14, R177). -/
abbrev State.errMatchesPhase (s : State) : Prop := s.phase = .failed ↔ s.err ≠ none

/-- A frozen table has passed the self-test (R163, R193). -/
abbrev State.frozenConsistent (s : State) : Prop := s.phase = .frozen → consistent s.table = true

/-- The invariant of the block's state. -/
abbrev State.Inv (s : State) : Prop :=
  s.mnemonicsUnique ∧ s.keysUnique ∧ s.layoutsParsed ∧ s.errMatchesPhase ∧ s.frozenConsistent

/-- A good frozen state: "a claim about decoding takes `phase = FROZEN` as a premise" (R178). -/
abbrev State.ready (s : State) : Prop := s.phase = .frozen ∧ s.Inv

/-- Two states agree on the block's own state, whatever is at the ports (R21). -/
abbrev State.sameBlock (s t : State) : Prop :=
  s.phase = t.phase ∧ s.pt = t.pt ∧ s.st = t.st ∧ s.err = t.err

/-- A safe run: after `k` steps the block has a next state and has not failed (R178). -/
def safeRun (k : Nat) (s : State) : Prop :=
  match Sys2Proof.core.run k s with
  | .next t => t.phase ≠ .failed
  | .fault _ => False
  | .refused _ => False

end Sys2Proof.Machine
end

