-- ==== Sys2Proof/Certificates/Slice0/Obligations.lean ====
section
/-! DEFINITION. The statements for the provers. Where a statement names the field `out`, it is the model's output port for
the value an operation returns (R8 "return v", R166; log 1): the equation `exec i s = .next { s with out := … }` says the
result and, at once, that nothing else of the state changes. -/

open Sys2Proof Sys2Proof.Machine

/-! ### Reset, invariant, exception entry -/

/-- The block's own state is that of R27. -/
def Sys2Proof.atReset (s : State) : Prop := s.phase = .registering ∧ s.pt = [] ∧ s.st = [] ∧ s.err = none

/-- R190: the state after reset, and no operation and no step returns the block to it. -/
def Obligations.ResetStateIsNeverReturnedTo : Prop :=
  atReset State.reset ∧
    (∀ (i : Instr) (s t : State), exec i s = .next t → atReset t → atReset s) ∧
    (∀ s t : State, step s = .next t → atReset t → atReset s)

/-- The invariant holds at reset. -/
def Obligations.ResetMeetsInvariant : Prop := State.reset.Inv

/-- Every step and every operation, called in any phase, keeps the invariant: unique mnemonics and keys, parsed layouts, `err` set
exactly in `FAILED`, a frozen table consistent (R11 to R14, R174, R193). -/
def Obligations.StepKeepsInvariant : Prop :=
  (∀ s t : State, s.Inv → step s = .next t → t.Inv) ∧
  (∀ (i : Instr) (s t : State), s.Inv → exec i s = .next t → t.Inv)

/-- R177: raising writes `err` and `phase` and nothing else; a registration call or the freeze that ends in `FAILED` did
exactly that. -/
def Obligations.ExceptionEntryWritesErrAndPhase : Prop :=
  (∀ (s : State) (e : RegistrationError), s.raise e = { s with err := some e, phase := .failed }) ∧
    (∀ (c : RegCall) (s t : State), exec c.instr s = .next t → t.phase = .failed →
      ∃ e, t = { s with err := some e, phase := .failed }) ∧
    (∀ s t : State, exec .freeze s = .next t → t.phase = .failed → ∃ e, t = { s with err := some e, phase := .failed })

/-- R178: in `FAILED` no operation has a result, the step stops, and so `err` is never cleared. -/
def Obligations.FailedIsTerminal : Prop :=
  ∀ s : State, s.phase = .failed →
    (∀ i : Instr, ∃ need, exec i s = .refused (.wrongPhase need .failed)) ∧ step s = .fault .blockFailed

/-! ### Phases -/

/-- The operations of 44 and 45 that look up, and the instruction rows (R125; log 5). -/
def Sys2Proof.needsFrozen : Instr → Bool
  | .registerPrimary _ _ _ _ | .registerSecondary _ _ _ _ | .startup _ | .freeze => false
  | .resolve _ | .groupOf _ | .resolveFloat _ | .isSpecialRegister _ | .nameOf _ | .parseShape _ | .printShape _
  | .template _ | .wfLayout _ | .compileLayout _ _ | .packCompile _ _ | .catalogLookup _ => false
  | _ => true

/-- The operations that write the tables. -/
def Sys2Proof.needsRegistering : Instr → Bool
  | .registerPrimary _ _ _ _ | .registerSecondary _ _ _ _ | .startup _ | .freeze => true
  | _ => false

/-- R125 and R197, with the division of the operations of log 5: a lookup outside `FROZEN` and a registration, freeze or
start-up outside `REGISTERING` is refused; in its phase each has a next state. -/
def Obligations.WrongPhaseCallsAreRefused : Prop :=
  ∀ (i : Instr) (s : State),
    (needsFrozen i = true → s.phase ≠ .frozen → exec i s = .refused (.wrongPhase .frozen s.phase)) ∧
    (needsRegistering i = true → s.phase ≠ .registering →
      exec i s = .refused (.wrongPhase .registering s.phase)) ∧
    (needsFrozen i = true → s.phase = .frozen → ∃ r, exec i s = .next { s with out := r }) ∧
    (needsRegistering i = true → s.phase = .registering → ∃ t, exec i s = .next t)

/-- R26: nothing registered is ever changed or removed, and once frozen the tables, the phase and `err` stay. That the
sequencer's place and the bytes at the port stay as well is of the model's own fields (DESIGN CHOICE: log 3, log 16). -/
def Obligations.TablesOnlyGrowThenStay : Prop :=
  ∀ s t : State, step s = .next t →
    (s.pt <+: t.pt ∧ s.st <+: t.st) ∧
    (s.phase = .frozen → t.phase = .frozen ∧ t.pt = s.pt ∧ t.st = s.st ∧ t.err = s.err ∧ t.seq = s.seq ∧ t.ib = s.ib)

/-! ### Registration, freeze, start-up -/

/-- R172 with the other case of R126: a known mnemonic is fatal and leaves `PT`; otherwise exactly one entry is appended. -/
def Obligations.RegisterPrimaryAppendsOrRaises : Prop :=
  ∀ (s : State) (m : Str) (o : Byte) (ti d : Str), s.phase = .registering →
    ((∃ p ∈ s.pt, p.mnemonic = m) → exec (.registerPrimary m o ti d) s =
      .next { s with err := some (.duplicatePrimaryMnemonic m), phase := .failed }) ∧
    ((∀ p ∈ s.pt, p.mnemonic ≠ m) → exec (.registerPrimary m o ti d) s =
      .next { s with pt := s.pt ++ [{ mnemonic := m, opcode := o, title := ti, description := d }] })

/-- R173 and R174 with the other case of R128: a known key is fatal, before the layout is looked at; then a layout that does not
parse is fatal; otherwise exactly one entry is appended, whatever its id, parent and other entries are. -/
def Obligations.RegisterSecondaryAppendsOrRaises : Prop :=
  ∀ (s : State) (k : Str) (p : Byte) (l : Str) (n : AddressingModeId), s.phase = .registering →
    ((∃ q ∈ s.st, q.key = k) → exec (.registerSecondary k p l n) s =
      .next { s with err := some (.duplicateSecondaryKey k), phase := .failed }) ∧
    ((∀ q ∈ s.st, q.key ≠ k) → parseTemplate l = none → exec (.registerSecondary k p l n) s =
      .next { s with err := some (.malformedLayout k), phase := .failed }) ∧
    (∀ L, (∀ q ∈ s.st, q.key ≠ k) → parseTemplate l = some L → exec (.registerSecondary k p l n) s =
      .next { s with st := s.st ++ [{ key := k, parent := p, amid := n, layout := L }] })

/-- What each check of R163 that looks at one secondary asks of it; the two that look at pairs ask nothing here. -/
def Sys2Proof.entryHolds (T : Table) (q : Secondary) : Check → Prop
  | .layoutWf => wfLayout q.layout = true
  | .subcodeFits => q.amid < 2 ^ (hdr q.layout).1
  | .disjoint => True
  | .primaryOpcodeUnique => True
  | .parentRegistered => ∃ p ∈ T.pt, p.opcode = q.parent
  | .keyMnemonic => ∃ p ∈ T.pt, p.opcode = q.parent ∧ mnemOf q.key = p.mnemonic
  | .shapeParses => parseShape (sigOf q.key) ≠ none
  | .fieldWidths => ∃ shapes, parseShape (sigOf q.key) = some shapes ∧
      lettersOf q.layout = (List.range shapes.length).map letterOf ∧
      ∀ (i : Nat) (h : i < shapes.length), fieldCount q.layout (letterOf i) = fieldBits shapes[i]

/-- The primary at place `i` shares its opcode with another entry. -/
def Sys2Proof.sharesOpcode (pt : List Primary) (i : Nat) : Prop :=
  ∃ (p y : Primary) (j : Nat), pt[i]? = some p ∧ pt[j]? = some y ∧ j ≠ i ∧ y.opcode = p.opcode

/-- "the first offending entry in registration order" (R175), for the seven checks that name one entry; for a shared opcode
the first entry that shares it (log 15). -/
def Sys2Proof.firstOffends (T : Table) (w : Witness) (c : Check) : Prop :=
  (c = .primaryOpcodeUnique → ∃ (p : Primary) (i : Nat), w = .primary p ∧ T.pt[i]? = some p ∧ sharesOpcode T.pt i ∧
    ∀ j < i, ¬sharesOpcode T.pt j) ∧
  (c ≠ .disjoint → c ≠ .primaryOpcodeUnique → ∃ (q : Secondary) (before after : List Secondary),
    w = .secondary q ∧ T.st = before ++ q :: after ∧ ¬entryHolds T q c ∧ ∀ x ∈ before, entryHolds T x c)

/-- The freeze (R193) and what it reports (R175, R176): a consistent table enters `FROZEN` and nothing else changes; otherwise
the block fails with the first failing check in R163's order and that check's witness, the first offending entry of the
seven checks that name one (a shared opcode: log 15); the pair of `chk_disjoint` is `DisjointWitnessIsTheFirst`'s. -/
def Obligations.FreezeFollowsTheSelfTest : Prop :=
  ∀ s : State, s.phase = .registering →
    (consistent s.table = true → exec .freeze s = .next { s with phase := .frozen }) ∧
    (consistent s.table = false → ∃ (c : Check) (w : Witness) (before after : List Check),
      exec .freeze s = .next { s with err := some (.selfTestFailed c w), phase := .failed } ∧
      selfTest s.table = some (c, w) ∧
      checkOrder = before ++ c :: after ∧ check s.table c = false ∧ (∀ c' ∈ before, check s.table c' = true) ∧
      firstOffends s.table w c)

/-- R175's witness of `chk_disjoint`: the first clashing pair in registration order and the smallest raw byte both match. -/
def Obligations.DisjointWitnessIsTheFirst : Prop :=
  ∀ (T : Table) (w : Witness), selfTest T = some (.disjoint, w) →
    ∃ (q1 q2 : Secondary) (raw : Byte) (before between after : List Secondary), w = .pair q1 q2 raw ∧
      T.st = before ++ q1 :: between ++ q2 :: after ∧ q1 ≠ q2 ∧ q1.parent = q2.parent ∧
      matchesRaw q1 raw = true ∧ matchesRaw q2 raw = true ∧
      (∀ r : Byte, r < raw → ¬(matchesRaw q1 r = true ∧ matchesRaw q2 r = true)) ∧
      (∀ x ∈ before, ∀ y ∈ T.st, x ≠ y → x.parent = y.parent →
        ∀ r : Byte, ¬(matchesRaw x r = true ∧ matchesRaw y r = true)) ∧
      (∀ y ∈ between, q1 ≠ y → q1.parent = y.parent →
        ∀ r : Byte, ¬(matchesRaw q1 r = true ∧ matchesRaw y r = true))

/-- R163's table, each check spelled out as a proposition about the entries. -/
def Obligations.ConsistentMeansEightConditions : Prop :=
  ∀ T : Table, consistent T = true ↔
    (∀ q ∈ T.st, wfLayout q.layout = true) ∧
    (∀ q ∈ T.st, q.amid < 2 ^ (hdr q.layout).1) ∧
    (∀ q1 ∈ T.st, ∀ q2 ∈ T.st, q1 ≠ q2 → q1.parent = q2.parent →
      ∀ raw : Byte, ¬(matchesRaw q1 raw = true ∧ matchesRaw q2 raw = true)) ∧
    (T.pt.map Primary.opcode).Nodup ∧
    (∀ q ∈ T.st, ∃ p ∈ T.pt, p.opcode = q.parent) ∧
    (∀ q ∈ T.st, ∃ p ∈ T.pt, p.opcode = q.parent ∧ mnemOf q.key = p.mnemonic) ∧
    (∀ q ∈ T.st, ∃ shapes, parseShape (sigOf q.key) = some shapes ∧
      lettersOf q.layout = (List.range shapes.length).map letterOf ∧
      ∀ (i : Nat) (h : i < shapes.length), fieldCount q.layout (letterOf i) = fieldBits shapes[i])

/-- The primary a registration call offers (R126). -/
def Sys2Proof.offeredPrimary : RegCall → Option Primary
  | .primary m o t d => some { mnemonic := m, opcode := o, title := t, description := d }
  | .secondary _ _ _ _ => none

/-- The secondary a registration call offers, when its layout string parses (R128). -/
def Sys2Proof.offeredSecondary : RegCall → Option Secondary
  | .primary _ _ _ _ => none
  | .secondary k p l n => (parseTemplate l).map fun L => { key := k, parent := p, amid := n, layout := L }

/-- The state is the failure of the registration call `c`: its duplicate or its layout string, and the error it records (R172 to
R174); `PT` and `ST` do not hold the failing entry (R177). -/
def Sys2Proof.raisedBy (t : State) : RegCall → Prop
  | .primary m _ _ _ => (∃ p ∈ t.pt, p.mnemonic = m) ∧ t.err = some (.duplicatePrimaryMnemonic m)
  | .secondary k _ l _ =>
    ((∃ q ∈ t.st, q.key = k) ∧ t.err = some (.duplicateSecondaryKey k)) ∨
    ((∀ q ∈ t.st, q.key ≠ k) ∧ parseTemplate l = none ∧ t.err = some (.malformedLayout k))

/-- R191 and R176: start-up gives a next state. It has run the first `n` calls, in order, and appended what they offer; then
it froze, or the freeze failed, after the whole of them, or the call at `n` raised. The calls after it are left in the model's
`seq` (log 3), and the ports are as they were. -/
def Obligations.StartupFreezesOrFails : Prop :=
  ∀ (calls : List RegCall) (s : State), s.phase = .registering → ∃ (t : State) (n : Nat),
    exec (.startup calls) s = .next t ∧
    t.pt = s.pt ++ (calls.take n).filterMap offeredPrimary ∧
    t.st = s.st ++ (calls.take n).filterMap offeredSecondary ∧
    t.seq = some (calls.drop (n + 1)) ∧ t.ib = s.ib ∧ t.calls = s.calls ∧ t.out = s.out ∧
    ((n = calls.length ∧ t.phase = .frozen ∧ t.err = s.err ∧ consistent t.table = true) ∨
      (n = calls.length ∧ t.phase = .failed ∧ consistent t.table = false ∧
        ∃ c w, selfTest t.table = some (c, w) ∧ t.err = some (.selfTestFailed c w)) ∨
      (t.phase = .failed ∧ ∃ c, calls[n]? = some c ∧ raisedBy t c))

/-- R191, R193: a sequence without a duplicate (R172, R173) or a malformed layout (R174), whose table is consistent (R163), freezes:
the tables are the old entries followed by every offered one, in order, and nothing is left of the sequence (log 3). -/
def Obligations.StartupFreezesAGoodSequence : Prop :=
  ∀ (calls : List RegCall) (s : State), s.phase = .registering →
    ((s.pt ++ calls.filterMap offeredPrimary).map Primary.mnemonic).Nodup →
    ((s.st ++ calls.filterMap offeredSecondary).map Secondary.key).Nodup →
    (∀ k p l n, RegCall.secondary k p l n ∈ calls → parseTemplate l ≠ none) →
    consistent { pt := s.pt ++ calls.filterMap offeredPrimary, st := s.st ++ calls.filterMap offeredSecondary } = true →
    exec (.startup calls) s = .next
      { s with phase := .frozen, pt := s.pt ++ calls.filterMap offeredPrimary,
               st := s.st ++ calls.filterMap offeredSecondary, seq := some [] }

/-- REFINEMENT: start-up as one operation (R191; log 20) is what the sequencer's steps do, one call a step (R205). -/
def Obligations.StartupIsTheSequencersSteps : Prop :=
  ∀ s : State, s.phase = .registering →
    ∃ n, n ≤ s.remaining.length + 1 ∧ Sys2Proof.core.run n s = exec (.startup s.remaining) s

/-- R194: "Start-up reads nothing but `REGSEQ`": blocks in the same state end in the same state, whatever their ports hold. -/
def Obligations.StartupReadsOnlyItsSequence : Prop :=
  ∀ (calls : List RegCall) (s s' t t' : State), s.sameBlock s' →
    exec (.startup calls) s = .next t → exec (.startup calls) s' = .next t' → t.sameBlock t'

/-! ### The step -/

/-- A STEP RUNS THE DECODED INSTRUCTION: with nothing waiting, the instruction the bytes at the port begin with, and the decode
itself (for its verdict) when they begin none; a waiting call first; while registering, the next call of the sequence,
and the freeze after the last (log 2, log 3). -/
def Obligations.StepRunsTheDecodedInstruction : Prop :=
  ∀ s : State,
    (∀ i : Instr, s.phase = .frozen → s.calls = [] → decode s.table s.ib = .ok i → step s = exec i s) ∧
    (∀ e : Reject, s.phase = .frozen → s.calls = [] → decode s.table s.ib = .error e →
      step s = exec (.decodeInstr s.ib) s) ∧
    (∀ (i : Instr) (is : List Instr), s.phase = .frozen → s.calls = i :: is → step s = exec i { s with calls := is }) ∧
    (∀ (c : RegCall) (cs : List RegCall), s.phase = .registering → s.remaining = c :: cs →
      step s = exec c.instr { s with seq := some cs }) ∧
    (s.phase = .registering → s.remaining = [] → step s = exec .freeze { s with seq := some [] })

/-- The step's two ways to the same result (the ports and what a step leaves there are the model's: log 1, log 2, log 16): reading the bytes as a term of `Instr` and running it gives exactly the record
`decodeInstr` gives for the bytes, in every frozen state of the invariant, for every byte list. -/
def Obligations.StepAnswersTheDecodeOfThePort : Prop :=
  ∀ s : State, s.ready → s.calls = [] →
    step s = .next { s with out := .decode (decodeInstr s.table s.ib) }

/-! ### Instruction rows -/

/-- NOP (R55; that the row answers the decoder's verdict is log 13, DEDUCED): the verdict on the byte 0x00: `PrimaryOnly` with none registered under it, `Truncated(2)` when it has
secondaries, `IllegalPrimary(0)` when no primary has opcode 0 (R154). -/
def Obligations.NopByteVerdict : Prop :=
  ∀ s : State, s.phase = .frozen → ∃ r, exec .nop s = .next { s with out := .decode r } ∧
    (primaryByCode s.table 0 = none → r = .illegalPrimary 0) ∧
    (∀ p, primaryByCode s.table 0 = some p → secondariesOf s.table 0 = [] → r = .primaryOnly p) ∧
    (∀ p, primaryByCode s.table 0 = some p → secondariesOf s.table 0 ≠ [] → r = .truncated 2)

/-- The rows of the other primaries (R55, R57, R154): a registered family's byte alone is `PrimaryOnly`, or
`Truncated(2)` when the family has secondaries; an unregistered family answers `None` (log 13). -/
def Obligations.FamilyByteVerdict : Prop :=
  ∀ (s : State) (i : Instr) (m : Str), s.ready →
    (i, m) ∈ [(Instr.ld, textLD), (.add, textADD), (.sub, textSUB), (.and, textAND), (.div, textDIV), (.primaryOnly m, m)] →
    ((∀ p ∈ s.pt, p.mnemonic ≠ m) → exec i s = .next { s with out := .primary none }) ∧
    (∀ p ∈ s.pt, p.mnemonic = m →
      ((∀ q ∈ s.st, q.parent ≠ p.opcode) → exec i s = .next { s with out := .decode (.primaryOnly p) }) ∧
      ((∃ q ∈ s.st, q.parent = p.opcode) → exec i s = .next { s with out := .decode (.truncated 2) }))

/-- ADD r,n (R57, R153, R154): in a frozen table that registers it, for every index and every byte, the record of that operator
with register group operand `a` of width 1 and immediate `b` of one byte; unregistered, `None` (log 13, log 14). -/
def Obligations.AddRegisterImmediateRecord : Prop :=
  ∀ (s : State) (a : BitVec 5) (b : Byte), s.ready →
    ((∀ q ∈ s.st, q.key ≠ keyADDrn) → exec (.addRN a b) s = .next { s with out := .secondary none }) ∧
    (∀ q ∈ s.st, q.key = keyADDrn → ∃ p ∈ s.pt, p.opcode = q.parent ∧
      exec (.addRN a b) s = .next { s with out := .decode (.decoded {
        primary := p, op := q, len := 1 + q.layout.length,
        fields := [{ letter := 0, value := a.toNat, width := 5 }, { letter := 1, value := b.toNat, width := 8 }],
        operands := some [.reg a.toNat .w1 (decide (a.toNat ≤ 25)), .imm b.toNat .w1], literalsOk := true }) })

/-- ADD r,r (R57, R153, R154): as above with two register groups of width 1, and the received literal bits as `lit` says
(log 13, log 14). -/
def Obligations.AddRegisterRegisterRecord : Prop :=
  ∀ (s : State) (a b : BitVec 5) (lit : Bool), s.ready →
    ((∀ q ∈ s.st, q.key ≠ keyADDrr) → exec (.addRR a b lit) s = .next { s with out := .secondary none }) ∧
    (∀ q ∈ s.st, q.key = keyADDrr → ∃ p ∈ s.pt, p.opcode = q.parent ∧
      exec (.addRR a b lit) s = .next { s with out := .decode (.decoded {
        primary := p, op := q, len := 1 + q.layout.length,
        fields := [{ letter := 0, value := a.toNat, width := 5 }, { letter := 1, value := b.toNat, width := 5 }],
        operands := some [.reg a.toNat .w1 (decide (a.toNat ≤ 25)), .reg b.toNat .w1 (decide (b.toNat ≤ 25))],
        literalsOk := lit }) })

/-- The general row (R154, R158, R159): an instruction of any registered operator answers what decoding its canonical bytes
answers, but for `literalsOk`, which is the flag the instruction carries (DESIGN CHOICE, log 14: the literal bits as received);
values its fields cannot hold and unregistered keys answer `None` (log 13). -/
def Obligations.SecondaryRowAnswersItsBytesDecode : Prop :=
  ∀ (s : State) (key : Str) (vals : List Nat) (lit : Bool), s.ready →
    ((∀ q ∈ s.st, q.key ≠ key) → exec (.secondary key vals lit) s = .next { s with out := .secondary none }) ∧
    (∀ q ∈ s.st, q.key = key → encodeInstr q vals = none →
      exec (.secondary key vals lit) s = .next { s with out := .bytes none }) ∧
    (∀ q ∈ s.st, ∀ bs, q.key = key → encodeInstr q vals = some bs →
      ∃ d, decodeInstr s.table bs = .decoded d ∧
        exec (.secondary key vals lit) s = .next { s with out := .decode (.decoded { d with literalsOk := lit }) })

/-! ### Completion of the block's operations: each answers its function's value and changes nothing else -/

/-- The constant functions of 40 answer in every phase but `FAILED` (log 1, log 5). -/
def Obligations.NamespaceOperationsAnswer : Prop :=
  ∀ (s : State) (n : Str) (i : Nat) (w : Width) (f : Fin 16), s.phase ≠ .failed →
    exec (.resolve n) s = .next { s with out := .index (resolve n) } ∧
    exec (.groupOf n) s = .next { s with out := .group (groupOf n) } ∧
    exec (.resolveFloat n) s = .next { s with out := .index (resolveFloat n) } ∧
    exec (.isSpecialRegister n) s = .next { s with out := .bool (isSpecialRegister n) } ∧
    exec (.nameOf (.group i w)) s = .next { s with out := .name (nameOfGroup i w) } ∧
    exec (.nameOf (.float f)) s = .next { s with out := .name (some (nameOfFloat f)) }

/-- The constant functions of 30 and 41 to 43 answer in every phase but `FAILED` (log 1, log 5). -/
def Obligations.GrammarAndLayoutOperationsAnswer : Prop :=
  ∀ (s : State) (t : Str) (shapes : List OperandShape) (L : BitLayout) (H : List Tag), s.phase ≠ .failed →
    exec (.parseShape t) s = .next { s with out := .shapes (parseShape t) } ∧
    exec (.printShape shapes) s = .next { s with out := .text (printShape shapes) } ∧
    exec (.template (.parse t)) s = .next { s with out := .layout (parseTemplate t) } ∧
    exec (.template (.print L)) s = .next { s with out := .text (printTemplate L) } ∧
    exec (.wfLayout L) s = .next { s with out := .bool (wfLayout L) } ∧
    exec (.compileLayout H shapes) s = .next { s with out := .layout (compileLayout H shapes) } ∧
    exec (.packCompile H shapes) s = .next { s with out := .layout (packCompile H shapes) } ∧
    exec (.catalogLookup t) s = .next { s with out := .modeId (catalogLookup t) }

/-- The lookups of 44 answer in `FROZEN` (log 1). -/
def Obligations.RegistryLookupsAnswer : Prop :=
  ∀ (s : State) (m : Str) (c : Byte) (shapes : List OperandShape) (L : BitLayout) (X : Letter), s.phase = .frozen →
    exec (.primaryOpcodeOf m) s = .next { s with out := .opcode (primaryOpcodeOf s.table m) } ∧
    exec (.primaryByMnemonic m) s = .next { s with out := .primary (primaryByMnemonic s.table m) } ∧
    exec (.primaryByCode c) s = .next { s with out := .primary (primaryByCode s.table c) } ∧
    exec (.formatOf m) s = .next { s with out := .layout (formatOf s.table m) } ∧
    exec (.matchShape m shapes) s = .next { s with out := .secondary (matchShape s.table m shapes) } ∧
    exec (.secondariesOf c) s = .next { s with out := .secondaries (s.st.filter fun q => q.parent == c) } ∧
    exec (.fieldPositions L X) s = .next { s with out := .positions (fieldPositions L X) }

/-- The operations of 45 answer in `FROZEN` (log 1); `extractField` on the bytes it is given when they suffice (R151), else on
bytes whose missing ones are free (log 11). -/
def Obligations.DecodeOperationsAnswer : Prop :=
  ∀ (s : State) (L : BitLayout) (q : Secondary) (P raw : Byte) (lb : List Byte) (X : Letter) (b : Inner) (d : Disp) (v : Nat)
    (vals : List Nat) (T : Table), s.phase = .frozen →
    exec (.hdr L) s = .next { s with out := .hdr (hdr L).1 (hdr L).2.1 (hdr L).2.2 } ∧
    exec (.matchesRaw q raw) s = .next { s with out := .bool (matchesRaw q raw) } ∧
    exec (.decodeSecondary P raw) s = .next { s with out := .secondary (decodeSecondary s.table P raw) } ∧
    (L.length ≤ lb.length →
      exec (.extractField L lb X) s = .next { s with out := .field (extractField L lb X).1 (extractField L lb X).2 }) ∧
    (∃ v, wholeBytes L = true →
      exec (.extractField L lb X) s = .next { s with out := .field v (fieldCount L X) }) ∧
    exec (.splitIndirect b d v) s = .next { s with out := .split (splitIndirect b d v).1 (splitIndirect b d v).2 } ∧
    exec (.decodeInstr lb) s = .next { s with out := .decode (decodeInstr s.table lb) } ∧
    exec (.encodeInstr q vals) s = .next { s with out := .bytes (encodeInstr q vals) } ∧
    exec (.consistent T) s = .next { s with out := .bool (consistent T) }

/-! ### Register Namespace -/

/-- R70 and R71: the names of general registers and groups are exactly the runs of 1 to 4 successive letters with wrap-around; the
index is the first letter's position, the width the name's length, and the members are exactly the width's number of successive
indices from there, with wrap-around. -/
def Obligations.ResolveReadsLetterRuns : Prop :=
  (∀ (n : Str) (i : Nat), resolve n = some i ↔
    i < 26 ∧ ∃ k, 1 ≤ k ∧ k ≤ 4 ∧ n = (List.range k).map fun j => Char.ofNat (65 + (i + j) % 26)) ∧
  (∀ (n : Str) (i : Nat) (w : Width), groupOf n = some (i, w) ↔ resolve n = some i ∧ widthNat w = n.length) ∧
  (∀ (n : Str), groupOf n = none ↔ resolve n = none) ∧
  [Width.w1, .w2, .w3, .w4].map widthNat = [1, 2, 3, 4] ∧
  (∀ (i : Nat) (w : Width), groupMembers i w = (List.range (widthNat w)).map fun j => (i + j) % 26)

/-- R72: the float names are exactly the 32 spellings "F" or "FR" with the decimal index 0..15, and no name is both a general
and a float register. -/
def Obligations.ResolveFloatReadsThirtyTwoNames : Prop :=
  (∀ (n : Str) (i : Nat), resolveFloat n = some i ↔
    i ≤ 15 ∧ (n = 'F' :: decimalStr i ∨ n = 'F' :: 'R' :: decimalStr i)) ∧
  (∀ n : Str, resolveFloat n ≠ none → resolve n = none)

/-- R73: exactly the three names, and none of them is a register of the other two kinds. -/
def Obligations.SpecialRegistersAreThree : Prop :=
  ∀ n : Str, (isSpecialRegister n = true ↔ n ∈ [['S', 'P', 'C'], ['S', 'P', 'R'], ['I', 'P', 'O']]) ∧
    (isSpecialRegister n = true → resolve n = none ∧ resolveFloat n = none)

/-- R74: the inverses that print a register operand. -/
def Obligations.RegisterNamesInvert : Prop :=
  (∀ (i : Nat) (w : Width), i ≤ 25 → ∃ n, nameOfGroup i w = some n ∧
    n = (List.range (widthNat w)).map (fun j => Char.ofNat (65 + (i + j) % 26)) ∧
    resolve n = some i ∧ n.length = widthNat w) ∧
  (∀ (i : Nat) (w : Width), 25 < i → nameOfGroup i w = none) ∧
  (∀ i : Fin 16, nameOfFloat i = 'F' :: decimalStr i.val ∧ resolveFloat (nameOfFloat i) = some i.val ∧
    resolveFloat ('F' :: 'R' :: decimalStr i.val) = some i.val)

/-- R75: valid names resolve alike exactly when their first letters agree; they denote the same group exactly when they are the
same string. -/
def Obligations.RegisterAliasesShareFirstLetter : Prop :=
  (∀ p q : Str, resolve p ≠ none → resolve q ≠ none → (resolve p = resolve q ↔ p.head? = q.head?)) ∧
  (∀ p q : Str, resolve p ≠ none → resolve q ≠ none → (groupOf p = groupOf q ↔ p = q)) ∧
  resolve ['Z', 'A'] = resolve ['Z'] ∧ resolve ['A', 'B'] = resolve ['A']

/-! ### Templates and shapes -/

/-- The template character of a tag, from the table of R46. -/
def Sys2Proof.tagText : Tag → Char
  | .op => 'o'
  | .lit0 => '0'
  | .lit1 => '1'
  | .dontCare => 'u'
  | .field X => Char.ofNat (65 + X.val)

/-- A layout as R45 spells it: a group of tag characters for each byte, single spaces between. -/
def Sys2Proof.layoutText (L : BitLayout) : Str := List.intercalate [' '] (L.map (List.map tagText))

/-- R45 to R47: a layout prints as its tags' characters in groups with single spaces, and a string parses to exactly the layout,
of at least one byte and 8 tags each, that is spelled so; so parsing and printing invert each other. -/
def Obligations.TemplateRoundTrip : Prop :=
  (∀ L : BitLayout, printTemplate L = layoutText L) ∧
  ∀ (s : Str) (L : BitLayout),
    (parseTemplate s = some L ↔ L ≠ [] ∧ (∀ t ∈ L, t.length = 8) ∧ layoutText L = s) ∧
    (parseTemplate s = some L ↔ L ≠ [] ∧ (∀ t ∈ L, t.length = 8) ∧ printTemplate L = s)

/-- The character `c`, 1 to 4 times (R86). -/
def Sys2Proof.runText (c : Char) : Width → Str
  | .w1 => [c]
  | .w2 => [c, c]
  | .w3 => [c, c, c]
  | .w4 => [c, c, c, c]

/-- A base as the grammar of R86 spells it. -/
def Sys2Proof.innerText : Inner → Str
  | .address w => runText 'n' w
  | .group w => runText 'r' w

/-- An operand as the grammar of R86 spells it. -/
def Sys2Proof.shapeText : OperandShape → Str
  | .registerGroup w => runText 'r' w
  | .immediate w => runText 'n' w
  | .floatRegister => ['f', 'r']
  | .memoryIndirect b .none => ['('] ++ innerText b ++ [')']
  | .memoryIndirect b (.immediate w) => ['('] ++ innerText b ++ [','] ++ runText 'n' w ++ [')']
  | .memoryIndirect b (.group w) => ['('] ++ innerText b ++ [','] ++ runText 'r' w ++ [')']

/-- R86 to R89: shapes print as the grammar spells them, with commas between, and a string parses to exactly the at most 26
shapes that are spelled so; so parsing and printing invert each other. -/
def Obligations.ShapeSignatureRoundTrip : Prop :=
  (∀ xs : List OperandShape, printShape xs = List.intercalate [','] (xs.map shapeText)) ∧
  (∀ (sig : Str) (xs : List OperandShape),
    parseShape sig = some xs ↔ xs.length ≤ 26 ∧ List.intercalate [','] (xs.map shapeText) = sig) ∧
  (∀ xs : List OperandShape, xs.length ≤ 26 → parseShape (printShape xs) = some xs) ∧
  (∀ (sig : Str) (ys : List OperandShape), parseShape sig = some ys → printShape ys = sig ∧ ys.length ≤ 26)

/-- R48: the six named checks, each spelled out. -/
def Obligations.WellFormedLayoutMeansSixChecks : Prop :=
  ∀ L : BitLayout, wfLayout L = true ↔
    L ≠ [] ∧ (∀ t ∈ L, t.length = 8) ∧
    (∀ t, L.head? = some t → ∃ (k : Nat) (lits rest : List Tag), t = List.replicate k .op ++ lits ++ rest ∧
      (∀ x ∈ lits, x = .lit0 ∨ x = .lit1) ∧ (∀ x ∈ rest, x ≠ .op ∧ x ≠ .lit0 ∧ x ≠ .lit1)) ∧
    (∀ t ∈ L.tail, Tag.op ∉ t) ∧
    (∀ X Y : Letter, .field X ∈ L.flatten → Y ≤ X → .field Y ∈ L.flatten) ∧
    (∀ X Y : Letter, .field X ∈ L.flatten → .field Y ∈ L.flatten → X < Y →
      L.flatten.idxOf (.field X) < L.flatten.idxOf (.field Y))

/-! ### Bit Layout Compiler and catalog -/

/-- How many bytes an operand compiles to (R102). -/
def Sys2Proof.operandByteCount : OperandShape → Nat
  | .registerGroup _ => 1
  | .floatRegister => 1
  | .immediate w => widthNat w
  | .memoryIndirect b d =>
    (match b with | .address w => widthNat w | .group _ => 1) +
      (match d with | .none => 0 | .immediate w => widthNat w | .group _ => 1)

/-- How many bytes a width is. -/
def Sys2Proof.bytesIn : Width → Nat
  | .w1 => 1
  | .w2 => 2
  | .w3 => 3
  | .w4 => 4

/-- `uuuXXXXX` (R51). -/
def Sys2Proof.groupByte (X : Letter) : LayoutByte :=
  [.dontCare, .dontCare, .dontCare, .field X, .field X, .field X, .field X, .field X]

/-- `uuuuXXXX` (R51). -/
def Sys2Proof.floatByte (X : Letter) : LayoutByte :=
  [.dontCare, .dontCare, .dontCare, .dontCare, .field X, .field X, .field X, .field X]

/-- `XXXXXXXX`, as often as the width says (R51). -/
def Sys2Proof.wholeBytesOf (w : Width) (X : Letter) : BitLayout :=
  List.replicate (bytesIn w)
    [.field X, .field X, .field X, .field X, .field X, .field X, .field X, .field X]

/-- The bytes of one operand of letter `X`, written from the table of R51: the base before the displacement, one letter for both
(R105). -/
def Sys2Proof.bytesOfOperand (X : Letter) : OperandShape → BitLayout
  | .registerGroup _ => [groupByte X]
  | .floatRegister => [floatByte X]
  | .immediate w => wholeBytesOf w X
  | .memoryIndirect b d =>
    (match b with | .address w => wholeBytesOf w X | .group _ => [groupByte X]) ++
      (match d with | .none => [] | .immediate w => wholeBytesOf w X | .group _ => [groupByte X])

/-- How many bits an operand's field has (R50, R106). -/
def Sys2Proof.bitsOfOperand : OperandShape → Nat
  | .registerGroup _ => 5
  | .floatRegister => 4
  | .immediate w => 8 * bytesIn w
  | .memoryIndirect b d =>
    (match b with | .address w => 8 * bytesIn w | .group _ => 5) +
      (match d with | .none => 0 | .immediate w => 8 * bytesIn w | .group _ => 5)

/-- A header as R101 asks for it: opcode tags, then literal tags, at most 8 in all. -/
def Sys2Proof.headerInForm (H : List Tag) : Prop :=
  H.length ≤ 8 ∧ ∃ (k : Nat) (lits : List Tag), H = List.replicate k .op ++ lits ∧ ∀ x ∈ lits, x = .lit0 ∨ x = .lit1

/-- R51 and R101 to R106, every branch of `compileLayout`. A header not in form, or more than 26 operands, gives `None` (R179); a
header in form of fewer than 8 tags gives what `PACK_COMPILE` gives; a full header compiles at most 26 operands to that header
and then each operand's bytes as R51 writes them, in order, operand `i` with the `i`-th letter; the layout is well-formed, has
`1 + Σ operandByteCount` bytes, and gives every operand its `fieldBits`, between 4 and 64. -/
def Obligations.FullHeaderCompilesToWellFormedLayout : Prop :=
  (∀ i < 26, (letterOf i).val = i) ∧
  (∀ H : List Tag, isHeader H = true ↔ headerInForm H) ∧
  (∀ (H : List Tag) (shapes : List OperandShape), ¬headerInForm H ∨ 26 < shapes.length → compileLayout H shapes = none) ∧
  (∀ (H : List Tag) (shapes : List OperandShape), headerInForm H → H.length < 8 → shapes.length ≤ 26 →
    compileLayout H shapes = packCompile H shapes) ∧
  ∀ (H : List Tag) (shapes : List OperandShape), headerInForm H → H.length = 8 → shapes.length ≤ 26 →
    ∃ L, compileLayout H shapes = some (H :: L) ∧
      L = shapes.zipIdx.flatMap (fun p => bytesOfOperand (letterOf p.2) p.1) ∧
      wfLayout (H :: L) = true ∧
      L.length = (shapes.map operandByteCount).sum ∧
      ∀ (i : Nat) (h : i < shapes.length), fieldCount (H :: L) (letterOf i) = fieldBits shapes[i] ∧
        fieldBits shapes[i] = bitsOfOperand shapes[i] ∧ 4 ≤ fieldBits shapes[i] ∧ fieldBits shapes[i] ≤ 64

/-- R108's conditions hold of every result of `PACK_COMPILE`, whatever function the platform supplies (log 9), and a supplied
result that meets them is the result. An operand past the 26th has no letter and so no result (log 25). -/
def Obligations.PackCompileObeysItsConditions : Prop :=
  ∀ (raw : List Tag → List OperandShape → Option BitLayout) (H : List Tag) (shapes : List OperandShape) (L : BitLayout),
    packCompileWith raw H shapes = some L ↔
      raw H shapes = some L ∧ isHeader H = true ∧ shapes.length ≤ 26 ∧ wfLayout L = true ∧
      (∃ rest L', L = (H ++ rest) :: L' ∧ (∀ x ∈ rest, x = .dontCare ∨ x = .field 0) ∧
        (shapes ≠ [] → .field 0 ∈ rest)) ∧
      ∀ (i : Nat) (h : i < shapes.length), fieldCount L (letterOf i) = fieldBits shapes[i]

/-- The shape with its register-group widths forgotten. -/
def Sys2Proof.forgetGroupWidths : OperandShape → OperandShape
  | .registerGroup _ => .registerGroup .w1
  | .memoryIndirect (.group _) (.group _) => .memoryIndirect (.group .w1) (.group .w1)
  | .memoryIndirect (.group _) d => .memoryIndirect (.group .w1) d
  | .memoryIndirect b (.group _) => .memoryIndirect b (.group .w1)
  | sh => sh

/-- R103: under a full header, signatures that differ only in register-group widths compile to identical layouts. -/
def Obligations.GroupWidthsLeaveTheLayout : Prop :=
  ∀ (H : List Tag) (xs ys : List OperandShape), H.length = 8 → xs.map forgetGroupWidths = ys.map forgetGroupWidths →
    compileLayout H xs = compileLayout H ys

/-- A list of catalog entries that obeys the spec: every signature parses (R117), no signature stands twice (a map has one id
for each), and two entries of one id compile alike under every header (R119, log 18). -/
def Sys2Proof.lawfulEntries (pack : List Tag → List OperandShape → Option BitLayout) (raw : Catalog) : Prop :=
  (∀ e ∈ raw, parseShape e.1 ≠ none) ∧ (raw.map Prod.fst).Nodup ∧
    ∀ e ∈ raw, ∀ f ∈ raw, e.2 = f.2 → ∀ sh1 sh2, parseShape e.1 = some sh1 → parseShape f.1 = some sh2 →
      ∀ H : List Tag, compileLayoutWith pack H sh1 = compileLayoutWith pack H sh2

/-- R115, R117 and R119, for whatever entries and packing the platform supplies (log 8): a signature that is found is one of
the entries and parses; two of one id compile alike under every header; every entry of a lawful list is found under its
signature, and nothing else is. The catalog and the compiler of the block are those of the two parameters. -/
def Obligations.CatalogObeysItsLaws : Prop :=
  (∀ (pack : List Tag → List OperandShape → Option BitLayout) (raw : Catalog),
    (∀ (sig : Str) (id : AddressingModeId), catalogFind (lawfulCatalog pack raw) sig = some id →
      (sig, id) ∈ raw ∧ parseShape sig ≠ none) ∧
    (∀ (s1 s2 : Str) (id : AddressingModeId) (sh1 sh2 : List OperandShape) (H : List Tag),
      catalogFind (lawfulCatalog pack raw) s1 = some id → catalogFind (lawfulCatalog pack raw) s2 = some id →
      parseShape s1 = some sh1 → parseShape s2 = some sh2 →
      compileLayoutWith pack H sh1 = compileLayoutWith pack H sh2) ∧
    (lawfulEntries pack raw → ∀ (sig : Str) (id : AddressingModeId),
      catalogFind (lawfulCatalog pack raw) sig = some id ↔ (sig, id) ∈ raw)) ∧
  (∀ sig : Str, catalogLookup sig = catalogFind (lawfulCatalog packCompile Config.catTable) sig) ∧
  (∀ (H : List Tag) (shapes : List OperandShape), compileLayout H shapes = compileLayoutWith packCompile H shapes)

/-! ### Forward lookup -/

/-- R130 and R135: the strict lookup finds exactly a registered mnemonic; the opcode of an unknown one is 0. -/
def Obligations.PrimaryLookupByMnemonic : Prop :=
  ∀ s : State, s.mnemonicsUnique → ∀ m : Str,
    (∀ p, primaryByMnemonic s.table m = some p ↔ p ∈ s.pt ∧ p.mnemonic = m) ∧
    (∀ p ∈ s.pt, p.mnemonic = m → primaryOpcodeOf s.table m = p.opcode) ∧
    ((∀ p ∈ s.pt, p.mnemonic ≠ m) → primaryOpcodeOf s.table m = 0)

/-- R134: the first registered primary of an opcode. -/
def Obligations.PrimaryLookupByCodeIsTheFirst : Prop :=
  ∀ (T : Table) (c : Byte),
    (∀ p, primaryByCode T c = some p ↔
      ∃ before after, T.pt = before ++ p :: after ∧ p.opcode = c ∧ ∀ x ∈ before, x.opcode ≠ c) ∧
    (primaryByCode T c = none ↔ ∀ p ∈ T.pt, p.opcode ≠ c)

/-- R131 and R132: in a table of unique keys the matcher finds exactly the operator whose key is the mnemonic and the printed
shapes, and `formatOf` its layout. -/
def Obligations.MatcherFindsTheExactShape : Prop :=
  ∀ s : State, s.keysUnique → ∀ (m : Str) (shapes : List OperandShape),
    (∀ q, matchShape s.table m shapes = some q ↔ q ∈ s.st ∧ q.key = keyOf m (printShape shapes)) ∧
    (∀ q, matchShape s.table m shapes = some q → formatOf s.table q.key = some q.layout) ∧
    (∀ q, ' ' ∉ m → shapes.length ≤ 26 → matchShape s.table m shapes = some q →
      mnemOf q.key = m ∧ parseShape (sigOf q.key) = some shapes)

/-! ### Matching, extraction, encoding -/

/-- R145: `hdr` of a byte 0 of the form of R49 reads the numbers of opcode and literal tags and the literal pattern, first tag
most significant. -/
def Obligations.HeaderReadsItsThreeParts : Prop :=
  ∀ (k : Nat) (lits rest : List Tag) (L : BitLayout), (∀ x ∈ lits, x = .lit0 ∨ x = .lit1) →
    (∀ x ∈ rest, x ≠ .op ∧ x ≠ .lit0 ∧ x ≠ .lit1) → k + lits.length + rest.length = 8 →
    ∃ lit, hdr ((List.replicate k .op ++ lits ++ rest) :: L) = (k, lits.length, lit) ∧ lit < 2 ^ lits.length ∧
      ∀ (j : Nat) (h : j < lits.length), lit.testBit (lits.length - 1 - j) = decide (lits[j] = .lit1)

/-- R146 to R148, for a layout `hdr` is for, with `(k, l, lit) = hdr` and `s = k + l`: the corrected subcode is `(amid << l) | lit`, which
is a sum, below `2^s` when the subcode fits; the raw bytes an operator matches are the block that starts at it `<< (8 - s)` and
has `2^(8-s)` values, or none when the subcode does not fit. -/
def Obligations.MatchedBytesAreOneBlock : Prop :=
  ∀ (q : Secondary) (raw : Byte) (k l lit : Nat), hdrDomain q.layout = true → hdr q.layout = (k, l, lit) →
    corrected q = (q.amid <<< l) ||| lit ∧ corrected q = q.amid * 2 ^ l + lit ∧ lit < 2 ^ l ∧ k + l ≤ 8 ∧
    (q.amid < 2 ^ k → corrected q < 2 ^ (k + l) ∧
      (matchesRaw q raw = true ↔ ((q.amid <<< l) ||| lit) <<< (8 - (k + l)) ≤ raw.toNat ∧
        raw.toNat ≤ (((q.amid <<< l) ||| lit) <<< (8 - (k + l))) + 2 ^ (8 - (k + l)) - 1)) ∧
    (2 ^ k ≤ q.amid → matchesRaw q raw = false)

/-- R149: the first registered operator of the parent that matches. -/
def Obligations.DecodeSecondaryIsTheFirstMatch : Prop :=
  ∀ (T : Table) (P raw : Byte),
    (∀ q, decodeSecondary T P raw = some q ↔ ∃ before after, T.st = before ++ q :: after ∧ q.parent = P ∧
      matchesRaw q raw = true ∧ ∀ x ∈ before, x.parent = P → matchesRaw x raw = false) ∧
    (decodeSecondary T P raw = none ↔ ∀ q ∈ T.st, q.parent = P → matchesRaw q raw = false)

/-- R164: in a consistent table every operator matches some raw byte, and every raw byte it matches decodes to it. -/
def Obligations.ConsistentTableDecodesItsOperators : Prop :=
  ∀ T : Table, consistent T = true → ∀ q ∈ T.st,
    (∃ raw : Byte, matchesRaw q raw = true) ∧
    ∀ raw : Byte, matchesRaw q raw = true → decodeSecondary T q.parent raw = some q

/-- R151 through R138's positions: a field's width is the number of its positions and its value the number of so many bits whose
bits, from the most significant down, are those at its positions, first to last; the positions are those tagged with the letter, byte 0 first and bit 7 first, none twice. -/
def Obligations.FieldIsItsPositionsBits : Prop :=
  ∀ (L : BitLayout) (lb : List Byte) (X : Letter), wholeBytes L = true → L.length ≤ lb.length →
    extractField L lb X =
        (natOfBits ((fieldPositions L X).map fun p => (lb.getD p.1 0).getLsbD p.2), (fieldPositions L X).length) ∧
      (extractField L lb X).1 < 2 ^ (fieldPositions L X).length ∧
      (∀ (n : Nat) (h : n < (fieldPositions L X).length),
        (extractField L lb X).1.testBit ((fieldPositions L X).length - 1 - n) =
          (lb.getD (fieldPositions L X)[n].1 0).getLsbD (fieldPositions L X)[n].2) ∧
      (∀ j i : Nat, (j, i) ∈ fieldPositions L X ↔
        i < 8 ∧ ∃ t, L[j]? = some t ∧ t[7 - i]? = some (.field X)) ∧
      (fieldPositions L X).Pairwise fun a b => a.1 < b.1 ∨ (a.1 = b.1 ∧ b.2 < a.2)

/-- R33: an immediate of whole bytes is big-endian wherever it stands in a layout: its first byte in the stream is the most
significant, and the bytes before and behind it, whose tags have not its letter, do not count. -/
def Obligations.ImmediateIsBigEndian : Prop :=
  ∀ (w : Width) (X : Letter) (L1 L2 : BitLayout) (b1 bs b2 : List Byte),
    (∀ t ∈ L1, Tag.field X ∉ t) → (∀ t ∈ L2, Tag.field X ∉ t) → b1.length = L1.length → bs.length = widthNat w →
    immBytes w X = wholeBytesOf w X ∧
    extractField (L1 ++ immBytes w X ++ L2) (b1 ++ bs ++ b2) X =
      (bs.foldl (fun v b => 256 * v + b.toNat) 0, 8 * widthNat w)

/-- R152: base and displacement split and join. -/
def Obligations.IndirectSplitsAndJoins : Prop :=
  ∀ (b : Inner) (d : Disp),
    (∀ v, joinIndirect d (splitIndirect b d v).1 (splitIndirect b d v).2 = v ∧
      (splitIndirect b d v).2 < 2 ^ dispBits d) ∧
    (∀ base disp, disp < 2 ^ dispBits d → splitIndirect b d (joinIndirect d base disp) = (base, disp))

/-- R154's verdicts in the order R176 names, each under its condition. -/
def Obligations.DecodeVerdictsInOrder : Prop :=
  ∀ T : Table, decodeInstr T [] = .truncated 1 ∧
    ∀ (P : Byte) (rest : List Byte),
      (primaryByCode T P = none → decodeInstr T (P :: rest) = .illegalPrimary P) ∧
      ∀ p, primaryByCode T P = some p →
        (secondariesOf T P = [] → decodeInstr T (P :: rest) = .primaryOnly p) ∧
        (secondariesOf T P ≠ [] → rest = [] → decodeInstr T (P :: rest) = .truncated 2) ∧
        ∀ (raw : Byte) (tail : List Byte), rest = raw :: tail →
          (secondariesOf T P ≠ [] → decodeSecondary T P raw = none →
            decodeInstr T (P :: rest) = .illegalSecondary P raw) ∧
          ∀ q, decodeSecondary T P raw = some q →
            (rest.length < q.layout.length → decodeInstr T (P :: rest) = .truncated (1 + q.layout.length)) ∧
            (q.layout.length ≤ rest.length → ∃ d, decodeInstr T (P :: rest) = .decoded d ∧ d.primary = p ∧ d.op = q ∧
              d.len = 1 + q.layout.length ∧
              d.fields = (lettersOf q.layout).map (fun X =>
                { letter := X, value := (extractField q.layout rest X).1, width := (extractField q.layout rest X).2 }) ∧
              d.literalsOk = literalsOk q.layout rest)

/-- R32: a verdict rests on the bytes the decoder has read, none beyond `ib[len-1]`: any byte list that begins with the same
bytes has the same verdict. -/
def Obligations.DecodeReadsOnlyTheInstruction : Prop :=
  ∀ (T : Table) (ib ib' : List Byte), (∀ q ∈ T.st, q.layout ≠ []) → (∀ need, decodeInstr T ib ≠ .truncated need) →
    ib'.take (bytesRead (decodeInstr T ib)) = ib.take (bytesRead (decodeInstr T ib)) →
    decodeInstr T ib' = decodeInstr T ib

/-- R155: the lengths, and the bytes at which the next instruction starts; the verdicts without a length have none. -/
def Obligations.DecodedLengthIsTheLayouts : Prop :=
  ∀ (T : Table) (ib : List Byte),
    (∀ d, decodeInstr T ib = .decoded d →
      lengthOf (decodeInstr T ib) = some (1 + d.op.layout.length) ∧ 1 + d.op.layout.length ≤ ib.length ∧
      nextBytes (decodeInstr T ib) ib = some (ib.drop (1 + d.op.layout.length))) ∧
    (∀ p, decodeInstr T ib = .primaryOnly p → lengthOf (decodeInstr T ib) = some 1 ∧ 1 ≤ ib.length ∧
      nextBytes (decodeInstr T ib) ib = some (ib.drop 1)) ∧
    ((∀ d, decodeInstr T ib ≠ .decoded d) → (∀ p, decodeInstr T ib ≠ .primaryOnly p) →
      lengthOf (decodeInstr T ib) = none ∧ nextBytes (decodeInstr T ib) ib = none)

/-- Two byte lists agree at every bit of a layout but those with a tag that `skip` names. -/
def Sys2Proof.agreeExcept (skip : Nat → Tag → Prop) (L : BitLayout) (lb lb' : List Byte) : Prop :=
  lb.length = lb'.length ∧
    ∀ (j : Nat) (t : LayoutByte), L[j]? = some t → ∀ (i : Nat) (x : Tag), t[i]? = some x → ¬skip j x →
      (lb.getD j 0).getLsbD (7 - i) = (lb'.getD j 0).getLsbD (7 - i)

/-- R60: streams that differ only in don't-care positions of the decoded operator's layout decode to the same record; the
encoder writes 0 there. -/
def Obligations.DontCareBitsAreIgnored : Prop :=
  (∀ (T : Table) (P : Byte) (rest rest' : List Byte) (d : DecodedInstr), consistent T = true →
    decodeInstr T (P :: rest) = .decoded d → agreeExcept (fun _ x => x = .dontCare) d.op.layout rest rest' →
    decodeInstr T (P :: rest') = .decoded d) ∧
  (∀ (q : Secondary) (vals : List Nat) (P : Byte) (bs : List Byte), wfLayout q.layout = true →
    encodeInstr q vals = some (P :: bs) →
    ∀ (j i : Nat) (t : LayoutByte), q.layout[j]? = some t → t[i]? = some .dontCare → (bs.getD j 0).getLsbD (7 - i) = false)

/-- R62: literal bits after byte 0 are written by the encoder and not checked by the decoder: a stream that differs only in them
still decodes, to the same record but for `literalsOk`, which is true exactly when every such bit is as the layout has it. -/
def Obligations.LaterLiteralsOnlySetTheFlag : Prop :=
  (∀ (T : Table) (P : Byte) (rest rest' : List Byte) (d : DecodedInstr), (∀ q ∈ T.st, wfLayout q.layout = true) →
    decodeInstr T (P :: rest) = .decoded d →
    agreeExcept (fun j x => 0 < j ∧ (x = .lit0 ∨ x = .lit1)) d.op.layout rest rest' →
    ∃ ok, decodeInstr T (P :: rest') = .decoded { d with literalsOk := ok } ∧
      (ok = true ↔ ∀ (j i : Nat) (t : LayoutByte), 0 < j → d.op.layout[j]? = some t →
        (t[i]? = some .lit0 → (rest'.getD j 0).getLsbD (7 - i) = false) ∧
        (t[i]? = some .lit1 → (rest'.getD j 0).getLsbD (7 - i) = true))) ∧
  (∀ (q : Secondary) (vals : List Nat) (P : Byte) (bs : List Byte), wfLayout q.layout = true →
    encodeInstr q vals = some (P :: bs) →
    ∀ (j i : Nat) (t : LayoutByte), q.layout[j]? = some t →
      (t[i]? = some .lit0 → (bs.getD j 0).getLsbD (7 - i) = false) ∧
      (t[i]? = some .lit1 → (bs.getD j 0).getLsbD (7 - i) = true))

/-- How many bits a displacement has (R106). -/
def Sys2Proof.bitsOfDisp : Disp → Nat
  | .none => 0
  | .immediate w => 8 * bytesIn w
  | .group _ => 5

/-- `typed` as R153 writes it, with the split of R152: the base is the value's high part, the displacement its low bits, and a
register field is in range up to 25. -/
def Sys2Proof.typedAs : OperandShape → Nat → DecodedOperand
  | .registerGroup g, v => .reg v g (decide (v ≤ 25))
  | .floatRegister, v => .freg v
  | .immediate n, v => .imm v n
  | .memoryIndirect b d, v =>
    .mem
      (match b with
        | .address n => .addr (v / 2 ^ bitsOfDisp d) n
        | .group g => .reg (v / 2 ^ bitsOfDisp d) g (decide (v / 2 ^ bitsOfDisp d ≤ 25)))
      (match d with
        | .none => .none
        | .immediate n => .imm (v % 2 ^ bitsOfDisp d) n
        | .group g => .reg (v % 2 ^ bitsOfDisp d) g (decide (v % 2 ^ bitsOfDisp d ≤ 25)))

/-- The shapes and fields of a record fit: as many, and each field as wide as its shape asks (R154). -/
def Sys2Proof.fits (shapes : List OperandShape) (fields : List FieldValue) : Prop :=
  fields.length = shapes.length ∧
    ∀ (i : Nat) (sh : OperandShape) (f : FieldValue), shapes[i]? = some sh → fields[i]? = some f → f.width = bitsOfOperand sh

/-- R153, R154 and R61: in every table a decoded record has its typed operands, one per shape of the operator's signature, each as
R153 writes it and out-of-range register indices flagged, not refused, when the signature parses and the fields fit its shapes,
and no operands otherwise; in a consistent table they fit, and field `i` has the `i`-th letter and a value that fits. -/
def Obligations.DecodedOperandsAreTyped : Prop :=
  (∀ (T : Table) (ib : List Byte) (d : DecodedInstr), decodeInstr T ib = .decoded d →
    (parseShape (sigOf d.op.key) = none → d.operands = none) ∧
    ∀ shapes, parseShape (sigOf d.op.key) = some shapes →
      (fits shapes d.fields →
        d.operands = some (List.zipWith (fun sh f => typedAs sh f.value) shapes d.fields)) ∧
      (¬fits shapes d.fields → d.operands = none)) ∧
  (∀ (T : Table) (ib : List Byte) (d : DecodedInstr), consistent T = true → decodeInstr T ib = .decoded d →
    ∃ shapes operands, parseShape (sigOf d.op.key) = some shapes ∧ d.operands = some operands ∧ fits shapes d.fields ∧
      operands.length = shapes.length ∧ d.fields.length = shapes.length ∧
      ∀ (i : Nat) (sh : OperandShape) (f : FieldValue), shapes[i]? = some sh → d.fields[i]? = some f →
        f.letter = letterOf i ∧ f.width = fieldBits sh ∧ f.value < 2 ^ fieldBits sh ∧
        operands[i]? = some (typedAs sh f.value) ∧ typedOperand sh f.value = typedAs sh f.value)

/-- R158: when `encodeInstr` accepts, and the shape of what it gives. -/
def Obligations.EncodeAcceptsWhatFits : Prop :=
  ∀ (q : Secondary) (vals : List Nat),
    ((∃ bs, encodeInstr q vals = some bs) ↔
      q.amid < 2 ^ (hdr q.layout).1 ∧ vals.length = (lettersOf q.layout).length ∧
      ∀ (i : Nat) (X : Letter) (v : Nat), (lettersOf q.layout)[i]? = some X → vals[i]? = some v → v < 2 ^ fieldCount q.layout X) ∧
    (∀ bs, encodeInstr q vals = some bs → bs.length = 1 + q.layout.length ∧ bs.head? = some q.parent)

/-- R159, both laws, for every consistent table: (a) decoding what was encoded, with anything after it, gives the operator and the
values back; (b) encoding what was decoded gives the bytes back, don't-care bits cleared and later literal bits at their
value. -/
def Obligations.EncodeAndDecodeRoundTrip : Prop :=
  ∀ T : Table, consistent T = true →
    (∀ q ∈ T.st, ∀ (vals : List Nat) (bs rest : List Byte), encodeInstr q vals = some bs →
      ∃ d, decodeInstr T (bs ++ rest) = .decoded d ∧ d.op = q ∧ d.len = 1 + q.layout.length ∧
        d.fields.map FieldValue.value = vals ∧ d.literalsOk = true) ∧
    (∀ (P : Byte) (rest : List Byte) (d : DecodedInstr), decodeInstr T (P :: rest) = .decoded d →
      encodeInstr d.op (d.fields.map FieldValue.value) =
        some (P :: canonicalBytes d.op.layout (rest.take d.op.layout.length)))

/-- DECODE AND ENCODE AGREE on terms of `Instr`: for every term that names an instruction of a good table, its bytes, with
anything after them, decode to that very term (log 13, log 14). -/
def Obligations.InstructionsDecodeFromTheirEncoding : Prop :=
  ∀ s : State, s.mnemonicsUnique → s.keysUnique → consistent s.table = true →
    ∀ i : Instr, i.wfIn s.table = true →
      ∃ bs, encode s.table i = some bs ∧ ∀ rest, decode s.table (bs ++ rest) = .ok i

/-- R31: the byte `ib[j]` is the platform's byte at `a + j`; the list has all `n` bytes where the platform has them, and otherwise
ends just before the first it has not (log 21). -/
def Obligations.FetchReadsAscendingAddresses : Prop :=
  ∀ (m : List Host.Cell) (a n j : Nat),
    (j < (fetchBytes m a n).length → (fetchBytes m a n)[j]? = memRead m (a + j)) ∧
    ((∀ i, i < n → memRead m (a + i) ≠ none) → (fetchBytes m a n).length = n) ∧
    (∀ k, k < n → (∀ i, i < k → memRead m (a + i) ≠ none) → memRead m (a + k) = none → (fetchBytes m a n).length = k)

/-- A few words written from the spec's encodings: NOP is the byte 0 (R55); with "ADD r,n" registered under opcode 2 with id 0x10
(the illustrative numbers of 95_test_vectors), its bytes are that instruction, the don't-care bits ignored. The table that
holds NOP alone and without a secondary is the model's (DESIGN CHOICE, log 4; 91_not_in_source N1), and so is the term that stands
for the operator "ADD r,n" (DESIGN CHOICE, log 14). -/
def Obligations.WordsDecodeAsTheSpecWritesThem : Prop :=
  decodeTableWord 8 0 = some .nop ∧
    ∀ T : Table, T = { pt := [{ mnemonic := textADD, opcode := 2, title := [], description := [] }],
                       st := [{ key := keyADDrn, parent := 2, amid := 0x10, layout := layoutADDrn }] } →
      decode T [0x02, 0x10, 0x03, 0x7F] = .ok (.addRN 3 0x7F) ∧
      decode T [0x02, 0x10, 0xE3, 0x7F, 0x99] = .ok (.addRN 3 0x7F) ∧
      decode T [0x02, 0x11, 0x03, 0x7F] = .error (.illegalSecondary 0x02 0x11) ∧
      decode T [0x02, 0x10, 0x03] = .error (.truncated 4) ∧
      decode T [0x07] = .error (.illegalPrimary 0x07)
end

