-- ==== Sys2Proof/Laws/Text.lean ====
section
/-! SUPPORT. What the string and bit helpers do, said once: `mapAll`, splitting and joining, and the two ways between bits and
numbers. -/

namespace Sys2Proof.Machine

variable {α β : Type}

@[simp] theorem mapAll_nil (f : α → Option β) : mapAll f [] = some [] := rfl

theorem mapAll_cons_eq_some {f : α → Option β} {a : α} {as : List α} {bs : List β} :
    mapAll f (a :: as) = some bs ↔ ∃ b bs', f a = some b ∧ mapAll f as = some bs' ∧ bs = b :: bs' := by
  simp only [mapAll]
  cases f a <;> cases mapAll f as <;> simp [eq_comm]

/-- `mapAll` succeeds exactly when every element does, and gives their images in order. -/
theorem mapAll_eq_some {f : α → Option β} {as : List α} {bs : List β} :
    mapAll f as = some bs ↔ as.map f = bs.map some := by
  induction as generalizing bs with
  | nil => cases bs <;> simp
  | cons a as ih =>
    rw [mapAll_cons_eq_some]
    cases bs with
    | nil => simp
    | cons b bs => simp [← ih]

theorem splitOnChar_ne_nil (c : Char) (s : Str) : splitOnChar c s ≠ [] := by
  cases s with
  | nil => simp [splitOnChar]
  | cons x xs => simp only [splitOnChar]; split <;> [simp; (split <;> simp)]

theorem splitOnChar_of_not_mem {c : Char} {s : Str} (h : c ∉ s) : splitOnChar c s = [s] := by
  induction s with
  | nil => rfl
  | cons x xs ih =>
    simp only [List.mem_cons, not_or] at h
    simp [splitOnChar, Ne.symm h.1, ih h.2]

theorem splitOnChar_append {c : Char} {s : Str} (h : c ∉ s) (t : Str) :
    splitOnChar c (s ++ c :: t) = s :: splitOnChar c t := by
  induction s with
  | nil => simp [splitOnChar]
  | cons x xs ih =>
    simp only [List.mem_cons, not_or] at h
    simp [splitOnChar, Ne.symm h.1, ih h.2]

/-- Splitting undoes joining, when no piece holds the separator. -/
theorem splitOnChar_joinWith {c : Char} {ss : List Str} (hne : ss ≠ []) (h : ∀ s ∈ ss, c ∉ s) :
    splitOnChar c (joinWith c ss) = ss := by
  induction ss with
  | nil => exact absurd rfl hne
  | cons s ss ih =>
    cases ss with
    | nil => exact splitOnChar_of_not_mem (h s (by simp))
    | cons t ss =>
      rw [joinWith, splitOnChar_append (h s (by simp)), ih (by simp) fun x hx => h x (by simp [hx])]

/-- Joining undoes splitting. -/
theorem joinWith_splitOnChar (c : Char) (s : Str) : joinWith c (splitOnChar c s) = s := by
  induction s with
  | nil => rfl
  | cons x xs ih =>
    simp only [splitOnChar]
    cases hs : splitOnChar c xs with
    | nil => exact absurd hs (splitOnChar_ne_nil c xs)
    | cons g gs =>
      rw [hs] at ih
      by_cases hx : x = c
      · simp [hx, joinWith, ih]
      · cases gs <;> simp_all [joinWith]

@[simp] theorem natOfBits_nil : natOfBits [] = 0 := rfl

theorem natOfBits_append_singleton (bs : List Bool) (b : Bool) : natOfBits (bs ++ [b]) = 2 * natOfBits bs + b.toNat := by
  simp [natOfBits]

/-- A list of `n` bits spells a number below `2 ^ n`. -/
theorem natOfBits_lt (bs : List Bool) : natOfBits bs < 2 ^ bs.length := by
  induction bs using List.reverseRecOn with
  | nil => simp
  | append_singleton bs b ih =>
    rw [natOfBits_append_singleton, List.length_append, List.length_singleton, Nat.pow_succ]
    have := b.toNat_lt
    omega

/-- The first bit is the most significant. -/
theorem natOfBits_cons (b : Bool) (bs : List Bool) : natOfBits (b :: bs) = b.toNat * 2 ^ bs.length + natOfBits bs := by
  induction bs using List.reverseRecOn with
  | nil => simp [natOfBits]
  | append_singleton bs c ih =>
    rw [← List.cons_append, natOfBits_append_singleton, natOfBits_append_singleton, ih, List.length_append,
      List.length_singleton, Nat.pow_succ]
    ring

theorem natOfBits_append (as bs : List Bool) : natOfBits (as ++ bs) = natOfBits as * 2 ^ bs.length + natOfBits bs := by
  induction as with
  | nil => simp
  | cons a as ih =>
    rw [List.cons_append, natOfBits_cons, natOfBits_cons, ih, List.length_append, Nat.pow_add]
    ring

@[simp] theorem bitsOfNat_length (w v : Nat) : (bitsOfNat w v).length = w := by
  induction w with
  | zero => rfl
  | succ w ih => simp [bitsOfNat, ih]

/-- The `w` low bits spell the number modulo `2 ^ w`. -/
theorem natOfBits_bitsOfNat (w v : Nat) : natOfBits (bitsOfNat w v) = v % 2 ^ w := by
  induction w with
  | zero => simp [bitsOfNat, Nat.mod_one]
  | succ w ih =>
    rw [bitsOfNat, natOfBits_cons, ih, bitsOfNat_length, Nat.mod_pow_succ, Nat.testBit_eq_decide_div_mod_eq]
    rcases Nat.mod_two_eq_zero_or_one (v / 2 ^ w) with h | h <;> simp [h, Nat.add_comm]

/-- A list of bits is determined by its length and the number it spells. -/
theorem bitsOfNat_natOfBits (bs : List Bool) : bitsOfNat bs.length (natOfBits bs) = bs := by
  induction bs with
  | nil => rfl
  | cons b bs ih =>
    have hlt := natOfBits_lt bs
    have key : ∀ w v v', v % 2 ^ w = v' % 2 ^ w → bitsOfNat w v = bitsOfNat w v' := by
      intro w
      induction w with
      | zero => intros; rfl
      | succ w ihw =>
        intro v v' h
        have h1 : v.testBit w = v'.testBit w := by
          have := congrArg (fun x => Nat.testBit x w) h
          simpa [Nat.testBit_mod_two_pow] using this
        have h2 : v % 2 ^ w = v' % 2 ^ w := by
          have := congrArg (· % 2 ^ w) h
          simpa [Nat.mod_mod_of_dvd, Nat.pow_dvd_pow 2 (Nat.le_succ w)] using this
        simp [bitsOfNat, h1, ihw v v' h2]
    rw [List.length_cons, bitsOfNat, natOfBits_cons]
    congr 1
    · rw [Nat.testBit_eq_decide_div_mod_eq, Nat.add_comm, Nat.add_mul_div_right _ _ (by positivity),
        Nat.div_eq_of_lt hlt]
      cases b <;> simp
    · exact (key _ _ (natOfBits bs) (by rw [Nat.add_comm, Nat.add_mul_mod_self_right])).trans ih

theorem byteBits_length (b : Byte) : (byteBits b).length = 8 := rfl

/-- The bits of a byte, bit 7 first, spell it. -/
theorem byteOfBits_byteBits (b : Byte) : byteOfBits (byteBits b) = b := by
  revert b; decide +kernel

/-- Eight bits are the bits of the byte they spell. -/
theorem byteBits_byteOfBits {bs : List Bool} (h : bs.length = 8) : byteBits (byteOfBits bs) = bs := by
  match bs, h with
  | [a, b, c, d, e, f, g, i], _ => revert a b c d e f g i; decide +kernel

end Sys2Proof.Machine
end

