-- ==== Sys2Proof/Laws/Decode.lean ====
section
/-! SUPPORT. What the lookups, the decoder and the encoder can answer, said once. -/

namespace Sys2Proof.Machine

variable {T : Table}

theorem mem_of_primaryByCode {c : Byte} {p : Primary} (h : primaryByCode T c = some p) : p ∈ T.pt ∧ p.opcode = c :=
  ⟨List.mem_of_find?_eq_some h, by simpa using List.find?_some h⟩

theorem mem_of_primaryByMnemonic {m : Str} {p : Primary} (h : primaryByMnemonic T m = some p) :
    p ∈ T.pt ∧ p.mnemonic = m :=
  ⟨List.mem_of_find?_eq_some h, by simpa using List.find?_some h⟩

theorem mem_of_secondaryByKey {k : Str} {q : Secondary} (h : secondaryByKey T k = some q) : q ∈ T.st ∧ q.key = k :=
  ⟨List.mem_of_find?_eq_some h, by simpa using List.find?_some h⟩

theorem mem_secondariesOf {P : Byte} {q : Secondary} : q ∈ secondariesOf T P ↔ q ∈ T.st ∧ q.parent = P := by
  simp [secondariesOf]

theorem mem_of_decodeSecondary {P raw : Byte} {q : Secondary} (h : decodeSecondary T P raw = some q) :
    q ∈ T.st ∧ q.parent = P ∧ matchesRaw q raw = true :=
  ⟨(mem_secondariesOf.1 (List.mem_of_find?_eq_some h)).1, (mem_secondariesOf.1 (List.mem_of_find?_eq_some h)).2,
    by simpa using List.find?_some h⟩

/-- Two lists in which every element of one list has its own value of `f` agree on the value. -/
theorem eq_of_nodup_map {α β : Type} {f : α → β} {l : List α} (h : (l.map f).Nodup) {a b : α} (ha : a ∈ l) (hb : b ∈ l)
    (hf : f a = f b) : a = b := List.inj_on_of_nodup_map h ha hb hf

theorem primaryByMnemonic_of_mem (h : (T.pt.map Primary.mnemonic).Nodup) {p : Primary} (hp : p ∈ T.pt) :
    primaryByMnemonic T p.mnemonic = some p := by
  cases hf : primaryByMnemonic T p.mnemonic with
  | none => exact absurd (List.find?_eq_none.1 hf p hp) (by simp)
  | some p' =>
    obtain ⟨hm, he⟩ := mem_of_primaryByMnemonic hf
    rw [eq_of_nodup_map h hm hp he]

theorem secondaryByKey_of_mem (h : (T.st.map Secondary.key).Nodup) {q : Secondary} (hq : q ∈ T.st) :
    secondaryByKey T q.key = some q := by
  cases hf : secondaryByKey T q.key with
  | none => exact absurd (List.find?_eq_none.1 hf q hq) (by simp)
  | some q' =>
    obtain ⟨hm, he⟩ := mem_of_secondaryByKey hf
    rw [eq_of_nodup_map h hm hq he]

theorem primaryByCode_of_mem (h : (T.pt.map Primary.opcode).Nodup) {p : Primary} (hp : p ∈ T.pt) :
    primaryByCode T p.opcode = some p := by
  cases hf : primaryByCode T p.opcode with
  | none => exact absurd (List.find?_eq_none.1 hf p hp) (by simp)
  | some p' =>
    obtain ⟨hm, he⟩ := mem_of_primaryByCode hf
    rw [eq_of_nodup_map h hm hp he]

/-- A decoded record: what the decoder has found on the way to it. -/
theorem decodeInstr_eq_decoded {ib : List Byte} {d : DecodedInstr} (h : decodeInstr T ib = .decoded d) :
    ∃ (P raw : Byte) (tail : List Byte) (p : Primary) (q : Secondary), ib = P :: raw :: tail ∧
      primaryByCode T P = some p ∧ decodeSecondary T P raw = some q ∧ q.layout.length ≤ (raw :: tail).length ∧
      d = decodedRecord p q (fieldsOf q.layout ((raw :: tail).take q.layout.length))
        (literalsOk q.layout ((raw :: tail).take q.layout.length)) := by
  unfold decodeInstr at h
  split at h
  · cases h
  · rename_i P rest
    split at h
    · cases h
    · rename_i p hp
      split at h
      · cases h
      · split at h
        · cases h
        · rename_i raw tail
          split at h
          · cases h
          · rename_i q hq
            split at h
            · cases h
            · rename_i hlen
              cases h
              exact ⟨P, raw, tail, p, q, rfl, hp, hq, not_lt.1 hlen, rfl⟩

/-- A primary alone: found under the first byte, without secondaries. -/
theorem decodeInstr_eq_primaryOnly {ib : List Byte} {p : Primary} (h : decodeInstr T ib = .primaryOnly p) :
    ∃ (P : Byte) (rest : List Byte), ib = P :: rest ∧ primaryByCode T P = some p ∧ secondariesOf T P = [] := by
  unfold decodeInstr at h
  split at h
  · cases h
  · rename_i P rest
    split at h
    · cases h
    · rename_i p' hp
      split at h
      · rename_i hs; cases h; exact ⟨P, rest, rfl, hp, hs⟩
      · split at h
        · cases h
        · split at h
          · cases h
          · split at h <;> cases h

/-- An encoding: the id and the values fit, and the bytes are those of `placeBits`. -/
theorem encodeInstr_eq_some {q : Secondary} {vals : List Nat} {bs : List Byte} (h : encodeInstr q vals = some bs) :
    q.amid < 2 ^ (hdr q.layout).1 ∧ valuesFit q.layout vals = true ∧
      bs = q.parent :: bitsToBytes q.layout
        (placeBits q.layout.flatten (bitsOfNat (hdr q.layout).1 q.amid) (valueBits q.layout vals)) := by
  unfold encodeInstr at h
  split at h
  · cases h
  · rename_i ha
    split at h
    · cases h
    · rename_i hv
      cases h
      exact ⟨not_le.1 ha, by simpa using hv, rfl⟩

/-- `placeBits` writes one bit for each tag. -/
@[simp] theorem placeBits_length (ts : List Tag) (ob : List Bool) (fb : Letter → List Bool) :
    (placeBits ts ob fb).length = ts.length := by
  induction ts generalizing ob fb with
  | nil => rfl
  | cons t ts ih => cases t <;> simp [placeBits, ih]

/-- `bitsToBytes` gives one byte for each layout byte. -/
@[simp] theorem bitsToBytes_length (L : BitLayout) (bs : List Bool) : (bitsToBytes L bs).length = L.length := by
  induction L generalizing bs with
  | nil => rfl
  | cons t L ih => simp [bitsToBytes, ih]

/-- A field's collected bits are as many as its tags, when the bytes suffice and the layout is of whole bytes. -/
theorem collect_length {L : BitLayout} {lb : List Byte} (hL : ∀ t ∈ L, t.length = 8) (hlb : L.length ≤ lb.length) (X : Letter) :
    (collect X (taggedBits L lb)).length = fieldCount L X := by
  have one : ∀ (t : List Tag) (bs : List Bool), t.length = bs.length →
      ((t.zip bs).filterMap fun p => if p.1 = .field X then some p.2 else none).length = t.count (.field X) := by
    intro t
    induction t with
    | nil => intro bs _; simp
    | cons x t ih =>
      intro bs hb
      cases bs with
      | nil => simp at hb
      | cons b bs =>
        have := ih bs (by simpa using hb)
        by_cases hx : x = .field X <;> simp [hx, this]
  induction L generalizing lb with
  | nil => simp [collect, taggedBits, fieldCount]
  | cons t L ih =>
    cases lb with
    | nil => simp at hlb
    | cons b lb =>
      have ih' := ih (lb := lb) (fun u hu => hL u (by simp [hu])) (by simpa using hlb)
      have ht := one t (byteBits b) (by rw [hL t (by simp)]; rfl)
      simp only [collect, taggedBits, fieldCount, List.zip_cons_cons, List.flatMap_cons, List.filterMap_append,
        List.length_append, List.flatten_cons, List.count_append] at ih' ⊢
      rw [ht, ih']

end Sys2Proof.Machine
end

