-- ==== Sys2Proof/Laws/State.lean ====
section
/-! SUPPORT. One lemma per field per update of the state, so that no proof unfolds an update. -/

namespace Sys2Proof.Machine

variable (s : State)

@[simp] theorem State.raise_phase (e : RegistrationError) : (s.raise e).phase = .failed := rfl
@[simp] theorem State.raise_pt (e : RegistrationError) : (s.raise e).pt = s.pt := rfl
@[simp] theorem State.raise_st (e : RegistrationError) : (s.raise e).st = s.st := rfl
@[simp] theorem State.raise_err (e : RegistrationError) : (s.raise e).err = some e := rfl
@[simp] theorem State.raise_seq (e : RegistrationError) : (s.raise e).seq = s.seq := rfl
@[simp] theorem State.raise_ib (e : RegistrationError) : (s.raise e).ib = s.ib := rfl
@[simp] theorem State.raise_calls (e : RegistrationError) : (s.raise e).calls = s.calls := rfl
@[simp] theorem State.raise_out (e : RegistrationError) : (s.raise e).out = s.out := rfl

@[simp] theorem State.answer_phase (r : Result) : (s.answer r).phase = s.phase := rfl
@[simp] theorem State.answer_pt (r : Result) : (s.answer r).pt = s.pt := rfl
@[simp] theorem State.answer_st (r : Result) : (s.answer r).st = s.st := rfl
@[simp] theorem State.answer_err (r : Result) : (s.answer r).err = s.err := rfl
@[simp] theorem State.answer_seq (r : Result) : (s.answer r).seq = s.seq := rfl
@[simp] theorem State.answer_ib (r : Result) : (s.answer r).ib = s.ib := rfl
@[simp] theorem State.answer_calls (r : Result) : (s.answer r).calls = s.calls := rfl
@[simp] theorem State.answer_out (r : Result) : (s.answer r).out = r := rfl

@[simp] theorem State.addPrimary_phase (p : Primary) : (s.addPrimary p).phase = s.phase := rfl
@[simp] theorem State.addPrimary_pt (p : Primary) : (s.addPrimary p).pt = s.pt ++ [p] := rfl
@[simp] theorem State.addPrimary_st (p : Primary) : (s.addPrimary p).st = s.st := rfl
@[simp] theorem State.addPrimary_err (p : Primary) : (s.addPrimary p).err = s.err := rfl
@[simp] theorem State.addPrimary_seq (p : Primary) : (s.addPrimary p).seq = s.seq := rfl
@[simp] theorem State.addPrimary_ib (p : Primary) : (s.addPrimary p).ib = s.ib := rfl
@[simp] theorem State.addPrimary_calls (p : Primary) : (s.addPrimary p).calls = s.calls := rfl
@[simp] theorem State.addPrimary_out (p : Primary) : (s.addPrimary p).out = s.out := rfl

@[simp] theorem State.addSecondary_phase (q : Secondary) : (s.addSecondary q).phase = s.phase := rfl
@[simp] theorem State.addSecondary_pt (q : Secondary) : (s.addSecondary q).pt = s.pt := rfl
@[simp] theorem State.addSecondary_st (q : Secondary) : (s.addSecondary q).st = s.st ++ [q] := rfl
@[simp] theorem State.addSecondary_err (q : Secondary) : (s.addSecondary q).err = s.err := rfl
@[simp] theorem State.addSecondary_seq (q : Secondary) : (s.addSecondary q).seq = s.seq := rfl
@[simp] theorem State.addSecondary_ib (q : Secondary) : (s.addSecondary q).ib = s.ib := rfl
@[simp] theorem State.addSecondary_calls (q : Secondary) : (s.addSecondary q).calls = s.calls := rfl
@[simp] theorem State.addSecondary_out (q : Secondary) : (s.addSecondary q).out = s.out := rfl

@[simp] theorem State.enterFrozen_phase : (s.enterFrozen).phase = .frozen := rfl
@[simp] theorem State.enterFrozen_pt : (s.enterFrozen).pt = s.pt := rfl
@[simp] theorem State.enterFrozen_st : (s.enterFrozen).st = s.st := rfl
@[simp] theorem State.enterFrozen_err : (s.enterFrozen).err = s.err := rfl
@[simp] theorem State.enterFrozen_seq : (s.enterFrozen).seq = s.seq := rfl
@[simp] theorem State.enterFrozen_ib : (s.enterFrozen).ib = s.ib := rfl
@[simp] theorem State.enterFrozen_calls : (s.enterFrozen).calls = s.calls := rfl
@[simp] theorem State.enterFrozen_out : (s.enterFrozen).out = s.out := rfl

@[simp] theorem State.withSeq_phase (cs : List RegCall) : (s.withSeq cs).phase = s.phase := rfl
@[simp] theorem State.withSeq_pt (cs : List RegCall) : (s.withSeq cs).pt = s.pt := rfl
@[simp] theorem State.withSeq_st (cs : List RegCall) : (s.withSeq cs).st = s.st := rfl
@[simp] theorem State.withSeq_err (cs : List RegCall) : (s.withSeq cs).err = s.err := rfl
@[simp] theorem State.withSeq_seq (cs : List RegCall) : (s.withSeq cs).seq = some cs := rfl
@[simp] theorem State.withSeq_ib (cs : List RegCall) : (s.withSeq cs).ib = s.ib := rfl
@[simp] theorem State.withSeq_calls (cs : List RegCall) : (s.withSeq cs).calls = s.calls := rfl
@[simp] theorem State.withSeq_out (cs : List RegCall) : (s.withSeq cs).out = s.out := rfl

@[simp] theorem State.withCalls_phase (is : List Instr) : (s.withCalls is).phase = s.phase := rfl
@[simp] theorem State.withCalls_pt (is : List Instr) : (s.withCalls is).pt = s.pt := rfl
@[simp] theorem State.withCalls_st (is : List Instr) : (s.withCalls is).st = s.st := rfl
@[simp] theorem State.withCalls_err (is : List Instr) : (s.withCalls is).err = s.err := rfl
@[simp] theorem State.withCalls_seq (is : List Instr) : (s.withCalls is).seq = s.seq := rfl
@[simp] theorem State.withCalls_ib (is : List Instr) : (s.withCalls is).ib = s.ib := rfl
@[simp] theorem State.withCalls_calls (is : List Instr) : (s.withCalls is).calls = is := rfl
@[simp] theorem State.withCalls_out (is : List Instr) : (s.withCalls is).out = s.out := rfl

@[simp] theorem State.present_phase (ib : List Byte) : (s.present ib).phase = s.phase := rfl
@[simp] theorem State.present_pt (ib : List Byte) : (s.present ib).pt = s.pt := rfl
@[simp] theorem State.present_st (ib : List Byte) : (s.present ib).st = s.st := rfl
@[simp] theorem State.present_err (ib : List Byte) : (s.present ib).err = s.err := rfl
@[simp] theorem State.present_seq (ib : List Byte) : (s.present ib).seq = s.seq := rfl
@[simp] theorem State.present_ib (ib : List Byte) : (s.present ib).ib = ib := rfl
@[simp] theorem State.present_calls (ib : List Byte) : (s.present ib).calls = s.calls := rfl
@[simp] theorem State.present_out (ib : List Byte) : (s.present ib).out = s.out := rfl

@[simp] theorem State.raise_table (e : RegistrationError) : (s.raise e).table = s.table := rfl
@[simp] theorem State.answer_table (r : Result) : (s.answer r).table = s.table := rfl
@[simp] theorem State.enterFrozen_table : (s.enterFrozen).table = s.table := rfl
@[simp] theorem State.withSeq_table (cs : List RegCall) : (s.withSeq cs).table = s.table := rfl
@[simp] theorem State.withCalls_table (is : List Instr) : (s.withCalls is).table = s.table := rfl
@[simp] theorem State.present_table (ib : List Byte) : (s.present ib).table = s.table := rfl

@[simp] theorem State.table_pt : s.table.pt = s.pt := rfl
@[simp] theorem State.table_st : s.table.st = s.st := rfl
@[simp] theorem State.withSeq_remaining (cs : List RegCall) : (s.withSeq cs).remaining = cs := rfl
@[simp] theorem State.answer_answer (r r' : Result) : (s.answer r).answer r' = s.answer r' := rfl

theorem State.answer_eq (r : Result) : s.answer r = { s with out := r } := rfl
theorem State.raise_eq (e : RegistrationError) : s.raise e = { s with err := some e, phase := .failed } := rfl

end Sys2Proof.Machine
end

