-- ==== Sys2Proof/Laws/Ops.lean ====
section
/-! SUPPORT. What each shared operation can do, said once: the phase conditions, registration, the freeze, start-up, and
`exec` itself. -/

namespace Sys2Proof.Machine

variable {s s' t : State}

theorem whileFrozen_eq_next : whileFrozen s t = .next s' ↔ s.phase = .frozen ∧ s' = t := by
  unfold whileFrozen; split <;> simp_all [eq_comm]

theorem whileRegistering_eq_next : whileRegistering s t = .next s' ↔ s.phase = .registering ∧ s' = t := by
  unfold whileRegistering; split <;> simp_all [eq_comm]

theorem whileLive_eq_next : whileLive s t = .next s' ↔ s.phase ≠ .failed ∧ s' = t := by
  unfold whileLive; split <;> simp_all [eq_comm]

@[simp] theorem whileFrozen_of_frozen (h : s.phase = .frozen) : whileFrozen s t = .next t := by
  simp [whileFrozen, h]

@[simp] theorem whileRegistering_of_registering (h : s.phase = .registering) : whileRegistering s t = .next t := by
  simp [whileRegistering, h]

@[simp] theorem whileLive_of_live (h : s.phase ≠ .failed) : whileLive s t = .next t := by
  simp [whileLive, h]

theorem whileFrozen_of_not (h : s.phase ≠ .frozen) :
    whileFrozen s t = .refused (.wrongPhase .frozen s.phase) := by
  simp [whileFrozen, h]

theorem whileRegistering_of_not (h : s.phase ≠ .registering) :
    whileRegistering s t = .refused (.wrongPhase .registering s.phase) := by
  simp [whileRegistering, h]

theorem whileLive_of_failed (h : s.phase = .failed) :
    whileLive s t = .refused (.wrongPhase .live .failed) := by
  simp [whileLive, h]

/-- `registerPrimary` raises, or appends exactly one entry. -/
theorem registerPrimary_cases (s : State) (m : Str) (o : Byte) (ti d : Str) :
    (s.pt.any (·.mnemonic == m) = true ∧ s.registerPrimary m o ti d = s.raise (.duplicatePrimaryMnemonic m)) ∨
    (s.pt.any (·.mnemonic == m) = false ∧ s.registerPrimary m o ti d = s.addPrimary ⟨m, o, ti, d⟩) := by
  unfold State.registerPrimary; cases h : s.pt.any (·.mnemonic == m) <;> simp

/-- `registerSecondary` raises one of two errors, or appends exactly one entry with the parsed layout. -/
theorem registerSecondary_cases (s : State) (k : Str) (p : Byte) (l : Str) (n : AddressingModeId) :
    (s.st.any (·.key == k) = true ∧ s.registerSecondary k p l n = s.raise (.duplicateSecondaryKey k)) ∨
    (s.st.any (·.key == k) = false ∧ parseTemplate l = none ∧
      s.registerSecondary k p l n = s.raise (.malformedLayout k)) ∨
    (s.st.any (·.key == k) = false ∧ ∃ L, parseTemplate l = some L ∧
      s.registerSecondary k p l n = s.addSecondary ⟨k, p, n, L⟩) := by
  unfold State.registerSecondary
  cases h : s.st.any (·.key == k) <;> cases hl : parseTemplate l <;> simp

/-- `freeze` enters `FROZEN` when the self-test finds nothing, else raises what it finds. -/
theorem freezeTable_cases (s : State) :
    (selfTest s.table = none ∧ s.freezeTable = s.enterFrozen) ∨
    (∃ c w, selfTest s.table = some (c, w) ∧ s.freezeTable = s.raise (.selfTestFailed c w)) := by
  unfold State.freezeTable
  cases h : selfTest s.table with
  | none => exact .inl ⟨rfl, rfl⟩
  | some cw => exact .inr ⟨cw.1, cw.2, rfl, rfl⟩

/-- Without a `PACK_COMPILE` an operator with a partial header passes the round-trip check (R163). -/
theorem entryRoundtrip_none_of_partial {q : Secondary} (h : subOpBits q.layout ≠ 8) : entryRoundtrip none q = true := by
  simp [entryRoundtrip, h]

/-- The outputs carry an operator exactly for a decoded verdict (R166; log 27). -/
theorem portsOf_opSel_isSome (T : Table) (r : DecodeResult) :
    (portsOf T r).opSel.isSome = true ↔ ∃ d, r = .decoded d := by
  cases r <;> simp [portsOf, kindOnly]

/-- A registration call of `REGSEQ` as an instruction has the effect `perform` gives it. -/
theorem exec_regCall (c : RegCall) (s : State) : exec c.instr s = whileRegistering s (s.perform c) := by
  cases c <;> rfl

/-- A registration call leaves the ports and the sequencer alone. -/
@[simp] theorem State.perform_seq (s : State) (c : RegCall) : (s.perform c).seq = s.seq := by
  cases c with
  | primary m p ti d =>
    obtain ⟨-, h⟩ | ⟨-, h⟩ := registerPrimary_cases s m p ti d <;> simp [State.perform, h]
  | secondary k p l n =>
    obtain ⟨-, h⟩ | ⟨-, -, h⟩ | ⟨-, L, -, h⟩ := registerSecondary_cases s k p l n <;> simp [State.perform, h]

/-- WHAT AN INSTRUCTION CAN DO: every operation that gives a next state either answers, and then changes `out` alone in a
block that has not failed, or is one of the start-up operations in `REGISTERING`. -/
theorem exec_next_cases {i : Instr} (h : exec i s = .next s') :
    (s.phase ≠ .failed ∧ ∃ r, s' = s.answer r) ∨
    (s.phase = .registering ∧
      ((∃ c : RegCall, i = c.instr ∧ s' = s.perform c) ∨ (∃ cs, i = .startup cs ∧ s' = runStartup cs s) ∨
        (i = .freeze ∧ s' = s.freezeTable))) := by
  have frozen {r : Result} (h : whileFrozen s (s.answer r) = .next s') :
      s.phase ≠ .failed ∧ ∃ r, s' = s.answer r := by
    obtain ⟨hp, rfl⟩ := whileFrozen_eq_next.1 h; exact ⟨by simp [hp], r, rfl⟩
  have live {r : Result} (h : whileLive s (s.answer r) = .next s') :
      s.phase ≠ .failed ∧ ∃ r, s' = s.answer r := by
    obtain ⟨hp, rfl⟩ := whileLive_eq_next.1 h; exact ⟨hp, r, rfl⟩
  cases i with
  | registerPrimary m o ti d =>
    obtain ⟨hp, rfl⟩ := whileRegistering_eq_next.1 h
    exact .inr ⟨hp, .inl ⟨.primary m o ti d, rfl, rfl⟩⟩
  | registerSecondary k p l n =>
    obtain ⟨hp, rfl⟩ := whileRegistering_eq_next.1 h
    exact .inr ⟨hp, .inl ⟨.secondary k p l n, rfl, rfl⟩⟩
  | startup cs =>
    obtain ⟨hp, rfl⟩ := whileRegistering_eq_next.1 h
    exact .inr ⟨hp, .inr (.inl ⟨cs, rfl, rfl⟩)⟩
  | freeze =>
    obtain ⟨hp, rfl⟩ := whileRegistering_eq_next.1 h
    exact .inr ⟨hp, .inr (.inr ⟨rfl, rfl⟩)⟩
  | nameOf req => cases req <;> exact .inl (live h)
  | template req => cases req <;> exact .inl (live h)
  | resolve _ | groupOf _ | resolveFloat _ | isSpecialRegister _ | parseShape _ | printShape _ | wfLayout _
  | compileLayout _ _ | packCompile _ _ | catalogLookup _ => exact .inl (live h)
  | nop | ld | add | sub | and | div | addRN _ _ | addRR _ _ _ | secondary _ _ _ | primaryOnly _ | primaryOpcodeOf _
  | formatOf _ | matchShape _ _ | secondariesOf _ | primaryByCode _ | primaryByMnemonic _ | fieldPositions _ _ | hdr _
  | matchesRaw _ _ | decodeSecondary _ _ | extractField _ _ _ | splitIndirect _ _ _ | decodeInstr _
  | encodeInstr _ _ | consistent _ => exact .inl (frozen h)

end Sys2Proof.Machine
end

