-- ==== Sys2Proof/Laws/PerInstr.lean ====
section
/-! SUPPORT. The family `EncodedForm`, stated of every instruction as syntax: what has an encoding has at least the primary
opcode byte (R52), and the block's operations have no encoding at all (spec/opcode_table.json). -/

namespace Sys2Proof.Laws.EncodedForm

open Machine

/-- The rows of the opcode table that name encodings. -/
def isEncoding : Instr → Bool
  | .nop | .ld | .add | .sub | .and | .div | .addRN _ _ | .addRR _ _ _ | .secondary _ _ _ | .primaryOnly _ => true
  | _ => false

/-- An instruction's bytes are not empty, and only the encoding rows have bytes. -/
def Statement (i : Instr) : Prop :=
  ∀ (T : Table) (bs : List Byte), encode T i = some bs → 1 ≤ bs.length ∧ isEncoding i = true

theorem family_length {T : Table} {m : Str} {bs : List Byte} (h : encodeFamily T m = some bs) : 1 ≤ bs.length := by
  obtain ⟨p, -, rfl⟩ := Option.map_eq_some_iff.1 h; simp

theorem operator_length {T : Table} {k : Str} {vs : List Nat} {bs : List Byte}
    (h : encodeOperator T k vs = some bs) : 1 ≤ bs.length := by
  unfold encodeOperator at h
  split at h
  · unfold Machine.encodeInstr at h
    split at h
    · cases h
    · split at h
      · cases h
      · cases h; simp
  · cases h

theorem nop : Statement (.nop) := by intro T bs h; cases h; exact ⟨le_rfl, rfl⟩
theorem ld : Statement (.ld) := fun _ _ h => ⟨family_length h, rfl⟩
theorem add : Statement (.add) := fun _ _ h => ⟨family_length h, rfl⟩
theorem sub : Statement (.sub) := fun _ _ h => ⟨family_length h, rfl⟩
theorem and : Statement (.and) := fun _ _ h => ⟨family_length h, rfl⟩
theorem div : Statement (.div) := fun _ _ h => ⟨family_length h, rfl⟩
theorem addRN (a : BitVec 5) (b : Byte) : Statement (.addRN a b) := fun _ _ h => ⟨operator_length h, rfl⟩
theorem addRR (a b : BitVec 5) (l : Bool) : Statement (.addRR a b l) := fun _ _ h => ⟨operator_length h, rfl⟩
theorem secondary (k : Str) (vs : List Nat) (l : Bool) : Statement (.secondary k vs l) := fun _ _ h => ⟨operator_length h, rfl⟩
theorem primaryOnly (m : Str) : Statement (.primaryOnly m) := fun _ _ h => ⟨family_length h, rfl⟩
theorem resolve (n : Str) : Statement (.resolve n) := fun _ _ h => nomatch h
theorem groupOf (n : Str) : Statement (.groupOf n) := fun _ _ h => nomatch h
theorem resolveFloat (n : Str) : Statement (.resolveFloat n) := fun _ _ h => nomatch h
theorem isSpecialRegister (n : Str) : Statement (.isSpecialRegister n) := fun _ _ h => nomatch h
theorem nameOf (r : NameRequest) : Statement (.nameOf r) := fun _ _ h => nomatch h
theorem parseShape (n : Str) : Statement (.parseShape n) := fun _ _ h => nomatch h
theorem printShape (x : List OperandShape) : Statement (.printShape x) := fun _ _ h => nomatch h
theorem template (r : TemplateRequest) : Statement (.template r) := fun _ _ h => nomatch h
theorem wfLayout (L : BitLayout) : Statement (.wfLayout L) := fun _ _ h => nomatch h
theorem compileLayout (H : List Tag) (x : List OperandShape) : Statement (.compileLayout H x) := fun _ _ h => nomatch h
theorem packCompile (H : List Tag) (x : List OperandShape) : Statement (.packCompile H x) := fun _ _ h => nomatch h
theorem catalogLookup (n : Str) : Statement (.catalogLookup n) := fun _ _ h => nomatch h
theorem registerPrimary (m : Str) (o : Byte) (t d : Str) : Statement (.registerPrimary m o t d) := fun _ _ h => nomatch h
theorem registerSecondary (k : Str) (p : Byte) (l : Str) (n : AddressingModeId) : Statement (.registerSecondary k p l n) := fun _ _ h => nomatch h
theorem primaryOpcodeOf (m : Str) : Statement (.primaryOpcodeOf m) := fun _ _ h => nomatch h
theorem formatOf (k : Str) : Statement (.formatOf k) := fun _ _ h => nomatch h
theorem matchShape (m : Str) (x : List OperandShape) : Statement (.matchShape m x) := fun _ _ h => nomatch h
theorem secondariesOf (p : Byte) : Statement (.secondariesOf p) := fun _ _ h => nomatch h
theorem primaryByCode (c : Byte) : Statement (.primaryByCode c) := fun _ _ h => nomatch h
theorem primaryByMnemonic (m : Str) : Statement (.primaryByMnemonic m) := fun _ _ h => nomatch h
theorem fieldPositions (L : BitLayout) (X : Letter) : Statement (.fieldPositions L X) := fun _ _ h => nomatch h
theorem hdr (L : BitLayout) : Statement (.hdr L) := fun _ _ h => nomatch h
theorem matchesRaw (q : Secondary) (r : Byte) : Statement (.matchesRaw q r) := fun _ _ h => nomatch h
theorem decodeSecondary (p r : Byte) : Statement (.decodeSecondary p r) := fun _ _ h => nomatch h
theorem extractField (L : BitLayout) (lb : List Byte) (X : Letter) : Statement (.extractField L lb X) := fun _ _ h => nomatch h
theorem splitIndirect (b : Inner) (d : Disp) (v : Nat) : Statement (.splitIndirect b d v) := fun _ _ h => nomatch h
theorem decodeInstr (ib : List Byte) : Statement (.decodeInstr ib) := fun _ _ h => nomatch h
theorem encodeInstr (q : Secondary) (vs : List Nat) : Statement (.encodeInstr q vs) := fun _ _ h => nomatch h
theorem consistent (T : Table) : Statement (.consistent T) := fun _ _ h => nomatch h
theorem startup (cs : List RegCall) : Statement (.startup cs) := fun _ _ h => nomatch h
theorem freeze : Statement (.freeze) := fun _ _ h => nomatch h

end Sys2Proof.Laws.EncodedForm
end

