-- ==== Sys2Proof/Laws/Step.lean ====
section
/-! SUPPORT. What one step can do, said once. -/

namespace Sys2Proof.Machine

variable {s s' : State}

theorem step_failed (h : s.phase = .failed) : step s = .fault .blockFailed := by simp [step, h]

theorem step_call {c : RegCall} {cs : List RegCall} (h : s.phase = .registering) (hc : s.remaining = c :: cs) :
    step s = exec c.instr (s.withSeq cs) := by simp [step, h, hc]

theorem step_freeze (h : s.phase = .registering) (hc : s.remaining = []) : step s = exec .freeze (s.withSeq []) := by
  simp [step, h, hc]

theorem step_waiting {i : Instr} {is : List Instr} (h : s.phase = .frozen) (hc : s.calls = i :: is) :
    step s = exec i (s.withCalls is) := by simp [step, h, hc]

theorem step_port (h : s.phase = .frozen) (hc : s.calls = []) : step s = exec (fetchInstr s) s := by
  simp [step, h, hc]

/-- A step that gives a next state performed a registration call, froze or failed to freeze the table, or answered. -/
theorem step_next_cases (h : step s = .next s') :
    (s.phase = .registering ∧ ∃ c cs, s.remaining = c :: cs ∧ s' = (s.withSeq cs).perform c) ∨
    (s.phase = .registering ∧ s.remaining = [] ∧ s' = (s.withSeq []).freezeTable) ∨
    (s.phase = .frozen ∧ ∃ cs r, s' = (s.withCalls cs).answer r) := by
  cases hp : s.phase with
  | failed => simp [step_failed hp] at h
  | registering =>
    cases hr : s.remaining with
    | nil =>
      rw [step_freeze hp hr] at h
      exact .inr (.inl ⟨rfl, rfl, (whileRegistering_eq_next.1 h).2⟩)
    | cons c cs =>
      rw [step_call hp hr, exec_regCall] at h
      exact .inl ⟨rfl, c, cs, rfl, (whileRegistering_eq_next.1 h).2⟩
  | frozen =>
    cases hc : s.calls with
    | nil =>
      rw [step_port hp hc] at h
      obtain ⟨-, r, rfl⟩ | ⟨h', -⟩ := exec_next_cases h
      · exact .inr (.inr ⟨rfl, s.calls, r, rfl⟩)
      · simp [hp] at h'
    | cons i is =>
      rw [step_waiting hp hc] at h
      obtain ⟨-, r, rfl⟩ | ⟨h', -⟩ := exec_next_cases h
      · exact .inr (.inr ⟨rfl, is, r, rfl⟩)
      · simp [hp] at h'

end Sys2Proof.Machine
end

