-- ==== Sys2Proof/Tests/Slice0.lean ====
section
/-! SUPPORT. The model's own tests. Expected results are the vectors of spec/95_test_vectors.md (its section or program is named)
or are worked by hand from the rule named; then, for every statement with hypotheses, a state that meets them. -/

namespace Sys2Proof.Tests

-- One thread: a thread for each theorem would ask for more stack than the check allows.
set_option Elab.async false

open Machine

/-! ### Helpers -/

def txt (s : String) : Str := s.toList

/-- A template the tests write out; the empty layout if it did not parse. -/
def lay (s : String) : BitLayout := (parseTemplate (txt s)).getD []

def prim (m : String) (p : Nat) : Primary := ⟨txt m, BitVec.ofNat 8 p, [], []⟩

def sec (k : String) (p n : Nat) (l : String) : Secondary := ⟨txt k, BitVec.ofNat 8 p, n, lay l⟩

/-- A table in the manner of P1 and of `T_lit` (section 2.7): a literal-extended header, the document's layout, and literals after
byte 0. -/
def tableA : Table where
  pt := [prim "NOP" 0, prim "LD" 1, prim "ADD" 2, prim "SUB" 3]
  st := [sec "LD rr,n" 1 1 "oo1AAAAA BBBBBBBB", sec "ADD r,n" 2 0x10 "oooooooo uuuAAAAA BBBBBBBB",
         sec "ADD r,r" 2 0x11 "oooooooo uuuAAAAA 101BBBBB"]

def frozenA : State := { State.reset with phase := .frozen, pt := tableA.pt, st := tableA.st, seq := some [] }

/-- A table whose families have no secondary operator. -/
def frozenBare : State :=
  { State.reset with
    phase := .frozen
    pt := [prim "NOP" 0, prim "LD" 1, prim "ADD" 2, prim "SUB" 3, prim "AND" 4, prim "DIV" 5, prim "PUSH" 9] }

def failedState : State := State.reset.raise (.duplicatePrimaryMnemonic (txt "ADD"))

def registeringAt (calls : List RegCall) : State := { State.reset with seq := some calls }

def outOf : Answer → Option Result
  | .next s => some s.out
  | _ => none

def phaseOf : Answer → Option Phase
  | .next s => some s.phase
  | _ => none

def errOf : Answer → Option (Option RegistrationError)
  | .next s => some s.err
  | _ => none

def isNext : Answer → Bool
  | .next _ => true
  | _ => false

theorem exists_next {o : Answer} (h : isNext o = true) : ∃ t, o = .next t := by
  cases o with
  | next t => exact ⟨t, rfl⟩
  | fault _ => cases h
  | refused _ => cases h

def isDecoded : DecodeResult → Bool
  | .decoded _ => true
  | _ => false

theorem exists_decoded {r : DecodeResult} (h : isDecoded r = true) : ∃ d, r = .decoded d := by
  cases r with
  | decoded d => exact ⟨d, rfl⟩
  | primaryOnly _ | illegalPrimary _ | illegalSecondary _ _ | truncated _ => cases h

/-! ### The words of the encoding rows, written from the spec, decode to their instruction -/

theorem test_decode_nop : decodeTableWord 8 0 = some .nop := by decide +kernel
theorem test_decode_other_byte : decodeTableWord 8 0x07 = none := by decide +kernel
theorem test_decode_ld : decode frozenBare.table [0x01] = .ok .ld := by decide +kernel
theorem test_decode_add : decode frozenBare.table [0x02, 0xFF] = .ok .add := by decide +kernel
theorem test_decode_sub : decode frozenBare.table [0x03] = .ok .sub := by decide +kernel
theorem test_decode_and : decode frozenBare.table [0x04] = .ok .and := by decide +kernel
theorem test_decode_div : decode frozenBare.table [0x05] = .ok .div := by decide +kernel
theorem test_decode_primaryOnly : decode frozenBare.table [0x09] = .ok (.primaryOnly (txt "PUSH")) := by decide +kernel
/-- R154's example: the three don't-care bits and the byte after the instruction do not matter. -/
theorem test_decode_addRN : decode tableA [0x02, 0x10, 0xE3, 0x7F, 0x99] = .ok (.addRN 3 0x7F) := by decide +kernel
/-- `T_lit`, section 2.7: `10100100` is the literals 101 and B = 4. -/
theorem test_decode_addRR : decode tableA [0x02, 0x11, 0x03, 0xA4] = .ok (.addRR 3 4 true) := by decide +kernel
theorem test_decode_addRR_literals : decode tableA [0x02, 0x11, 0x03, 0x04] = .ok (.addRR 3 4 false) := by decide +kernel
/-- P1: `01 63 7F` is LD rr,n with A = 3, B = 0x7F. -/
theorem test_decode_secondary : decode tableA [0x01, 0x63, 0x7F] = .ok (.secondary (txt "LD rr,n") [3, 0x7F] true) := by
  decide +kernel
theorem test_decode_rejects : decode tableA [0x01, 0x20] = .error (.illegalSecondary 0x01 0x20) := by decide +kernel
theorem test_decode_truncated : decode tableA [0x02, 0x10, 0x03] = .error (.truncated 4) := by decide +kernel
theorem test_encode_addRN : encode tableA (.addRN 3 0x7F) = some [0x02, 0x10, 0x03, 0x7F] := by decide +kernel
theorem test_step_runs_fetched_nop :
    outOf (step (State.reset.withFetchWord 8 0)) = some (.decode (.primaryOnly nopPrimary)) := by decide +kernel

/-! ### The instruction rows -/

theorem test_nop_primaryOnly : outOf (exec .nop frozenA) = some (.decode (.primaryOnly (prim "NOP" 0))) := by decide +kernel
theorem test_ld_has_secondaries : outOf (exec .ld frozenA) = some (.decode (.truncated 2)) := by decide +kernel
theorem test_ld_alone : outOf (exec .ld frozenBare) = some (.decode (.primaryOnly (prim "LD" 1))) := by decide +kernel
theorem test_add_alone : outOf (exec .add frozenBare) = some (.decode (.primaryOnly (prim "ADD" 2))) := by decide +kernel
theorem test_sub_alone : outOf (exec .sub frozenA) = some (.decode (.primaryOnly (prim "SUB" 3))) := by decide +kernel
theorem test_and_unregistered : outOf (exec .and frozenA) = some (.primary none) := by decide +kernel
theorem test_div_alone : outOf (exec .div frozenBare) = some (.decode (.primaryOnly (prim "DIV" 5))) := by decide +kernel
theorem test_primaryOnly_alone :
    outOf (exec (.primaryOnly (txt "PUSH")) frozenBare) = some (.decode (.primaryOnly (prim "PUSH" 9))) := by decide +kernel
/-- R154's example. -/
theorem test_addRN_record : outOf (exec (.addRN 3 0x7F) frozenA) = some (.decode (.decoded {
    primary := prim "ADD" 2, op := sec "ADD r,n" 2 0x10 "oooooooo uuuAAAAA BBBBBBBB", len := 4,
    fields := [⟨0, 3, 5⟩, ⟨1, 0x7F, 8⟩], operands := some [.reg 3 .w1 true, .imm 0x7F .w1], literalsOk := true })) := by
  decide +kernel
/-- P1, `02 11 1A 1F`: indices 26 and 31 are flagged. -/
theorem test_addRR_out_of_range : outOf (exec (.addRR 26 31 false) frozenA) = some (.decode (.decoded {
    primary := prim "ADD" 2, op := sec "ADD r,r" 2 0x11 "oooooooo uuuAAAAA 101BBBBB", len := 4,
    fields := [⟨0, 26, 5⟩, ⟨1, 31, 5⟩], operands := some [.reg 26 .w1 false, .reg 31 .w1 false],
    literalsOk := false })) := by decide +kernel
theorem test_secondary_too_wide : outOf (exec (.secondary (txt "LD rr,n") [32, 0] true) frozenA) = some (.bytes none) := by
  decide +kernel
theorem test_secondary_wrong_phase :
    exec (.secondary (txt "LD rr,n") [3, 0] true) State.reset = .refused (.wrongPhase .frozen .registering) := by rfl

/-! ### Register Namespace (section 2.1) -/

theorem test_resolve_wraps :
    [resolve (txt "ZA"), resolve (txt "YZAB"), resolve (txt "XYZA"), resolve (txt "FG")] = [some 25, some 24, some 23, some 5] := by
  decide +kernel
theorem test_resolve_fails : ["ABCDE", "", "AC", "BA", "AA", "AZ", "ab", "Ab", "A1", " A", "SPC", "SPR", "IPO", "FR"].all
    (fun n => resolve (txt n) == none) = true := by decide +kernel
theorem test_groupOf_members : groupOf (txt "XYZA") = some (23, .w4) ∧ groupMembers 23 .w4 = [23, 24, 25, 0] := by
  decide +kernel
theorem test_resolveFloat : ["F0", "F9", "F10", "FR15"].map (fun n => resolveFloat (txt n)) = [some 0, some 9, some 10, some 15] := by
  decide +kernel
theorem test_resolveFloat_fails : ["F16", "FR16", "F99", "F", "FR", "F07", "F00", "F007", "F100", "F1A", "FRA", "F-1", "f3", "Fr3", "A", ""].all
    (fun n => resolveFloat (txt n) == none) = true := by decide +kernel
theorem test_isSpecialRegister : ["SPC", "SPR", "IPO", "SP", "spc", "PC", ""].map (fun n => isSpecialRegister (txt n)) =
    [true, true, true, false, false, false, false] := by decide +kernel
theorem test_nameOf : nameOfGroup 25 .w3 = some (txt "ZAB") ∧ nameOfGroup 26 .w1 = none ∧ nameOfFloat 12 = txt "F12" := by
  decide +kernel
/-- R74, R72: 104 group names, 32 float names, each resolving. -/
theorem test_name_counts : allGroupNames.length = 104 ∧ allFloatNames.length = 32 ∧
    allGroupNames.all (fun n => (resolve n).isSome) = true ∧ allFloatNames.all (fun n => (resolveFloat n).isSome) = true := by
  decide +kernel

/-! ### Shapes, templates, layouts (sections 2.2, 2.3) -/

theorem test_parseShape : parseShape (txt "(nnn,rrr),rrrr") =
    some [.memoryIndirect (.address .w3) (.group .w3), .registerGroup .w4] := by decide +kernel
theorem test_parseShape_fails : ["rrrrr", "nnnnn", "f", "frr", "rf", "()", "(,)", "(nnn,)", "(fr)", "(nnn,fr)", "((nnn))", "((nnn),r)",
    "(nnn,r,r)", "(nnn", "nnn)", ")(", "rn", "r,,r", ",r", "r,", ",", "r, r", "R,R", "r3"].all
    (fun s => parseShape (txt s) == none) = true := by decide +kernel
theorem test_printShape : printShape [.memoryIndirect (.group .w3) (.immediate .w2), .floatRegister] = txt "(rrr,nn),fr" := by
  decide +kernel
theorem test_operand_count_bound :
    (parseShape (printShape (List.replicate 26 (.registerGroup .w1)))).isSome = true ∧
    parseShape (printShape (List.replicate 27 (.registerGroup .w1))) = none := by decide +kernel
theorem test_parseTemplate_fails : ["", "oooooooo ", "oooooooo  uuuAAAAA", "oooooooo uuuAAAA", "oooooooo uuuaaaaa"].all
    (fun s => parseTemplate (txt s) == none) = true := by decide +kernel
/-- P5's layouts: each fails the check the program names, or none. -/
theorem test_wfLayout : wfLayout (lay "oooooooo uuuAAAAA BBBBBBBB") = true ∧
    wfCheck (lay "o0oAAAAA BBBBBBBB") .headerForm = false ∧ wfCheck (lay "oooooooo uuuAAAAA ooooBBBB") .opOnlyInByte0 = false ∧
    wfCheck (lay "oooooooo uuuBBBBB AAAAAAAA") .lettersOrdered = false ∧
    wfCheck (lay "oooooooo uuuAAAAA CCCCCCCC") .lettersDense = false := by decide +kernel
/-- R110 and section 2.3. -/
theorem test_compileLayout :
    (compileLayout (List.replicate 8 .op) [.registerGroup .w1, .memoryIndirect (.address .w3) (.group .w3)]).map printTemplate =
      some (txt "oooooooo uuuAAAAA BBBBBBBB BBBBBBBB BBBBBBBB uuuBBBBB") ∧
    (compileLayout [.op, .op, .op, .op, .op, .lit1, .lit1, .lit0] [.floatRegister, .memoryIndirect (.group .w2) (.immediate .w2)]).map
      printTemplate = some (txt "ooooo110 uuuuAAAA uuuBBBBB BBBBBBBB BBBBBBBB") := by decide +kernel
theorem test_compileLayout_fails : compileLayout (List.replicate 9 .op) [.registerGroup .w1] = none ∧
    compileLayout [.op, .lit0, .op, .lit0, .lit0, .lit0, .lit0, .lit0] [.registerGroup .w1] = none := by decide +kernel
/-- R108: a packing that breaks a condition is not a result; one that keeps them is (`LD rr,n` of P1). -/
theorem test_packCompile : packCompileWith (fun _ _ => some (lay "oo1AAAAA BBBBBBBB")) [.op, .op, .lit1]
      [.registerGroup .w2, .immediate .w1] = some (lay "oo1AAAAA BBBBBBBB") ∧
    packCompileWith (fun _ _ => some (lay "oo1AAAAA BBBBBBBB")) [.op, .op, .lit1] [.registerGroup .w2, .immediate .w2] = none := by
  decide +kernel
/-- Section 2.4: `CAT_al` is lawful; `CAT_bad` is not. -/
theorem test_catalog_aliases : aliasAllowed (fun _ _ => none) (txt "r,rr") (txt "rrrr,r") = true ∧
    lawfulCatalog (fun _ _ => none) [(txt "r,r", 7), (txt "r,n", 7)] = [(txt "r,r", 7)] := by decide +kernel

/-! ### Registration, lookup, start-up (section 2.5, P3 to P5) -/

def addRR : RegCall := .secondary (txt "ADD r,r") 2 (txt "oooooooo uuuAAAAA uuuBBBBB") 0x11

/-- P3: the same key again is fatal. -/
theorem test_registerPrimary_duplicate :
    errOf (exec (.registerPrimary (txt "ADD") 9 [] []) { State.reset with pt := [prim "ADD" 2] }) =
      some (some (.duplicatePrimaryMnemonic (txt "ADD"))) := by decide +kernel
theorem test_registerSecondary_duplicate_first :
    errOf (exec (.registerSecondary (txt "ADD r,r") 2 (txt "oooooooo uuuAAAA") 0x11)
      { State.reset with st := [sec "ADD r,r" 2 0x11 "oooooooo uuuAAAAA uuuBBBBB"] }) =
      some (some (.duplicateSecondaryKey (txt "ADD r,r"))) := by decide +kernel
theorem test_registerSecondary_malformed :
    errOf (exec (.registerSecondary (txt "X r,n") 9 (txt "oooooooo uuuAAAA BBBBBBBB") 1) State.reset) =
      some (some (.malformedLayout (txt "X r,n"))) := by decide +kernel
theorem test_primaryOpcodeOf_fallback :
    [primaryOpcodeOf tableA (txt "ADD"), primaryOpcodeOf tableA (txt "NOSUCHOP"), primaryOpcodeOf tableA (txt "add")] = [2, 0, 0] := by
  decide +kernel
theorem test_formatOf : (formatOf tableA (txt "ADD r,n")).map printTemplate = some (txt "oooooooo uuuAAAAA BBBBBBBB") ∧
    formatOf tableA (txt "ADD") = none ∧ formatOf tableA (txt "ADD r, n") = none := by decide +kernel
theorem test_matchShape_no_widening :
    (matchShape tableA (txt "ADD") [.registerGroup .w1, .immediate .w1]).map Secondary.amid = some 0x10 ∧
    matchShape tableA (txt "ADD") [.registerGroup .w1, .immediate .w2] = none := by decide +kernel
theorem test_secondariesOf : (secondariesOf tableA 2).map Secondary.amid = [0x10, 0x11] ∧ secondariesOf tableA 4 = [] := by
  decide +kernel
theorem test_primaryByCode : primaryByCode tableA 0 = some (prim "NOP" 0) ∧ primaryByCode tableA 255 = none := by decide +kernel
theorem test_primaryByMnemonic : primaryByMnemonic tableA (txt "NOSUCHOP") = none := by decide +kernel
theorem test_fieldPositions : fieldPositions (lay "oo1AAAAA ABBBBBBB") 0 = [(0, 4), (0, 3), (0, 2), (0, 1), (0, 0), (1, 7)] := by
  decide +kernel
/-- P3 in small: the second registration is fatal, the freeze never runs. -/
theorem test_startup_fails_fast :
    errOf (exec (.startup [.primary (txt "ADD") 2 [] [], addRR, addRR]) State.reset) =
      some (some (.duplicateSecondaryKey (txt "ADD r,r"))) := by decide +kernel
theorem test_startup_freezes :
    phaseOf (exec (.startup [.primary (txt "ADD") 2 [] [], addRR]) State.reset) = some .frozen := by decide +kernel
/-- P4: both operators own 0xA0..0xBF; the witness is the pair and 0xA0. -/
theorem test_freeze_ambiguous :
    errOf (exec .freeze { State.reset with
      pt := [prim "LD" 1], st := [sec "LD r,n" 1 2 "oo1AAAAA BBBBBBBB", sec "LD r,r" 1 5 "oooAAAAA uuuBBBBB"] }) =
      some (some (.selfTestFailed .disjoint (.pair (sec "LD r,n" 1 2 "oo1AAAAA BBBBBBBB")
        (sec "LD r,r" 1 5 "oooAAAAA uuuBBBBB") 0xA0))) := by decide +kernel
/-- P5: the first failing check of five tables with primary X = 9. -/
theorem test_consistent_reports :
    [sec "X r,n" 9 4 "ooAAAAAu BBBBBBBB", sec "X r,n" 9 1 "o0oAAAAA BBBBBBBB", sec "X r,n" 9 1 "oooooooo uuuAAAAA BBBBBBBB BBBBBBBB",
      sec "Y r,n" 9 1 "oooooooo uuuAAAAA BBBBBBBB", sec "X r,n" 10 1 "oooooooo uuuAAAAA BBBBBBBB",
      sec "X r,q" 9 1 "oooooooo uuuAAAAA BBBBBBBB"].map (fun q => (selfTest ⟨[prim "X" 9], [q]⟩).map Prod.fst) =
    [some .subcodeFits, some .layoutWf, some .fieldWidths, some .keyMnemonic, some .parentRegistered, some .shapeParses] := by
  decide +kernel
theorem test_consistent_shared_opcode :
    selfTest ⟨[prim "X" 9, prim "Y" 9], []⟩ = some (.primaryOpcodeUnique, .primary (prim "X" 9)) := by decide +kernel

/-! ### Matching, extraction, encoding (sections 2.6, 2.7) -/

/-- R145's corner cases. -/
theorem test_hdr : ["oooooooo", "ooooooAA", "oo1AAAAA", "ooo10AAA", "oooooo01", "uuuAAAAA"].map (fun s => hdr (lay s)) =
    [(8, 0, 0), (6, 0, 0), (2, 1, 1), (3, 2, 2), (6, 2, 1), (0, 0, 0)] := by decide +kernel
/-- Section 2.6, its eleven rows, which tell six wrong shifts apart. -/
theorem test_matches :
    [("oo1AAAAA", 1, 0x65), ("oo1AAAAA", 1, 0xC5), ("oo1AAAAA", 1, 0x1B), ("oo1AAAAA", 1, 0x25), ("oo1AAAAA", 1, 0x45),
      ("oo1AAAAA", 1, 0x80), ("ooo10AAA", 1, 0x35), ("ooo10AAA", 1, 0x55), ("ooo10AAA", 5, 0xB5), ("ooo10AAA", 5, 0xA8),
      ("ooo10AAA", 5, 0x28)].map (fun r : String × Nat × Nat => matchesRaw (sec "X" 9 r.2.1 r.1) (BitVec.ofNat 8 r.2.2)) =
    [true, false, false, false, false, false, true, false, true, false, false] := by decide +kernel
/-- R150 and the boundaries of section 2.6: the first and last byte of each block, and one beside it. -/
theorem test_rawSet :
    [("oooooo01", 0x3F, 0xFD, 1), ("ooooooAA", 5, 0x14, 4), ("uuuAAAAA", 0, 0, 256), ("uuuAAAAA", 1, 256, 0), ("ooAAAAAA", 4, 256, 0),
      ("11111111", 0, 0xFF, 1)].all (fun r : String × Nat × Nat × Nat =>
        rawSetSize (sec "X" 9 r.2.1 r.1) == r.2.2.2 && (r.2.2.2 == 0 || rawSetStart (sec "X" 9 r.2.1 r.1) == r.2.2.1) &&
        (allBytes.filter (matchesRaw (sec "X" 9 r.2.1 r.1))).length == r.2.2.2) = true := by decide +kernel
theorem test_decodeSecondary : (decodeSecondary tableA 1 0x7F).map Secondary.amid = some 1 ∧ decodeSecondary tableA 1 0x80 = none := by
  decide +kernel
theorem test_extractField :
    extractField (lay "ooo10AAA AAuuuuuu BBBBBBBB") [0xB5, 0x80, 0xFF] 0 = (0x16, 5) ∧
    extractField (lay "oooooooo uuuAAAAA BBBBBBBB BBBBBBBB BBBBBBBB uuuBBBBB") [0x2A, 0x01, 0x12, 0x34, 0x56, 0x07] 1 =
      (0x2468AC7, 29) := by decide +kernel
theorem test_splitIndirect : splitIndirect (.address .w3) (.group .w3) 0x2468AC7 = (0x123456, 7) ∧
    splitIndirect (.address .w4) (.immediate .w4) 0x1122334455667788 = (0x11223344, 0x55667788) ∧
    splitIndirect (.group .w2) .none 0x19 = (0x19, 0) := by decide +kernel
theorem test_typed : typedOperand (.memoryIndirect (.address .w3) (.group .w3)) 0x2468AC7 =
      .mem (.addr 0x123456 .w3) (.reg 7 .w3 true) ∧
    typedOperand (.memoryIndirect (.group .w1) .none) 30 = .mem (.reg 30 .w1 false) .none := by decide +kernel
theorem test_decodeInstr_verdicts :
    [[], [0x01], [0x01, 0x20], [0x07], [0x00, 0x55], [0x01, 0x63]].map (decodeInstr tableA) =
    [.truncated 1, .truncated 2, .illegalSecondary 1 0x20, .illegalPrimary 7, .primaryOnly (prim "NOP" 0), .truncated 3] := by
  decide +kernel
theorem test_encodeInstr : encodeInstr (sec "DIV rrrr,n" 5 5 "ooo10AAA AAuuuuuu BBBBBBBB") [22, 0xFF] = some [0x05, 0xB5, 0x80, 0xFF] ∧
    encodeInstr (sec "AND r,r" 4 0 "oooooooo uuuAAAAA 101BBBBB") [3, 4] = some [0x04, 0x00, 0x03, 0xA4] := by decide +kernel
theorem test_encodeInstr_fails : encodeInstr (sec "ADD r,n" 2 0x10 "oooooooo uuuAAAAA BBBBBBBB") [32, 0] = none ∧
    encodeInstr (sec "ADD r,n" 2 0x10 "oooooooo uuuAAAAA BBBBBBBB") [1] = none ∧
    encodeInstr (sec "X r,n" 9 4 "ooAAAAAu BBBBBBBB") [1, 1] = none := by decide +kernel
theorem test_ports : portsOf tableA (decodeInstr tableA [0x02, 0x10, 0x03, 0x7F]) =
    { kind := .decoded, primarySel := some 2, opSel := some 1, len := some 4, fields := [⟨0, 3, 5⟩, ⟨1, 0x7F, 8⟩],
      literalsOk := some true, inRange := [[true], []] } := by decide +kernel
/-- R153: a flag for each register field, base before displacement, false from 26 on. -/
theorem test_inRange_flags : [DecodedOperand.reg 26 .w1 false, .freg 3, .imm 1 .w1, .mem (.reg 25 .w2 true) (.reg 30 .w1 false),
    .mem (.addr 7 .w3) (.reg 7 .w3 true)].map operandInRange = [[false], [], [], [true, false], [true]] := by decide +kernel
theorem test_matcherPort : matcherPort tableA (txt "ADD") [.registerGroup .w1, .registerGroup .w1] = some 2 ∧
    matcherPort tableA (txt "ADD") [] = none := by decide +kernel
/-- R163: without `PACK_COMPILE` a partial header is not checked, whatever its signature; a full header is (R109). -/
theorem test_roundtrip_partial_header :
    [sec "LD rr,n" 1 1 "oo1AAAAA BBBBBBBB", sec "LD zz" 1 1 "oo1AAAAA", sec "ADD r,n" 2 1 "oooooooo uuuAAAAA BBBBBBBB",
      sec "ADD r,nn" 2 1 "oooooooo uuuAAAAA BBBBBBBB", sec "ADD zz" 2 1 "oooooooo uuuAAAAA"].map (entryRoundtrip none) =
    [true, true, true, false, false] ∧
    entryRoundtrip (some fun _ _ => none) (sec "LD rr,n" 1 1 "oo1AAAAA BBBBBBBB") = false := by decide +kernel
theorem test_fetch : fetchBytes [(7, 1), (8, 2), (10, 3)] 7 4 = [1, 2] := by decide +kernel

/-! ### WellFormed: each check refuses an ill-formed term -/

theorem test_wf_accepts : [Instr.nop, .addRN 31 255, .resolve (txt "AB"), .hdr (lay "oo1AAAAA"),
    .extractField (lay "oooooooo uuuAAAAA") [1, 2] 0].all Instr.wf = true := by decide +kernel
theorem test_wf_ascii : [Instr.resolve [Char.ofNat 233], .groupOf [Char.ofNat 233], .resolveFloat [Char.ofNat 233],
    .isSpecialRegister [Char.ofNat 233], .parseShape [Char.ofNat 233], .template (.parse [Char.ofNat 233]), .catalogLookup [Char.ofNat 233],
    .registerPrimary (txt "A") 0 [Char.ofNat 233] [], .registerPrimary (txt "A") 0 [] [Char.ofNat 233],
    .registerSecondary [Char.ofNat 233] 0 [] 0, .registerSecondary [] 0 [Char.ofNat 233] 0, .primaryOpcodeOf [Char.ofNat 233],
    .formatOf [Char.ofNat 233], .primaryByMnemonic [Char.ofNat 233], .secondary [Char.ofNat 233] [] true].all
    (fun i => !i.wf) = true := by decide +kernel
theorem test_wf_mnemonic_space : [Instr.primaryOnly (txt "A B"), .registerPrimary (txt "A B") 0 [] [], .matchShape (txt "A B") [],
    .startup [.primary (txt "A B") 0 [] []]].all (fun i => !i.wf) = true := by decide +kernel
theorem test_wf_operand_count : [Instr.secondary [] (List.replicate 27 0) true, .printShape (List.replicate 27 .floatRegister),
    .matchShape [] (List.replicate 27 .floatRegister), .packCompile [] (List.replicate 27 .floatRegister)].all
    (fun i => !i.wf) = true := by decide +kernel
theorem test_wf_header : [Instr.packCompile [.lit0, .op] [], .hdr [], .hdr (lay "o0oAAAAA"), .matchesRaw (sec "X" 9 1 "o0oAAAAA") 0,
    .encodeInstr (sec "X" 9 1 "o0oAAAAA") []].all (fun i => !i.wf) = true := by decide +kernel
theorem test_wf_whole_bytes : [Instr.template (.print [[.op]]), .hdr [List.replicate 8 .op, [.op]], .fieldPositions [[.op]] 0,
    .extractField [[.op]] [0] 0, .matchesRaw ⟨[], 0, 0, [List.replicate 8 .op, [.op]]⟩ 0,
    .consistent ⟨[], [⟨[], 0, 0, [[.op]]⟩]⟩].all (fun i => !i.wf) = true := by decide +kernel
theorem test_wf_enough_bytes : (Instr.extractField (lay "oooooooo uuuAAAAA") [1] 0).wf = false := by decide +kernel
theorem test_wf_late_op : (Instr.encodeInstr (sec "X" 9 1 "oooooooo ooooAAAA") [0]).wf = false := by decide +kernel
theorem test_wf_table : (Instr.consistent ⟨[prim "A B" 0], []⟩).wf = false := by decide +kernel
theorem test_wfIn_refuses : [Instr.ld, .and, .primaryOnly (txt "SUB"), .addRR 1 2 false, .secondary (txt "ADD r,n") [1, 2] true,
    .secondary (txt "LD rr,n") [32, 0] true, .freeze].all (fun i => !i.wfIn tableA) = true := by decide +kernel

/-! ### A state for the hypotheses of each statement -/

theorem frozenA_ready : frozenA.ready := by decide +kernel
theorem frozenBare_ready : frozenBare.ready := by decide +kernel
theorem tableA_consistent : consistent tableA = true := by decide +kernel

theorem witness_ResetStateIsNeverReturnedTo :
    atReset State.reset ∧ (∃ t, exec (.resolve (txt "A")) State.reset = .next t ∧ atReset t) ∧
      ∃ t, step (registeringAt [addRR]) = .next t :=
  ⟨⟨rfl, rfl, rfl, rfl⟩, ⟨State.reset.answer (.index (resolve (txt "A"))), rfl, ⟨rfl, rfl, rfl, rfl⟩⟩,
    exists_next (by decide +kernel)⟩

theorem witness_StepKeepsInvariant :
    (State.Inv (registeringAt [addRR]) ∧ ∃ t, step (registeringAt [addRR]) = .next t) ∧
    (frozenA.Inv ∧ ∃ t, step frozenA = .next t) ∧
    (State.reset.Inv ∧ ∃ t, exec (.startup [addRR, addRR]) State.reset = .next t) :=
  ⟨⟨by decide +kernel, exists_next (by decide +kernel)⟩, ⟨by decide +kernel, exists_next (by decide +kernel)⟩,
    ⟨by decide +kernel, exists_next (by decide +kernel)⟩⟩

theorem witness_ExceptionEntryWritesErrAndPhase :
    (∃ t, exec addRR.instr { State.reset with st := [sec "ADD r,r" 2 0x11 "oooooooo uuuAAAAA uuuBBBBB"] } = .next t ∧
      t.phase = .failed) ∧
    (∃ t, exec .freeze { State.reset with pt := [prim "X" 9, prim "Y" 9] } = .next t ∧ t.phase = .failed) := by
  constructor
  · obtain ⟨-, h⟩ | ⟨h, -⟩ | ⟨h, -⟩ := registerSecondary_cases
      { State.reset with st := [sec "ADD r,r" 2 0x11 "oooooooo uuuAAAAA uuuBBBBB"] }
      (txt "ADD r,r") 2 (txt "oooooooo uuuAAAAA uuuBBBBB") 0x11
    · refine ⟨_, rfl, ?_⟩
      rw [h]; rfl
    · exact absurd h (by decide +kernel)
    · exact absurd h (by decide +kernel)
  · obtain ⟨h, -⟩ | ⟨c, w, -, h⟩ := freezeTable_cases { State.reset with pt := [prim "X" 9, prim "Y" 9] }
    · exact absurd h (by decide +kernel)
    · refine ⟨_, rfl, ?_⟩
      rw [h]; rfl

theorem witness_FailedIsTerminal : failedState.phase = .failed := rfl

theorem witness_WrongPhaseCallsAreRefused :
    (needsFrozen (.hdr []) = true ∧ State.reset.phase ≠ .frozen) ∧ (needsRegistering .freeze = true ∧ frozenA.phase ≠ .registering) ∧
    (needsFrozen (.hdr []) = true ∧ frozenA.phase = .frozen) ∧ (needsRegistering .freeze = true ∧ State.reset.phase = .registering) := by
  decide +kernel

theorem witness_TablesOnlyGrowThenStay : (∃ t, step frozenA = .next t) ∧ frozenA.phase = .frozen :=
  ⟨exists_next (by decide +kernel), rfl⟩

theorem witness_RegisterPrimaryAppendsOrRaises : State.reset.phase = .registering ∧
    (∃ p ∈ [prim "ADD" 2], p.mnemonic = txt "ADD") ∧ (∀ p ∈ State.reset.pt, p.mnemonic ≠ txt "ADD") := by decide +kernel

theorem witness_RegisterSecondaryAppendsOrRaises : State.reset.phase = .registering ∧
    (∃ q ∈ tableA.st, q.key = txt "ADD r,r") ∧
    ((∀ q ∈ State.reset.st, q.key ≠ txt "ADD r,r") ∧ parseTemplate (txt "oooooooo uuuAAAA") = none) ∧
    ((∀ q ∈ State.reset.st, q.key ≠ txt "ADD r,r") ∧ parseTemplate (txt "oooooooo uuuAAAAA uuuBBBBB") =
      some (lay "oooooooo uuuAAAAA uuuBBBBB")) := by decide +kernel

theorem witness_FreezeFollowsTheSelfTest : State.reset.phase = .registering ∧ consistent State.reset.table = true ∧
    consistent (Table.mk [prim "X" 9, prim "Y" 9] []) = false := by decide +kernel

/-- P5's tables with a good entry before the offender, and three primaries of which the last two share: R175's witness. -/
theorem witness_FreezeFollowsTheSelfTest_offenders :
    ([sec "X r,n" 9 4 "ooAAAAAu BBBBBBBB", sec "X r,n" 9 1 "o0oAAAAA BBBBBBBB", sec "X r,n" 9 1 "oooooooo uuuAAAAA BBBBBBBB BBBBBBBB",
      sec "Y r,n" 9 1 "oooooooo uuuAAAAA BBBBBBBB", sec "X r,n" 10 1 "oooooooo uuuAAAAA BBBBBBBB",
      sec "X r,q" 9 1 "oooooooo uuuAAAAA BBBBBBBB"].zip
        [Check.subcodeFits, .layoutWf, .fieldWidths, .keyMnemonic, .parentRegistered, .shapeParses]).all (fun e =>
      selfTest ⟨[prim "X" 9], [sec "X r,r" 9 0x77 "oooooooo uuuAAAAA uuuBBBBB", e.1]⟩ == some (e.2, .secondary e.1)) = true ∧
    selfTest ⟨[prim "W" 8, prim "X" 9, prim "Y" 9], []⟩ = some (.primaryOpcodeUnique, .primary (prim "X" 9)) := by
  decide +kernel

theorem witness_DisjointWitnessIsTheFirst :
    selfTest ⟨[prim "LD" 1], [sec "LD r,n" 1 2 "oo1AAAAA BBBBBBBB", sec "LD r,r" 1 5 "oooAAAAA uuuBBBBB"]⟩ =
      some (.disjoint, .pair (sec "LD r,n" 1 2 "oo1AAAAA BBBBBBBB") (sec "LD r,r" 1 5 "oooAAAAA uuuBBBBB") 0xA0) := by
  decide +kernel

theorem witness_StartupFreezesOrFails : State.reset.phase = .registering := rfl

theorem witness_StartupFreezesAGoodSequence : State.reset.phase = .registering ∧
    (([RegCall.primary (txt "ADD") 2 [] [], addRR].filterMap offeredPrimary).map Primary.mnemonic).Nodup ∧
    (([RegCall.primary (txt "ADD") 2 [] [], addRR].filterMap offeredSecondary).map Secondary.key).Nodup ∧
    parseTemplate (txt "oooooooo uuuAAAAA uuuBBBBB") ≠ none ∧
    consistent { pt := [RegCall.primary (txt "ADD") 2 [] [], addRR].filterMap offeredPrimary,
                 st := [RegCall.primary (txt "ADD") 2 [] [], addRR].filterMap offeredSecondary } = true := by decide +kernel

theorem witness_StartupIsTheSequencersSteps : (registeringAt [addRR]).phase = .registering := rfl

theorem witness_StartupReadsOnlyItsSequence :
    State.reset.sameBlock { State.reset with ib := [1], out := .opcode 3 } ∧
    (∃ t, exec (.startup [addRR]) State.reset = .next t) ∧
    ∃ t, exec (.startup [addRR]) { State.reset with ib := [1], out := .opcode 3 } = .next t :=
  ⟨by decide +kernel, exists_next (by decide +kernel), exists_next (by decide +kernel)⟩

theorem witness_StepRunsTheDecodedInstruction :
    (frozenA.calls = [] ∧ decode frozenA.table { frozenA with ib := [0x02, 0x10, 0x03, 0x7F] }.ib = .ok (.addRN 3 0x7F)) ∧
    (decode frozenA.table frozenA.ib = .error (.truncated 1)) ∧
    ({ frozenA with calls := [.nop] }.calls = .nop :: []) ∧
    ((registeringAt [addRR]).phase = .registering ∧ (registeringAt [addRR]).remaining = addRR :: []) ∧
    (registeringAt []).remaining = [] := by decide +kernel

theorem witness_StepAnswersTheDecodeOfThePort : frozenA.ready ∧ frozenA.calls = [] := ⟨frozenA_ready, rfl⟩

theorem witness_NopByteVerdict : frozenA.phase = .frozen ∧
    primaryByCode (Table.mk [] []) 0 = none ∧
    (primaryByCode frozenA.table 0 = some (prim "NOP" 0) ∧ secondariesOf frozenA.table 0 = []) ∧
    secondariesOf (Table.mk [prim "NOP" 0] [sec "NOP" 0 0 "oooooooo"]) 0 ≠ [] := by decide +kernel

theorem witness_FamilyByteVerdict : frozenA.ready ∧
    ((Instr.and, textAND) ∈ [(Instr.ld, textLD), (.add, textADD), (.sub, textSUB), (.and, textAND), (.div, textDIV), (.primaryOnly textAND, textAND)] ∧
      ∀ p ∈ frozenA.pt, p.mnemonic ≠ textAND) ∧
    (prim "SUB" 3 ∈ frozenA.pt ∧ (prim "SUB" 3).mnemonic = textSUB ∧ ∀ q ∈ frozenA.st, q.parent ≠ (prim "SUB" 3).opcode) ∧
    (prim "ADD" 2 ∈ frozenA.pt ∧ (prim "ADD" 2).mnemonic = textADD ∧ ∃ q ∈ frozenA.st, q.parent = (prim "ADD" 2).opcode) :=
  ⟨frozenA_ready, by decide +kernel, by decide +kernel, by decide +kernel⟩

theorem witness_AddRegisterImmediateRecord : frozenA.ready ∧ frozenBare.ready ∧ (∀ q ∈ frozenBare.st, q.key ≠ keyADDrn) ∧
    ∃ q ∈ frozenA.st, q.key = keyADDrn := ⟨frozenA_ready, frozenBare_ready, by decide +kernel, by decide +kernel⟩

theorem witness_AddRegisterRegisterRecord : frozenA.ready ∧ frozenBare.ready ∧ (∀ q ∈ frozenBare.st, q.key ≠ keyADDrr) ∧
    ∃ q ∈ frozenA.st, q.key = keyADDrr := ⟨frozenA_ready, frozenBare_ready, by decide +kernel, by decide +kernel⟩

theorem witness_SecondaryRowAnswersItsBytesDecode : frozenA.ready ∧ (∀ q ∈ frozenA.st, q.key ≠ txt "LD r,r") ∧
    (∃ q ∈ frozenA.st, q.key = txt "LD rr,n" ∧ encodeInstr q [32, 0] = none) ∧
    (∃ q ∈ frozenA.st, q.key = txt "LD rr,n" ∧ encodeInstr q [3, 0x7F] = some [0x01, 0x63, 0x7F]) :=
  ⟨frozenA_ready, by decide +kernel, by decide +kernel, by decide +kernel⟩

theorem witness_NamespaceOperationsAnswer : State.reset.phase ≠ .failed := by decide
theorem witness_GrammarAndLayoutOperationsAnswer : frozenA.phase ≠ .failed := by decide
theorem witness_RegistryLookupsAnswer : frozenA.phase = .frozen := rfl
theorem witness_DecodeOperationsAnswer : frozenA.phase = .frozen ∧ wholeBytes (lay "oo1AAAAA BBBBBBBB") = true ∧
    (lay "oo1AAAAA BBBBBBBB").length ≤ [(0x63 : Byte), 0x7F].length := by decide +kernel

theorem witness_ResolveReadsLetterRuns : resolve (txt "ZABC") = some 25 ∧ groupOf (txt "ZABC") = some (25, .w4) ∧
    groupMembers 25 .w4 = [25, 0, 1, 2] := by
  decide +kernel
theorem witness_ResolveFloatReadsThirtyTwoNames : resolveFloat (txt "FR15") = some 15 ∧ resolveFloat (txt "FR15") ≠ none := by
  decide +kernel
theorem witness_SpecialRegistersAreThree : isSpecialRegister (txt "SPC") = true := by decide +kernel
theorem witness_RegisterNamesInvert : (25 : Nat) ≤ 25 ∧ 25 < (26 : Nat) := by decide
theorem witness_RegisterAliasesShareFirstLetter : resolve (txt "AB") ≠ none ∧ resolve (txt "A") ≠ none := by decide +kernel
theorem witness_TemplateRoundTrip : parseTemplate (txt "oooooooo uuuAAAAA") = some (lay "oooooooo uuuAAAAA") := by decide +kernel
theorem witness_ShapeSignatureRoundTrip : (List.replicate 26 OperandShape.floatRegister).length ≤ 26 ∧
    parseShape (txt "r,n") = some [.registerGroup .w1, .immediate .w1] := by decide +kernel
theorem fullHeader_inForm : headerInForm [.op, .op, .op, .op, .op, .op, .lit0, .lit1] :=
  ⟨by decide, 6, [.lit0, .lit1], rfl, by simp⟩
/-- A full header, a partial one, one not in form, and 27 operands. -/
theorem witness_FullHeaderCompilesToWellFormedLayout :
    (headerInForm [.op, .op, .op, .op, .op, .op, .lit0, .lit1] ∧ [Tag.op, .op, .op, .op, .op, .op, .lit0, .lit1].length = 8 ∧
      (List.replicate 26 OperandShape.floatRegister).length ≤ 26) ∧
    (headerInForm [.op, .lit1] ∧ [Tag.op, .lit1].length < 8) ∧
    (¬headerInForm [.lit1, .op] ∧ compileLayout [.lit1, .op] [] = none) ∧
    26 < (List.replicate 27 OperandShape.floatRegister).length := by
  refine ⟨⟨fullHeader_inForm, by decide, by decide⟩, ⟨⟨by decide, 1, [.lit1], rfl, by simp⟩, by decide⟩, ⟨?_, by decide +kernel⟩,
    by decide⟩
  rintro ⟨-, k, lits, h, hl⟩
  cases k with
  | zero => rw [List.replicate_zero, List.nil_append] at h; subst h; simpa using hl .op (by simp)
  | succ k => simp [List.replicate_succ] at h
theorem witness_GroupWidthsLeaveTheLayout : (List.replicate 8 Tag.op).length = 8 ∧
    [OperandShape.registerGroup .w1, .registerGroup .w2].map forgetGroupWidths =
      [OperandShape.registerGroup .w4, .registerGroup .w1].map forgetGroupWidths := by decide +kernel
theorem witness_CatalogObeysItsLaws :
    catalogFind (lawfulCatalog (fun _ _ => none) [(txt "r,rr", 7), (txt "rrrr,r", 7), (txt "r,n", 7)]) (txt "rrrr,r") = some 7 ∧
    catalogFind (lawfulCatalog (fun _ _ => none) [(txt "r,rr", 7), (txt "rrrr,r", 7), (txt "r,n", 7)]) (txt "r,n") = none ∧
    parseShape (txt "r,rr") = some [.registerGroup .w1, .registerGroup .w2] ∧
    parseShape (txt "rrrr,r") = some [.registerGroup .w4, .registerGroup .w1] := by decide +kernel

/-- A lawful list with an alias pair (R119). -/
theorem witness_CatalogObeysItsLaws_lawful : lawfulEntries (fun _ _ => none) [(txt "r,rr", 7), (txt "rrrr,r", 7), (txt "r,n", 8)] := by
  have h1 : parseShape (txt "r,rr") = some [.registerGroup .w1, .registerGroup .w2] := by decide +kernel
  have h2 : parseShape (txt "rrrr,r") = some [.registerGroup .w4, .registerGroup .w1] := by decide +kernel
  refine ⟨by decide +kernel, by decide +kernel, fun e he f hf hid sh1 sh2 p1 p2 H => ?_⟩
  simp only [List.mem_cons, List.not_mem_nil, or_false] at he hf
  rcases he with rfl | rfl | rfl <;> rcases hf with rfl | rfl | rfl <;> dsimp only at p1 p2 <;>
    first
    | exact absurd hid (by decide)
    | (rw [p1] at p2; cases p2; rfl)
    | (rw [h1] at p1; rw [h2] at p2; cases p1; cases p2; rfl)
    | (rw [h2] at p1; rw [h1] at p2; cases p1; cases p2; rfl)

theorem witness_PrimaryLookupByMnemonic : frozenA.mnemonicsUnique ∧ (∃ p ∈ frozenA.pt, p.mnemonic = txt "SUB") ∧
    ∀ p ∈ frozenA.pt, p.mnemonic ≠ txt "NOSUCHOP" := by decide +kernel
theorem witness_PrimaryLookupByCodeIsTheFirst : primaryByCode tableA 3 = some (prim "SUB" 3) ∧ primaryByCode tableA 4 = none := by
  decide +kernel
theorem witness_MatcherFindsTheExactShape : frozenA.keysUnique ∧ ' ' ∉ txt "ADD" ∧
    [OperandShape.registerGroup .w1, .immediate .w1].length ≤ 26 ∧
    matchShape frozenA.table (txt "ADD") [.registerGroup .w1, .immediate .w1] =
      some (sec "ADD r,n" 2 0x10 "oooooooo uuuAAAAA BBBBBBBB") := by decide +kernel
theorem witness_HeaderReadsItsThreeParts : (∀ x ∈ [Tag.lit1, .lit0], x = .lit0 ∨ x = .lit1) ∧
    (∀ x ∈ [Tag.field 0, .field 0, .field 0], x ≠ .op ∧ x ≠ .lit0 ∧ x ≠ .lit1) ∧
    3 + [Tag.lit1, .lit0].length + [Tag.field 0, .field 0, .field 0].length = 8 := by decide +kernel
theorem witness_MatchedBytesAreOneBlock : hdrDomain (lay "oo1AAAAA") = true ∧ hdr (lay "oo1AAAAA") = (2, 1, 1) ∧
    3 < 2 ^ 2 ∧ 2 ^ 2 ≤ 4 := by decide +kernel
theorem witness_ConsistentTableDecodesItsOperators : consistent tableA = true ∧
    (∃ q ∈ tableA.st, matchesRaw q 0x60 = true) ∧ ∃ q ∈ tableA.st, matchesRaw q 0x7F = true :=
  ⟨tableA_consistent, by decide +kernel, by decide +kernel⟩
theorem witness_FieldIsItsPositionsBits : wholeBytes (lay "oo1AAAAA BBBBBBBB") = true ∧
    (lay "oo1AAAAA BBBBBBBB").length ≤ [(0x63 : Byte), 0x7F].length := by decide +kernel
/-- A two-byte immediate behind a header byte that holds operand A, with a byte of operand C behind it. -/
theorem witness_ImmediateIsBigEndian : (∀ t ∈ lay "oo1AAAAA", Tag.field 1 ∉ t) ∧ (∀ t ∈ lay "uuuCCCCC", Tag.field 1 ∉ t) ∧
    [(0x63 : Byte)].length = (lay "oo1AAAAA").length ∧ [(0x12 : Byte), 0x34].length = widthNat .w2 ∧
    extractField (lay "oo1AAAAA" ++ immBytes .w2 1 ++ lay "uuuCCCCC") ([0x63] ++ [0x12, 0x34] ++ [0x05]) 1 = (0x1234, 16) := by
  decide +kernel
theorem witness_IndirectSplitsAndJoins : 31 < 2 ^ dispBits (.group .w3) := by decide
theorem witness_DecodeVerdictsInOrder : primaryByCode tableA 7 = none ∧
    (primaryByCode tableA 0 = some (prim "NOP" 0) ∧ secondariesOf tableA 0 = []) ∧
    (primaryByCode tableA 1 = some (prim "LD" 1) ∧ secondariesOf tableA 1 ≠ []) ∧ decodeSecondary tableA 1 0x5F = none ∧
    decodeSecondary tableA 1 0x60 = some (sec "LD rr,n" 1 1 "oo1AAAAA BBBBBBBB") := by decide +kernel
theorem witness_DecodeReadsOnlyTheInstruction : (∀ q ∈ tableA.st, q.layout ≠ []) ∧
    (decodeInstr tableA [0x00, 0x01] = .primaryOnly (prim "NOP" 0)) ∧
    [(0x00 : Byte), 0x02].take (bytesRead (decodeInstr tableA [0x00, 0x01])) =
      [(0x00 : Byte), 0x01].take (bytesRead (decodeInstr tableA [0x00, 0x01])) := by decide +kernel
theorem witness_DecodedLengthIsTheLayouts : (∃ d, decodeInstr tableA [0x01, 0x63, 0x7F] = .decoded d) ∧
    decodeInstr tableA [0x00] = .primaryOnly (prim "NOP" 0) ∧ decodeInstr tableA [0x07] = .illegalPrimary 0x07 :=
  ⟨exists_decoded (by decide +kernel), by decide +kernel, by decide +kernel⟩

/-- `agreeExcept` as a computation, for the two witnesses below. -/
def agreeB (skip : Nat → Tag → Bool) (L : BitLayout) (lb lb' : List Byte) : Bool :=
  lb.length == lb'.length && (List.range L.length).all fun j => (List.range (L.getD j []).length).all fun i =>
    skip j ((L.getD j []).getD i .op) || (lb.getD j 0).getLsbD (7 - i) == (lb'.getD j 0).getLsbD (7 - i)

theorem agreeExcept_of_agreeB {skip : Nat → Tag → Bool} {P : Nat → Tag → Prop} {L : BitLayout} {lb lb' : List Byte}
    (h : agreeB skip L lb lb' = true) (hs : ∀ j x, skip j x = true → P j x) : agreeExcept P L lb lb' := by
  simp only [agreeB, Bool.and_eq_true, beq_iff_eq, List.all_eq_true, List.mem_range, Bool.or_eq_true] at h
  refine ⟨h.1, fun j t hj i x hi hn => ?_⟩
  obtain ⟨hjl, rfl⟩ := List.getElem?_eq_some_iff.mp hj
  obtain ⟨hil, rfl⟩ := List.getElem?_eq_some_iff.mp hi
  have := h.2 j hjl i (by simpa [List.getD_eq_getElem?_getD, hjl] using hil)
  simp only [List.getD_eq_getElem?_getD, List.getElem?_eq_getElem hjl, Option.getD_some,
    List.getElem?_eq_getElem hil] at this ⊢
  exact this.resolve_left fun hk => hn (hs _ _ hk)

/-- Don't-care bits of "ADD r,n" set and cleared. -/
theorem witness_DontCareBitsAreIgnored : consistent tableA = true ∧
    (∃ d, decodeInstr tableA [0x02, 0x10, 0x03, 0x7F] = .decoded d ∧
      agreeExcept (fun _ x => x = .dontCare) d.op.layout [0x10, 0x03, 0x7F] [0x10, 0xE3, 0x7F]) ∧
    encodeInstr (sec "ADD r,n" 2 0x10 "oooooooo uuuAAAAA BBBBBBBB") [3, 0x7F] = some [0x02, 0x10, 0x03, 0x7F] := by
  refine ⟨tableA_consistent, ⟨⟨prim "ADD" 2, sec "ADD r,n" 2 0x10 "oooooooo uuuAAAAA BBBBBBBB", 4,
      [⟨0, 3, 5⟩, ⟨1, 0x7F, 8⟩], some [.reg 3 .w1 true, .imm 0x7F .w1], true⟩, ?_, ?_⟩, ?_⟩
  · decide +kernel
  · exact agreeExcept_of_agreeB (skip := fun _ x => x == .dontCare) (by decide +kernel) (by simp)
  · decide +kernel

/-- The literal bits of byte 2 of "ADD r,r" set and cleared. -/
theorem witness_LaterLiteralsOnlySetTheFlag : (∀ q ∈ tableA.st, wfLayout q.layout = true) ∧
    (∃ d, decodeInstr tableA [0x02, 0x11, 0x03, 0xA4] = .decoded d ∧
      agreeExcept (fun j x => 0 < j ∧ (x = .lit0 ∨ x = .lit1)) d.op.layout [0x11, 0x03, 0xA4] [0x11, 0x03, 0x44]) ∧
    encodeInstr (sec "ADD r,r" 2 0x11 "oooooooo uuuAAAAA 101BBBBB") [3, 4] = some [0x02, 0x11, 0x03, 0xA4] := by
  refine ⟨by decide +kernel, ⟨⟨prim "ADD" 2, sec "ADD r,r" 2 0x11 "oooooooo uuuAAAAA 101BBBBB", 4,
      [⟨0, 3, 5⟩, ⟨1, 4, 5⟩], some [.reg 3 .w1 true, .reg 4 .w1 true], true⟩, ?_, ?_⟩, ?_⟩
  · decide +kernel
  · exact agreeExcept_of_agreeB (skip := fun j x => decide (0 < j ∧ (x = .lit0 ∨ x = .lit1))) (by decide +kernel) (by simp)
  · decide +kernel

theorem witness_DecodedOperandsAreTyped : consistent tableA = true ∧ ∃ d, decodeInstr tableA [0x01, 0x63, 0x7F] = .decoded d :=
  ⟨tableA_consistent, exists_decoded (by decide +kernel)⟩

/-- A signature that does not parse, and one whose shapes the fields do not fit: each decodes, without operands (R154). -/
theorem witness_DecodedOperandsAreTyped_none :
    ["X zz", "X r,nn"].map (fun k => decodeInstr ⟨[prim "X" 9], [sec k 9 1 "oooooooo uuuAAAAA BBBBBBBB"]⟩ [9, 1, 3, 4]) =
    ["X zz", "X r,nn"].map (fun k => .decoded ⟨prim "X" 9, sec k 9 1 "oooooooo uuuAAAAA BBBBBBBB", 4, [⟨0, 3, 5⟩, ⟨1, 4, 8⟩],
      none, true⟩) ∧
    parseShape (sigOf (txt "X zz")) = none ∧
    parseShape (sigOf (txt "X r,nn")) = some [.registerGroup .w1, .immediate .w2] ∧
    bitsOfOperand (.immediate .w2) ≠ 8 := by decide +kernel

theorem witness_EncodeAcceptsWhatFits :
    encodeInstr (sec "ADD r,n" 2 0x10 "oooooooo uuuAAAAA BBBBBBBB") [31, 255] = some [0x02, 0x10, 0x1F, 0xFF] := by decide +kernel
theorem witness_EncodeAndDecodeRoundTrip : consistent tableA = true ∧
    (∃ q ∈ tableA.st, encodeInstr q [3, 0x7F] = some [0x01, 0x63, 0x7F]) ∧
    ∃ d, decodeInstr tableA [0x01, 0x63, 0x7F] = .decoded d :=
  ⟨tableA_consistent, by decide +kernel, exists_decoded (by decide +kernel)⟩
theorem witness_InstructionsDecodeFromTheirEncoding : frozenA.mnemonicsUnique ∧ frozenA.keysUnique ∧
    consistent frozenA.table = true ∧
    [Instr.nop, .sub, .addRN 31 255, .addRR 31 0 true, .secondary (txt "LD rr,n") [31, 255] true].all
      (fun i => i.wfIn frozenA.table) = true ∧
    [Instr.ld, .add, .and, .div, .primaryOnly (txt "PUSH")].all (fun i => i.wfIn frozenBare.table) = true := by decide +kernel
theorem witness_FetchReadsAscendingAddresses : 1 < (fetchBytes [(7, 1), (8, 2)] 7 2).length ∧
    (∀ i, i < 2 → memRead [(7, 1), (8, 2)] (7 + i) ≠ none) ∧
    (∀ i, i < 2 → memRead [(7, 1), (8, 2), (10, 3)] (7 + i) ≠ none) ∧ memRead [(7, 1), (8, 2), (10, 3)] (7 + 2) = none := by
  decide +kernel

end Sys2Proof.Tests
end

section
/-! PROOFS. The state of the block (10_state): what the self-test and the template parser establish, the invariant under
each update of the state, and the three statements of the family. -/

namespace Sys2Proof.Machine

variable {s t : State}

/-! ### The self-test finds nothing exactly in a consistent table (R163, R175) -/

theorem firstOffender_eq_none {ok : Secondary → Bool} {st : List Secondary} :
    firstOffender ok st = none ↔ st.all ok = true := by
  simp [firstOffender]

theorem firstSharedOpcode_eq_none {ps : List Primary} :
    firstSharedOpcode ps = none ↔ (ps.map Primary.opcode).Nodup := by
  induction ps with
  | nil => simp [firstSharedOpcode]
  | cons p ps ih =>
    rw [List.map_cons, List.nodup_cons, ← ih, firstSharedOpcode]
    by_cases h : ps.any (·.opcode == p.opcode) = true
    · have hmem : p.opcode ∈ ps.map Primary.opcode := by simpa using h
      simp [h, hmem]
    · have hmem : p.opcode ∉ ps.map Primary.opcode := by simpa using h
      simp [h, hmem]

/-- Two operators are one and the same, or no raw byte matches both (R160). -/
def noClash (q1 q2 : Secondary) : Prop := q1 = q2 ∨ ∀ raw ∈ allBytes, clashAt q1 q2 raw = false

theorem clashAt_comm (q1 q2 : Secondary) (raw : Byte) : clashAt q1 q2 raw = clashAt q2 q1 raw := by
  simp only [clashAt, BEq.comm (a := q1.parent), Bool.and_assoc, Bool.and_comm (matchesRaw q1 raw)]

theorem noClash_refl (q : Secondary) : noClash q q := .inl rfl

theorem noClash_symm {q1 q2 : Secondary} (h : noClash q1 q2) : noClash q2 q1 :=
  h.imp Eq.symm fun hd raw hr => clashAt_comm q2 q1 raw ▸ hd raw hr

/-- The search for a pair looks at each entry against the later ones only. -/
theorem firstClash_eq_none {st : List Secondary} : firstClash st = none ↔ st.Pairwise noClash := by
  induction st with
  | nil => simp [firstClash]
  | cons q1 qs ih =>
    rw [List.pairwise_cons, ← ih, firstClash]
    have hfind : (qs.findSome? fun q2 =>
        if q1 = q2 then none else (allBytes.find? (clashAt q1 q2)).map fun raw => Witness.pair q1 q2 raw) = none ↔
        ∀ q2 ∈ qs, noClash q1 q2 := by
      simp [noClash, or_iff_not_imp_left]
    rw [← hfind]
    split <;> simp [*]

/-- `chk_disjoint` asks every ordered pair; by symmetry the later entries suffice. -/
theorem check_disjoint_iff {T : Table} : check T .disjoint = true ↔ T.st.Pairwise noClash := by
  have hall : check T .disjoint = true ↔ ∀ q1 ∈ T.st, ∀ q2 ∈ T.st, noClash q1 q2 := by
    simp [check, noClash]
  rw [hall]
  constructor
  · exact fun h => List.pairwise_of_forall_mem_list h
  · have hsymm : Std.Symm noClash := ⟨fun _ _ => noClash_symm⟩
    exact fun h _ h1 _ h2 => h.forall_of_forall (fun q _ => noClash_refl q) h1 h2

theorem offender_eq_none {T : Table} {c : Check} : offender T c = none ↔ check T c = true := by
  cases c with
  | disjoint => exact firstClash_eq_none.trans check_disjoint_iff.symm
  | primaryOpcodeUnique => simpa [check, offender] using firstSharedOpcode_eq_none
  | layoutWf | subcodeFits | parentRegistered | keyMnemonic | shapeParses | fieldWidths => exact firstOffender_eq_none

theorem selfTest_eq_none {T : Table} : selfTest T = none ↔ consistent T = true := by
  simp only [selfTest, consistent, List.findSome?_eq_none_iff, Option.map_eq_none_iff, offender_eq_none, List.all_eq_true]

/-! ### A template that parses gives whole bytes, at least one (R45, R47) -/

theorem parseGroup_length {g : Str} {t : LayoutByte} (h : parseGroup g = some t) : t.length = 8 := by
  obtain ⟨hg, hm⟩ : g.length = 8 ∧ mapAll tagOfChar g = some t := by simpa [parseGroup] using h
  simpa [hg] using (congrArg List.length (mapAll_eq_some.1 hm)).symm

theorem parseTemplate_parsed {l : Str} {L : BitLayout} (h : parseTemplate l = some L) :
    wfCheck L .nonempty = true ∧ wfCheck L .wholeBytes = true := by
  have hmap : (splitOnChar ' ' l).map parseGroup = L.map some := mapAll_eq_some.1 h
  constructor
  · have hne : L ≠ [] := by
      rintro rfl
      exact splitOnChar_ne_nil ' ' l (by simpa using hmap)
    simpa [wfCheck] using hne
  · have hlen : ∀ b ∈ L, b.length = 8 := fun b hb => by
      have hm : some b ∈ (splitOnChar ' ' l).map parseGroup := hmap ▸ List.mem_map_of_mem hb
      obtain ⟨g, -, hg⟩ := List.mem_map.1 hm
      exact parseGroup_length hg
    simpa [wfCheck] using hlen

/-! ### The invariant under each update of the state -/

/-- While registering nothing is asked of the self-test, and there is no error yet. -/
theorem inv_iff_of_registering (hp : s.phase = .registering) :
    s.Inv ↔ s.mnemonicsUnique ∧ s.keysUnique ∧ s.layoutsParsed ∧ s.err = none := by
  simp [State.Inv, State.errMatchesPhase, State.frozenConsistent, hp]

/-- The invariant does not speak of the ports and the sequencer. -/
theorem inv_answer {r : Result} : (s.answer r).Inv ↔ s.Inv := Iff.rfl

theorem inv_withSeq {cs : List RegCall} : (s.withSeq cs).Inv ↔ s.Inv := Iff.rfl

theorem inv_withCalls {is : List Instr} : (s.withCalls is).Inv ↔ s.Inv := Iff.rfl

theorem raise_inv (e : RegistrationError) (hi : s.Inv) : (s.raise e).Inv := by
  obtain ⟨hm, hk, hl, -, -⟩ := hi
  exact ⟨hm, hk, hl, by simp [State.errMatchesPhase], by simp [State.frozenConsistent]⟩

theorem addPrimary_inv {p : Primary} (hp : s.phase = .registering) (hi : s.Inv)
    (hnew : s.pt.any (·.mnemonic == p.mnemonic) = false) : (s.addPrimary p).Inv := by
  obtain ⟨hm, hk, hl, he⟩ := (inv_iff_of_registering hp).1 hi
  have hmem : p.mnemonic ∉ s.pt.map Primary.mnemonic := by simpa using hnew
  refine (inv_iff_of_registering (by simpa using hp)).2 ⟨?_, hk, hl, he⟩
  simpa [State.mnemonicsUnique] using hm.concat hmem

theorem addSecondary_inv {q : Secondary} (hp : s.phase = .registering) (hi : s.Inv)
    (hnew : s.st.any (·.key == q.key) = false)
    (hq : wfCheck q.layout .nonempty = true ∧ wfCheck q.layout .wholeBytes = true) : (s.addSecondary q).Inv := by
  obtain ⟨hm, hk, hl, he⟩ := (inv_iff_of_registering hp).1 hi
  have hmem : q.key ∉ s.st.map Secondary.key := by simpa using hnew
  refine (inv_iff_of_registering (by simpa using hp)).2 ⟨hm, ?_, ?_, he⟩
  · simpa [State.keysUnique] using hk.concat hmem
  · intro x hx
    obtain hx | rfl : x ∈ s.st ∨ x = q := by simpa using hx
    · exact hl x hx
    · exact hq

theorem enterFrozen_inv (hp : s.phase = .registering) (hi : s.Inv) (hc : consistent s.table = true) :
    s.enterFrozen.Inv := by
  obtain ⟨hm, hk, hl, he⟩ := (inv_iff_of_registering hp).1 hi
  exact ⟨hm, hk, hl, by simp [State.errMatchesPhase, he], fun _ => hc⟩

/-! ### Registration calls, the freeze and start-up -/

/-- A registration call raises an error, or appends one entry that keeps the uniqueness and is parsed. -/
theorem perform_cases (s : State) (c : RegCall) :
    (∃ e, s.perform c = s.raise e) ∨
    (∃ p, s.pt.any (·.mnemonic == p.mnemonic) = false ∧ s.perform c = s.addPrimary p) ∨
    (∃ q, s.st.any (·.key == q.key) = false ∧
      (wfCheck q.layout .nonempty = true ∧ wfCheck q.layout .wholeBytes = true) ∧ s.perform c = s.addSecondary q) := by
  cases c with
  | primary m p ti d =>
    obtain ⟨-, h⟩ | ⟨hnew, h⟩ := registerPrimary_cases s m p ti d
    · exact .inl ⟨_, h⟩
    · exact .inr (.inl ⟨_, hnew, h⟩)
  | secondary k p l n =>
    obtain ⟨-, h⟩ | ⟨-, -, h⟩ | ⟨hnew, L, hL, h⟩ := registerSecondary_cases s k p l n
    · exact .inl ⟨_, h⟩
    · exact .inl ⟨_, h⟩
    · exact .inr (.inr ⟨_, hnew, parseTemplate_parsed hL, h⟩)

theorem perform_phase (s : State) (c : RegCall) : (s.perform c).phase = .failed ∨ (s.perform c).phase = s.phase := by
  obtain ⟨e, h⟩ | ⟨p, -, h⟩ | ⟨q, -, -, h⟩ := perform_cases s c <;> simp [h]

theorem perform_tables_grow (s : State) (c : RegCall) : s.pt <+: (s.perform c).pt ∧ s.st <+: (s.perform c).st := by
  obtain ⟨e, h⟩ | ⟨p, -, h⟩ | ⟨q, -, -, h⟩ := perform_cases s c <;> simp [h]

theorem perform_inv (c : RegCall) (hp : s.phase = .registering) (hi : s.Inv) : (s.perform c).Inv := by
  obtain ⟨e, h⟩ | ⟨p, hnew, h⟩ | ⟨q, hnew, hq, h⟩ := perform_cases s c
  · exact h ▸ raise_inv e hi
  · exact h ▸ addPrimary_inv hp hi hnew
  · exact h ▸ addSecondary_inv hp hi hnew hq

@[simp] theorem freezeTable_pt (s : State) : s.freezeTable.pt = s.pt := by
  obtain ⟨-, h⟩ | ⟨c, w, -, h⟩ := freezeTable_cases s <;> simp [h]

@[simp] theorem freezeTable_st (s : State) : s.freezeTable.st = s.st := by
  obtain ⟨-, h⟩ | ⟨c, w, -, h⟩ := freezeTable_cases s <;> simp [h]

theorem freezeTable_inv (hp : s.phase = .registering) (hi : s.Inv) : s.freezeTable.Inv := by
  obtain ⟨hc, h⟩ | ⟨c, w, -, h⟩ := freezeTable_cases s
  · exact h ▸ enterFrozen_inv hp hi (selfTest_eq_none.1 hc)
  · exact h ▸ raise_inv _ hi

/-- Start-up is in `REGISTERING` before every call it performs, since it stops at the first failure (R191). -/
theorem runStartup_inv (cs : List RegCall) (hp : s.phase = .registering) (hi : s.Inv) : (runStartup cs s).Inv := by
  induction cs generalizing s with
  | nil => exact freezeTable_inv (s := s.withSeq []) hp hi
  | cons c cs ih =>
    have hcall : ((s.withSeq cs).perform c).Inv := perform_inv (s := s.withSeq cs) c hp hi
    rw [runStartup]
    split
    next => exact hcall
    next hlive => exact ih (((perform_phase _ c).resolve_left hlive).trans hp) hcall

/-! ### Every operation and every step -/

theorem exec_inv {i : Instr} (hi : s.Inv) (h : exec i s = .next t) : t.Inv := by
  obtain ⟨-, r, rfl⟩ | ⟨hp, ⟨c, -, rfl⟩ | ⟨cs, -, rfl⟩ | ⟨-, rfl⟩⟩ := exec_next_cases h
  · exact inv_answer.2 hi
  · exact perform_inv c hp hi
  · exact runStartup_inv cs hp hi
  · exact freezeTable_inv hp hi

theorem step_inv (hi : s.Inv) (h : step s = .next t) : t.Inv := by
  obtain ⟨hp, c, cs, -, rfl⟩ | ⟨hp, -, rfl⟩ | ⟨-, is, r, rfl⟩ := step_next_cases h
  · exact perform_inv c hp (inv_withSeq.2 hi)
  · exact freezeTable_inv hp (inv_withSeq.2 hi)
  · exact inv_answer.2 (inv_withCalls.2 hi)

/-- Nothing registered is changed or removed by a step (R26). -/
theorem step_tables_grow (h : step s = .next t) : s.pt <+: t.pt ∧ s.st <+: t.st := by
  obtain ⟨-, c, cs, -, rfl⟩ | ⟨-, -, rfl⟩ | ⟨-, is, r, rfl⟩ := step_next_cases h
  · exact perform_tables_grow (s.withSeq cs) c
  · simp
  · simp

/-- A step of a frozen block touches the consumers' queue and the output port alone. -/
theorem step_of_frozen (hp : s.phase = .frozen) (h : step s = .next t) : ∃ is r, t = (s.withCalls is).answer r := by
  obtain ⟨hp', -⟩ | ⟨hp', -⟩ | ⟨-, ht⟩ := step_next_cases h
  · cases hp.symm.trans hp'
  · cases hp.symm.trans hp'
  · exact ht

/-! ### The statements -/

/-- Settles O3: each update of the state keeps the invariant, and a step or an operation is a chain of them. -/
theorem stepKeepsInvariant : Obligations.StepKeepsInvariant :=
  ⟨fun _ _ hi h => step_inv hi h, fun _ _ _ hi h => exec_inv hi h⟩

/-- Settles O7: registration appends, the freeze leaves the tables, a lookup writes the output port alone. -/
theorem tablesOnlyGrowThenStay : Obligations.TablesOnlyGrowThenStay := by
  intro s t h
  refine ⟨step_tables_grow h, fun hp => ?_⟩
  obtain ⟨is, r, rfl⟩ := step_of_frozen hp h
  exact ⟨hp, rfl, rfl, rfl, rfl, rfl⟩

/-- Settles O2: the tables are empty, and the block registers without an error (R27). -/
theorem resetMeetsInvariant : Obligations.ResetMeetsInvariant := by
  refine (inv_iff_of_registering rfl).2 ⟨List.nodup_nil, List.nodup_nil, ?_, rfl⟩
  intro q hq
  cases hq

end Sys2Proof.Machine
end

section
/-! PROOFS. The bytes in memory (20_memory): what fetch gives, how a field of whole bytes is read, which bytes a verdict of
the decoder rests on, and the three statements of the family. -/

namespace Sys2Proof.Machine

/-! ### Fetch (R31) -/

section Fetch

variable {m : List Host.Cell} {a : Nat}

@[simp] theorem fetchBytes_zero : fetchBytes m a 0 = [] := rfl

theorem fetchBytes_succ_of_some {b : Byte} (h : memRead m a = some b) (n : Nat) :
    fetchBytes m a (n + 1) = b :: fetchBytes m (a + 1) n := by simp [fetchBytes, h]

theorem fetchBytes_of_none (h : memRead m a = none) (n : Nat) : fetchBytes m a n = [] := by
  cases n <;> simp [fetchBytes, h]

theorem memRead_succ_add (i : Nat) : memRead m (a + 1 + i) = memRead m (a + (i + 1)) :=
  congrArg (memRead m) (by omega)

theorem fetchBytes_getElem? {n j : Nat} (hj : j < (fetchBytes m a n).length) :
    (fetchBytes m a n)[j]? = memRead m (a + j) := by
  induction n generalizing a j with
  | zero => simp at hj
  | succ n ih =>
    cases hb : memRead m a with
    | none => simp [fetchBytes_of_none hb] at hj
    | some b =>
      rw [fetchBytes_succ_of_some hb] at hj ⊢
      cases j with
      | zero => simp [hb]
      | succ j =>
        rw [List.getElem?_cons_succ, ih (by simpa using hj), memRead_succ_add]

/-- The list ends at the count asked for or at the first missing byte, whichever comes first. -/
theorem fetchBytes_length {n k : Nat} (hk : k ≤ n) (hhas : ∀ i, i < k → memRead m (a + i) ≠ none)
    (hend : k = n ∨ memRead m (a + k) = none) : (fetchBytes m a n).length = k := by
  induction k generalizing a n with
  | zero =>
    obtain rfl | hmiss := hend
    · rfl
    · simp [fetchBytes_of_none (a := a) hmiss]
  | succ k ih =>
    obtain ⟨n, rfl⟩ := Nat.exists_eq_add_one_of_ne_zero (by omega : n ≠ 0)
    obtain ⟨b, hb⟩ : ∃ b, memRead m a = some b := Option.ne_none_iff_exists'.1 (hhas 0 k.succ_pos)
    have hrest : (fetchBytes m (a + 1) n).length = k := by
      refine ih (by omega) (fun i hi => ?_) (hend.imp (by omega) fun hmiss => ?_)
      · exact memRead_succ_add i ▸ hhas (i + 1) (by omega)
      · exact (memRead_succ_add k).trans hmiss
    rw [fetchBytes_succ_of_some hb, List.length_cons, hrest]

end Fetch

/-! ### A field of whole bytes is read big-endian (R33, R151) -/

section Field

variable {X : Letter}

theorem taggedBits_append {L1 : BitLayout} {b1 : List Byte} (h : b1.length = L1.length) (L2 : BitLayout) (b2 : List Byte) :
    taggedBits (L1 ++ L2) (b1 ++ b2) = taggedBits L1 b1 ++ taggedBits L2 b2 := by
  rw [taggedBits, List.zip_append h.symm, List.flatMap_append, taggedBits, taggedBits]

theorem collect_append (tb1 tb2 : List (Tag × Bool)) : collect X (tb1 ++ tb2) = collect X tb1 ++ collect X tb2 :=
  List.filterMap_append

/-- A layout without a letter gives no bit to it. -/
theorem collect_of_not_mem {L : BitLayout} (h : ∀ t ∈ L, Tag.field X ∉ t) (lb : List Byte) :
    collect X (taggedBits L lb) = [] := by
  refine List.filterMap_eq_nil_iff.2 fun p hp => if_neg fun hX => ?_
  obtain ⟨⟨t, b⟩, htb, hpt⟩ := List.mem_flatMap.1 hp
  exact h t (List.of_mem_zip htb).1 (hX ▸ (List.of_mem_zip hpt).1)

/-- Bytes all of whose tags are one letter give that letter all their bits. -/
theorem collect_wholeBytes (bs : List Byte) :
    collect X (taggedBits (List.replicate bs.length (List.replicate 8 (.field X))) bs) = bs.flatMap byteBits := by
  induction bs with
  | nil => rfl
  | cons b bs ih =>
    have hsplit := taggedBits_append (L1 := [List.replicate 8 (.field X)]) (b1 := [b]) rfl
      (List.replicate bs.length (List.replicate 8 (.field X))) bs
    have hbyte : collect X (taggedBits [List.replicate 8 (.field X)] [b]) = byteBits b := by
      simp [collect, taggedBits, byteBits, List.replicate]
    rw [List.length_cons, List.replicate_succ, List.flatMap_cons, ← ih, ← hbyte, ← collect_append, ← hsplit]
    rfl

theorem natOfBits_byteBits (b : Byte) : natOfBits (byteBits b) = b.toNat := by
  have hlt : natOfBits (byteBits b) < 2 ^ 8 := natOfBits_lt (byteBits b)
  calc natOfBits (byteBits b) = (byteOfBits (byteBits b)).toNat := by
        rw [byteOfBits, BitVec.toNat_ofNat, Nat.mod_eq_of_lt hlt]
    _ = b.toNat := by rw [byteOfBits_byteBits]

/-- The bits of a list of bytes spell the number whose most significant byte is the first. -/
theorem natOfBits_flatMap_byteBits (bs : List Byte) :
    natOfBits (bs.flatMap byteBits) = bs.foldl (fun v b => 256 * v + b.toNat) 0 := by
  induction bs using List.reverseRecOn with
  | nil => rfl
  | append_singleton bs b ih =>
    simp [natOfBits_append, natOfBits_byteBits, byteBits_length, ih, Nat.mul_comm]

theorem length_flatMap_byteBits (bs : List Byte) : (bs.flatMap byteBits).length = 8 * bs.length := by
  simp [List.length_flatMap, byteBits_length, Nat.mul_comm]

theorem immBytes_eq_wholeBytesOf (w : Width) (X : Letter) : immBytes w X = wholeBytesOf w X := by
  cases w <;> rfl

/-- Only the bytes where the immediate stands give bits to its letter. -/
theorem collect_immBytes {w : Width} {L1 L2 : BitLayout} {b1 bs b2 : List Byte} (h1 : ∀ t ∈ L1, Tag.field X ∉ t)
    (h2 : ∀ t ∈ L2, Tag.field X ∉ t) (hb1 : b1.length = L1.length) (hbs : bs.length = widthNat w) :
    collect X (taggedBits (L1 ++ immBytes w X ++ L2) (b1 ++ bs ++ b2)) = bs.flatMap byteBits := by
  have himm : collect X (taggedBits (immBytes w X) bs) = bs.flatMap byteBits := by
    rw [immBytes, ← hbs, collect_wholeBytes]
  rw [taggedBits_append (by simp [immBytes, hb1, hbs]), taggedBits_append hb1, collect_append, collect_append,
    collect_of_not_mem h1, collect_of_not_mem h2, himm, List.nil_append, List.append_nil]

end Field

/-! ### The verdicts of the decoder from what it finds on the way (R154) -/

section Verdict

variable {T : Table} {P raw : Byte} {rest tail ib : List Byte} {p : Primary} {q : Secondary}

theorem decodeInstr_of_primaryByCode_none (hp : primaryByCode T P = none) (rest : List Byte) :
    decodeInstr T (P :: rest) = .illegalPrimary P := by
  simp [decodeInstr, hp]

theorem decodeInstr_of_secondariesOf_nil (hp : primaryByCode T P = some p) (hs : secondariesOf T P = [])
    (rest : List Byte) : decodeInstr T (P :: rest) = .primaryOnly p := by
  simp [decodeInstr, hp, hs]

theorem decodeInstr_of_decodeSecondary_none (hp : primaryByCode T P = some p) (hs : secondariesOf T P ≠ [])
    (hq : decodeSecondary T P raw = none) (tail : List Byte) :
    decodeInstr T (P :: raw :: tail) = .illegalSecondary P raw := by
  simp [decodeInstr, hp, hs, hq]

theorem secondariesOf_ne_nil_of_decodeSecondary (hq : decodeSecondary T P raw = some q) : secondariesOf T P ≠ [] :=
  List.ne_nil_of_mem (List.mem_of_find?_eq_some hq)

theorem decodeInstr_of_decodeSecondary_some (hp : primaryByCode T P = some p) (hq : decodeSecondary T P raw = some q)
    (hlen : q.layout.length ≤ (raw :: tail).length) :
    decodeInstr T (P :: raw :: tail) = .decoded (decodedRecord p q
      (fieldsOf q.layout ((raw :: tail).take q.layout.length))
      (literalsOk q.layout ((raw :: tail).take q.layout.length))) := by
  simp only [decodeInstr, hp, secondariesOf_ne_nil_of_decodeSecondary hq, hq, not_lt.2 hlen, if_false]

/-- An illegal primary: nothing is registered under the first byte. The other branches of R154 answer other verdicts. -/
theorem decodeInstr_eq_illegalPrimary (h : decodeInstr T ib = .illegalPrimary P) :
    ∃ rest, ib = P :: rest ∧ primaryByCode T P = none := by
  unfold decodeInstr at h
  repeat' split at h
  all_goals cases h
  exact ⟨_, rfl, ‹_›⟩

/-- An illegal secondary: a primary with operators, none of which matches the second byte. The other branches of
R154 answer other verdicts. -/
theorem decodeInstr_eq_illegalSecondary (h : decodeInstr T ib = .illegalSecondary P raw) :
    ∃ tail p, ib = P :: raw :: tail ∧ primaryByCode T P = some p ∧ secondariesOf T P ≠ [] ∧
      decodeSecondary T P raw = none := by
  unfold decodeInstr at h
  repeat' split at h
  all_goals cases h
  exact ⟨_, _, rfl, ‹_›, ‹_›, ‹_›⟩

/-! ### A verdict rests on the bytes it has read (R32) -/

theorem eq_cons_of_take_succ {α : Type} {l as : List α} {x : α} {n : Nat} (h : l.take (n + 1) = x :: as) :
    ∃ l', l = x :: l' ∧ l'.take n = as := by
  cases l with
  | nil => simp at h
  | cons y l' =>
    obtain ⟨rfl, htl⟩ := List.cons.inj h
    exact ⟨l', rfl, htl⟩

/-- A decoded record rests on the primary byte and the bytes of its operator's layout, which are at least one. -/
theorem decodeInstr_decoded_congr {ib' : List Byte} {d : DecodedInstr} (hne : ∀ q ∈ T.st, q.layout ≠ [])
    (h : decodeInstr T ib = .decoded d) (htake : ib'.take d.len = ib.take d.len) : decodeInstr T ib' = .decoded d := by
  obtain ⟨P, raw, tail, p, q, rfl, hp, hq, hlen, rfl⟩ := decodeInstr_eq_decoded h
  have hpos : q.layout.length ≠ 0 := by simpa using hne q (mem_of_decodeSecondary hq).1
  obtain ⟨k, hk⟩ := Nat.exists_eq_add_one_of_ne_zero hpos
  have hcons : ib'.take (q.layout.length + 1) = P :: (raw :: tail).take q.layout.length := by
    simpa [decodedRecord, Nat.add_comm 1] using htake
  obtain ⟨rest', rfl, hrest⟩ := eq_cons_of_take_succ hcons
  have hraw : rest'.take (k + 1) = raw :: tail.take k := by rw [← hk, hrest, hk, List.take_succ_cons]
  obtain ⟨tail', rfl, -⟩ := eq_cons_of_take_succ hraw
  have hlen' : q.layout.length ≤ (raw :: tail').length := by
    have := congrArg List.length hrest
    rw [List.length_take, List.length_take] at this
    omega
  rw [decodeInstr_of_decodeSecondary_some hp hq hlen', hrest]

end Verdict

/-! ### The statements -/

/-- Settles O59, by induction on the bytes fetched. -/
theorem fetchReadsAscendingAddresses : Obligations.FetchReadsAscendingAddresses := fun _ _ _ _ =>
  ⟨fetchBytes_getElem?, fun hall => fetchBytes_length le_rfl hall (.inl rfl),
    fun _ hk hhas hmiss => fetchBytes_length hk.le hhas (.inr hmiss)⟩

/-- Settles O48: the bits collected are those of the immediate's bytes, first byte first. -/
theorem immediateIsBigEndian : Obligations.ImmediateIsBigEndian := by
  intro w X L1 L2 b1 bs b2 h1 h2 hb1 hbs
  refine ⟨immBytes_eq_wholeBytesOf w X, ?_⟩
  rw [extractField, collect_immBytes h1 h2 hb1 hbs, natOfBits_flatMap_byteBits, length_flatMap_byteBits, hbs]

/-- Settles O51: each verdict but Truncated is found again from the bytes it has read. -/
theorem decodeReadsOnlyTheInstruction : Obligations.DecodeReadsOnlyTheInstruction := by
  intro T ib ib' hne hlive htake
  cases hr : decodeInstr T ib with
  | truncated need => exact absurd hr (hlive need)
  | illegalPrimary P =>
    obtain ⟨rest, rfl, hp⟩ := decodeInstr_eq_illegalPrimary hr
    rw [hr] at htake
    obtain ⟨rest', rfl, -⟩ := eq_cons_of_take_succ htake
    exact decodeInstr_of_primaryByCode_none hp rest'
  | primaryOnly p =>
    obtain ⟨P, rest, rfl, hp, hs⟩ := decodeInstr_eq_primaryOnly hr
    rw [hr] at htake
    obtain ⟨rest', rfl, -⟩ := eq_cons_of_take_succ htake
    exact decodeInstr_of_secondariesOf_nil hp hs rest'
  | illegalSecondary P raw =>
    obtain ⟨tail, p, rfl, hp, hs, hq⟩ := decodeInstr_eq_illegalSecondary hr
    rw [hr] at htake
    obtain ⟨rest', rfl, hrest⟩ := eq_cons_of_take_succ htake
    obtain ⟨tail', rfl, -⟩ := eq_cons_of_take_succ hrest
    exact decodeInstr_of_decodeSecondary_none hp hs hq tail'
  | decoded d => exact decodeInstr_decoded_congr hne hr (by rwa [hr] at htake)

end Sys2Proof.Machine
end

section
/-! PROOFS. Encodings (30_encoding): what the checks of a layout say, template strings, the bits of an instruction by their
positions, what the decoder reads of them and what the encoder writes, the rows of the primaries and of ADD, and the nine
statements of the family. -/

namespace Sys2Proof.Machine

/-! ### The checks of a layout (R48) -/

section LayoutChecks

variable {L : BitLayout} {t : LayoutByte}

theorem isOpTag_iff {x : Tag} : isOpTag x = true ↔ x = .op := by cases x <;> simp [isOpTag]

theorem isLitTag_iff {x : Tag} : isLitTag x = true ↔ x = .lit0 ∨ x = .lit1 := by cases x <;> simp [isLitTag]

/-- A byte is its leading opcode tags, the literals behind them, and the rest of R49. -/
theorem eq_ops_append_lits_append_afterHeader (t : LayoutByte) :
    t = List.replicate (leadingOps t) .op ++ leadingLits t ++ afterHeader t := by
  have hops : t.takeWhile isOpTag = List.replicate (leadingOps t) .op :=
    List.eq_replicate_of_mem fun x hx => isOpTag_iff.1 (List.mem_takeWhile_imp hx)
  rw [← hops, leadingLits, afterHeader, List.append_assoc, List.takeWhile_append_dropWhile,
    List.takeWhile_append_dropWhile]

theorem afterHeader_of_form {k : Nat} {lits rest : List Tag} (hlits : ∀ x ∈ lits, x = .lit0 ∨ x = .lit1)
    (hrest : ∀ x ∈ rest, x ≠ .op ∧ x ≠ .lit0 ∧ x ≠ .lit1) :
    afterHeader (List.replicate k Tag.op ++ lits ++ rest) = rest := by
  have hops : (List.replicate k Tag.op ++ lits ++ rest).dropWhile isOpTag = lits ++ rest := by
    rw [List.append_assoc, List.dropWhile_append_of_pos (by simp [isOpTag]), List.dropWhile_eq_self_iff]
    intro hpos hop
    have hfirst := isOpTag_iff.1 hop
    obtain hmem | hmem := List.mem_append.1 (hfirst ▸ List.getElem_mem hpos)
    · simpa using hlits .op hmem
    · exact (hrest .op hmem).1 rfl
  rw [afterHeader, hops, List.dropWhile_append_of_pos fun x hx => isLitTag_iff.2 (hlits x hx),
    List.dropWhile_eq_self_iff]
  intro hpos hlit
  obtain ⟨-, h0, h1⟩ := hrest _ (List.getElem_mem hpos)
  exact (isLitTag_iff.1 hlit).elim h0 h1

theorem headerForm_iff : headerForm t = true ↔
    ∃ (k : Nat) (lits rest : List Tag), t = List.replicate k .op ++ lits ++ rest ∧
      (∀ x ∈ lits, x = .lit0 ∨ x = .lit1) ∧ (∀ x ∈ rest, x ≠ .op ∧ x ≠ .lit0 ∧ x ≠ .lit1) := by
  have hplain : headerForm t = true ↔ ∀ x ∈ afterHeader t, x ≠ .op ∧ x ≠ .lit0 ∧ x ≠ .lit1 := by
    simp [headerForm, ← Bool.not_eq_true, isOpTag_iff, isLitTag_iff]
  rw [hplain]
  constructor
  · exact fun h => ⟨_, _, _, eq_ops_append_lits_append_afterHeader t,
      fun x hx => isLitTag_iff.1 (List.mem_takeWhile_imp hx), h⟩
  · rintro ⟨k, lits, rest, rfl, hlits, hrest⟩
    rwa [afterHeader_of_form hlits hrest]

theorem wfCheck_nonempty_iff : wfCheck L .nonempty = true ↔ L ≠ [] := by simp [wfCheck]

theorem wfCheck_wholeBytes_iff : wfCheck L .wholeBytes = true ↔ ∀ t ∈ L, t.length = 8 := by simp [wfCheck]

theorem wfCheck_headerForm_iff : wfCheck L .headerForm = true ↔ ∀ t, L.head? = some t → headerForm t = true := by
  simp [wfCheck, Option.all_eq_true]

theorem wfCheck_opOnlyInByte0_iff : wfCheck L .opOnlyInByte0 = true ↔ ∀ t ∈ L.tail, Tag.op ∉ t := by
  simp only [wfCheck, List.all_eq_true, Bool.not_eq_true', List.any_eq_false, isOpTag_iff]
  exact forall₂_congr fun t _ => ⟨fun h ho => h _ ho rfl, fun h x hx hxo => h (hxo ▸ hx)⟩

theorem letterOf_val (X : Letter) : letterOf X.val = X := Fin.ext (Nat.mod_eq_of_lt X.isLt)

theorem mem_allLetters (X : Letter) : X ∈ allLetters :=
  List.mem_map.2 ⟨X.val, List.mem_range.2 X.isLt, letterOf_val X⟩

theorem allLetters_pairwise_lt : allLetters.Pairwise (· < ·) := by decide

@[simp] theorem mem_lettersOf {X : Letter} : X ∈ lettersOf L ↔ .field X ∈ L.flatten := by
  simp only [lettersOf, List.mem_filter, mem_allLetters, List.contains_iff_mem, true_and]

/-- Where an element satisfies `p` only if those before it do, the elements that satisfy `p` are the first ones. -/
theorem filter_eq_takeWhile {α : Type} {p : α → Bool} {l : List α} (h : l.Pairwise fun a b => p b = true → p a = true) :
    l.filter p = l.takeWhile p := by
  induction l with
  | nil => rfl
  | cons a l ih =>
    obtain ⟨hhead, htail⟩ := List.pairwise_cons.1 h
    by_cases ha : p a = true
    · simp [ha, ih htail]
    · have hnone : ∀ b ∈ l, ¬p b = true := fun b hb hpb => ha (hhead b hb hpb)
      simp [ha, List.filter_eq_nil_iff.2 hnone]

/-- The letters used are the first letters of the alphabet exactly when they are closed downwards. -/
theorem wfCheck_lettersDense_iff : wfCheck L .lettersDense = true ↔
    ∀ X Y : Letter, .field X ∈ L.flatten → Y ≤ X → .field Y ∈ L.flatten := by
  rw [wfCheck, beq_iff_eq]
  constructor
  · intro h X Y hX hYX
    obtain ⟨i, hi, rfl⟩ : ∃ i < (lettersOf L).length, letterOf i = X := by
      have hmem := mem_lettersOf.2 hX
      rw [h] at hmem
      simpa using hmem
    have hYi : Y.val ≤ i := (Fin.le_def.1 hYX).trans (Nat.mod_le i 26)
    rw [← mem_lettersOf, h]
    exact List.mem_map.2 ⟨Y.val, List.mem_range.2 (hYi.trans_lt hi), letterOf_val Y⟩
  · intro h
    have hinit : lettersOf L <+: allLetters := by
      rw [lettersOf, filter_eq_takeWhile]
      · exact List.takeWhile_prefix _
      · refine allLetters_pairwise_lt.imp fun {X Y} hXY hY => ?_
        simpa using h Y X (by simpa using hY) hXY.le
    have hlen : (lettersOf L).length ≤ 26 := hinit.length_le
    calc lettersOf L = allLetters.take (lettersOf L).length := List.prefix_iff_eq_take.1 hinit
      _ = (List.range (lettersOf L).length).map letterOf := by
        rw [allLetters, ← List.map_take, List.take_range, Nat.min_eq_left hlen]

theorem wfCheck_lettersOrdered_iff : wfCheck L .lettersOrdered = true ↔
    ∀ X Y : Letter, .field X ∈ L.flatten → .field Y ∈ L.flatten → X < Y →
      L.flatten.idxOf (.field X) < L.flatten.idxOf (.field Y) := by
  simp only [wfCheck, List.all_eq_true, mem_lettersOf, Bool.or_eq_true, Bool.not_eq_true', decide_eq_false_iff_not,
    decide_eq_true_eq, ← imp_iff_not_or]
  exact forall_congr' fun X => forall_comm

theorem wfCheck_of_wfLayout (h : wfLayout L = true) (c : WfCheck) : wfCheck L c = true := by
  simp only [wfLayout, Bool.and_eq_true] at h
  obtain ⟨⟨⟨⟨⟨hne, hwhole⟩, hform⟩, hop⟩, hdense⟩, hord⟩ := h
  cases c <;> assumption

theorem ne_nil_of_wfLayout (h : wfLayout L = true) : L ≠ [] := wfCheck_nonempty_iff.1 (wfCheck_of_wfLayout h _)

theorem wholeBytes_of_wfLayout (h : wfLayout L = true) : ∀ t ∈ L, t.length = 8 :=
  wfCheck_wholeBytes_iff.1 (wfCheck_of_wfLayout h _)

theorem hdrDomain_of_wfLayout (h : wfLayout L = true) : hdrDomain L = true := by
  obtain ⟨t, L, rfl⟩ := List.exists_cons_of_ne_nil (ne_nil_of_wfLayout h)
  have hlen : t.length = 8 := wholeBytes_of_wfLayout h t (by simp)
  have hform : headerForm t = true := wfCheck_headerForm_iff.1 (wfCheck_of_wfLayout h _) t rfl
  simp [hdrDomain, hlen, hform]

theorem subOpBits_cons (h : hdrDomain (t :: L) = true) :
    subOpBits (t :: L) = leadingOps t + (leadingLits t).length := by
  simp [subOpBits, hdr, h]

/-- The header bits are opcode and literal tags, so none is a don't-care (R49, R145). -/
theorem exists_tag_of_lt_subOpBits {i : Nat} (h : hdrDomain (t :: L) = true) (hi : i < subOpBits (t :: L)) :
    ∃ x, t[i]? = some x ∧ x ≠ .dontCare := by
  have hlt : i < (List.replicate (leadingOps t) Tag.op ++ leadingLits t).length := by
    simpa [subOpBits_cons h] using hi
  refine ⟨(List.replicate (leadingOps t) Tag.op ++ leadingLits t)[i], ?_, fun hx => ?_⟩
  · calc t[i]? = (List.replicate (leadingOps t) Tag.op ++ leadingLits t ++ afterHeader t)[i]? :=
          congrArg (·[i]?) (eq_ops_append_lits_append_afterHeader t)
      _ = _ := by rw [List.getElem?_append_left hlt, List.getElem?_eq_getElem hlt]
  · obtain hop | hlit := List.mem_append.1 (hx ▸ List.getElem_mem hlt)
    · simp at hop
    · simpa [isLitTag] using List.mem_takeWhile_imp hlit

end LayoutChecks

/-! ### Template strings (R45 to R47) -/

section Templates

theorem charOfTag_eq_tagText (x : Tag) : charOfTag x = tagText x := by
  cases x with
  | field X => rw [charOfTag, letterChar, Nat.mod_eq_of_lt X.isLt, tagText]
  | op | lit0 | lit1 | dontCare => rfl

theorem joinWith_eq_intercalate (c : Char) (ss : List Str) : joinWith c ss = List.intercalate [c] ss := by
  induction ss with
  | nil => rfl
  | cons s ss ih =>
    cases ss with
    | nil => simp [joinWith]
    | cons t ss => simp [joinWith, ih]

theorem printTemplate_eq_layoutText (L : BitLayout) : printTemplate L = layoutText L := by
  rw [printTemplate, joinWith_eq_intercalate, funext charOfTag_eq_tagText, layoutText]

theorem letterChar_of_letterPos? {c : Char} {i : Nat} (h : letterPos? c = some i) : letterChar i = c := by
  obtain ⟨⟨hlo, hhi⟩, rfl⟩ : (65 ≤ c.toNat ∧ c.toNat ≤ 90) ∧ c.toNat - 65 = i := by simpa [letterPos?] using h
  rw [letterChar, Nat.mod_eq_of_lt (by omega), Nat.add_sub_cancel' hlo, Char.ofNat_toNat]

theorem charOfTag_of_tagOfChar {c : Char} {x : Tag} (h : tagOfChar c = some x) : charOfTag x = c := by
  unfold tagOfChar at h
  split_ifs at h with ho h0 h1 hu
  · cases h; exact ho.symm
  · cases h; exact h0.symm
  · cases h; exact h1.symm
  · cases h; exact hu.symm
  · obtain ⟨i, hi, rfl⟩ := Option.map_eq_some_iff.1 h
    obtain rfl := letterChar_of_letterPos? hi
    simp [charOfTag, letterOf, letterChar]

theorem tagOfChar_charOfTag (x : Tag) : tagOfChar (charOfTag x) = some x := by
  cases x with
  | field X => revert X; decide
  | op | lit0 | lit1 | dontCare => rfl

/-- A tag's character is the only one that stands for it (R46). -/
theorem tagOfChar_eq_some {c : Char} {x : Tag} : tagOfChar c = some x ↔ charOfTag x = c :=
  ⟨charOfTag_of_tagOfChar, fun h => h ▸ tagOfChar_charOfTag x⟩

theorem charOfTag_ne_space (x : Tag) : charOfTag x ≠ ' ' := fun h => by
  have hspace := tagOfChar_eq_some.2 h
  rw [show tagOfChar ' ' = none from rfl] at hspace
  cases hspace

/-- Where `f` inverts `g` on the values with `P`, `mapAll f` inverts `map g` on the lists of such values. -/
theorem mapAll_eq_some_iff_map {α β : Type} {f : α → Option β} {g : β → α} {P : β → Prop}
    (hf : ∀ a b, f a = some b ↔ P b ∧ g b = a) {as : List α} {bs : List β} :
    mapAll f as = some bs ↔ (∀ b ∈ bs, P b) ∧ bs.map g = as := by
  rw [mapAll_eq_some]
  induction as generalizing bs with
  | nil => simp +contextual
  | cons a as ih =>
    cases bs with
    | nil => simp
    | cons b bs => simp [ih, hf, and_and_and_comm]

theorem parseGroup_eq_some (g : Str) (t : LayoutByte) :
    parseGroup g = some t ↔ t.length = 8 ∧ t.map charOfTag = g := by
  have htags : mapAll tagOfChar g = some t ↔ t.map charOfTag = g := by
    simpa using mapAll_eq_some_iff_map (P := fun _ => True) (by simp [tagOfChar_eq_some])
  rw [parseGroup, Option.ite_none_right_eq_some, htags]
  exact and_congr_left fun h => by rw [← h, List.length_map]

/-- A string parses to exactly the layout of whole bytes, at least one, that prints as it (R47). -/
theorem parseTemplate_eq_some {s : Str} {L : BitLayout} :
    parseTemplate s = some L ↔ L ≠ [] ∧ (∀ t ∈ L, t.length = 8) ∧ printTemplate L = s := by
  rw [parseTemplate, mapAll_eq_some_iff_map parseGroup_eq_some]
  constructor
  · rintro ⟨hwhole, hsplit⟩
    refine ⟨?_, hwhole, ?_⟩
    · rintro rfl
      exact splitOnChar_ne_nil ' ' s hsplit.symm
    · rw [printTemplate, hsplit, joinWith_splitOnChar]
  · rintro ⟨hne, hwhole, rfl⟩
    refine ⟨hwhole, (splitOnChar_joinWith (by simpa using hne) ?_).symm⟩
    simp [charOfTag_ne_space]

end Templates

/-! ### What a consistent table gives for its entries (R163) -/

section ConsistentTable

variable {T : Table} {raw : Byte} {p : Primary} {q q' : Secondary}

theorem check_of_consistent (h : consistent T = true) (c : Check) : check T c = true :=
  List.all_eq_true.1 h c (by cases c <;> decide)

theorem wfLayout_of_consistent (h : consistent T = true) (hq : q ∈ T.st) : wfLayout q.layout = true :=
  List.all_eq_true.1 (check_of_consistent h .layoutWf) q hq

theorem amid_lt_of_consistent (h : consistent T = true) (hq : q ∈ T.st) : q.amid < 2 ^ (hdr q.layout).1 :=
  of_decide_eq_true (List.all_eq_true.1 (check_of_consistent h .subcodeFits) q hq)

theorem primaryByCode_of_consistent (h : consistent T = true) (hp : p ∈ T.pt) :
    primaryByCode T p.opcode = some p :=
  primaryByCode_of_mem (of_decide_eq_true (check_of_consistent h .primaryOpcodeUnique)) hp

theorem exists_parent_of_consistent (h : consistent T = true) (hq : q ∈ T.st) :
    ∃ p, primaryByCode T q.parent = some p :=
  Option.isSome_iff_exists.1 (List.all_eq_true.1 (check_of_consistent h .parentRegistered) q hq)

theorem fieldWidths_of_consistent {shapes : List OperandShape} (h : consistent T = true) (hq : q ∈ T.st)
    (hsig : parseShape (sigOf q.key) = some shapes) :
    lettersOf q.layout = (List.range shapes.length).map letterOf ∧ fieldBitsAgree q.layout 0 shapes = true := by
  have hw : entryFieldWidths q = true := List.all_eq_true.1 (check_of_consistent h .fieldWidths) q hq
  simpa [entryFieldWidths, hsig] using hw

theorem mem_allBytes (b : Byte) : b ∈ allBytes :=
  List.mem_map.2 ⟨b.toNat, List.mem_range.2 b.isLt, by simp⟩

/-- No raw byte matches two operators of one parent (R160). -/
theorem eq_of_matchesRaw (hc : consistent T = true) (hq : q ∈ T.st) (hq' : q' ∈ T.st) (hparent : q.parent = q'.parent)
    (hm : matchesRaw q raw = true) (hm' : matchesRaw q' raw = true) : q = q' := by
  have hdisjoint : ∀ a ∈ T.st, ∀ b ∈ T.st, noClash a b := by
    simpa [check, noClash] using check_of_consistent hc .disjoint
  refine (hdisjoint q hq q' hq').resolve_right fun hno => ?_
  simpa [clashAt, hparent, hm, hm'] using hno raw (mem_allBytes raw)

/-- A raw byte decodes to the operator that matches it, wherever it stands in the table (R164). -/
theorem decodeSecondary_of_consistent (hc : consistent T = true) (hq : q ∈ T.st) (hm : matchesRaw q raw = true) :
    decodeSecondary T q.parent raw = some q := by
  have hmem : q ∈ secondariesOf T q.parent := mem_secondariesOf.2 ⟨hq, rfl⟩
  obtain ⟨q', hq'⟩ : ∃ q', decodeSecondary T q.parent raw = some q' :=
    Option.isSome_iff_exists.1 (List.find?_isSome.2 ⟨q, hmem, hm⟩)
  obtain ⟨hst', hparent', hm'⟩ := mem_of_decodeSecondary hq'
  rw [hq', eq_of_matchesRaw hc hst' hq hparent' hm' hm]

end ConsistentTable

/-! ### The bits of an instruction by their positions (R151, R153) -/

section TaggedBits

variable {L : BitLayout} {lb : List Byte}

theorem byteBits_getElem? (b : Byte) {i : Nat} (hi : i < 8) : (byteBits b)[i]? = some (b.getLsbD (7 - i)) := by
  interval_cases i <;> rfl

theorem mem_taggedBits (hL : ∀ t ∈ L, t.length = 8) (hlb : L.length ≤ lb.length) {x : Tag} {b : Bool} :
    (x, b) ∈ taggedBits L lb ↔
      ∃ j i t, L[j]? = some t ∧ t[i]? = some x ∧ (lb.getD j 0).getLsbD (7 - i) = b := by
  rw [taggedBits, List.mem_flatMap]
  simp only [List.mem_iff_getElem?, List.getElem?_zip_eq_some, Prod.exists]
  constructor
  · rintro ⟨t, c, ⟨j, hj, hc⟩, i, hi, hb⟩
    have hi8 : i < 8 := (List.getElem?_eq_some_iff.1 hb).1
    rw [byteBits_getElem? c hi8, Option.some.injEq] at hb
    exact ⟨j, i, t, hj, hi, by simpa [hc] using hb⟩
  · rintro ⟨j, i, t, hj, hi, hb⟩
    have hi8 : i < 8 := hL t (List.mem_of_getElem? hj) ▸ (List.getElem?_eq_some_iff.1 hi).1
    have hjlb : j < lb.length := (List.getElem?_eq_some_iff.1 hj).1.trans_le hlb
    exact ⟨t, lb.getD j 0, ⟨j, hj, by simp [hjlb]⟩, i, hi, hb ▸ byteBits_getElem? _ hi8⟩

/-- `literalsOk` asks every literal bit after byte 0 (R153). -/
theorem literalsOk_iff (hL : ∀ t ∈ L, t.length = 8) (hlb : L.length ≤ lb.length) :
    literalsOk L lb = true ↔ ∀ (j i : Nat) (t : LayoutByte), 0 < j → L[j]? = some t →
      (t[i]? = some .lit0 → (lb.getD j 0).getLsbD (7 - i) = false) ∧
      (t[i]? = some .lit1 → (lb.getD j 0).getLsbD (7 - i) = true) := by
  have hmem (x : Tag) (b : Bool) : (x, b) ∈ taggedBits L.tail lb.tail ↔
      ∃ j i t, L[j + 1]? = some t ∧ t[i]? = some x ∧ (lb.getD (j + 1) 0).getLsbD (7 - i) = b := by
    rw [mem_taggedBits (fun t ht => hL t (List.mem_of_mem_tail ht)) (by simp; omega)]
    simp
  rw [literalsOk, List.all_eq_true]
  constructor
  · intro h j i t hj ht
    obtain ⟨j, rfl⟩ := Nat.exists_eq_add_one_of_ne_zero hj.ne'
    have hbit {x : Tag} (hx : t[i]? = some x) := h _ ((hmem x _).2 ⟨j, i, t, ht, hx, rfl⟩)
    exact ⟨fun hx => by simpa [literalAgrees] using hbit hx, fun hx => by simpa [literalAgrees] using hbit hx⟩
  · rintro h ⟨x, b⟩ hxb
    obtain ⟨j, i, t, ht, hx, rfl⟩ := (hmem x b).1 hxb
    obtain ⟨h0, h1⟩ := h (j + 1) i t j.succ_pos ht
    cases x with
    | lit0 => simpa [literalAgrees] using h0 hx
    | lit1 => simpa [literalAgrees] using h1 hx
    | op | dontCare | field X => rfl

/-- The bytes behind a layout's own do not count. -/
theorem taggedBits_take (h : L.length ≤ lb.length) : taggedBits L (lb.take L.length) = taggedBits L lb := by
  have hsplit := taggedBits_append (List.length_take_of_le h) [] (lb.drop L.length)
  rw [List.append_nil, List.take_append_drop] at hsplit
  rw [hsplit]
  exact (List.append_nil _).symm

theorem fieldsOf_take (h : L.length ≤ lb.length) : fieldsOf L (lb.take L.length) = fieldsOf L lb := by
  simp only [fieldsOf, extractField, taggedBits_take h]

theorem literalsOk_take (h : L.length ≤ lb.length) : literalsOk L (lb.take L.length) = literalsOk L lb := by
  have htail : (lb.take L.length).tail = lb.tail.take L.tail.length := by
    rw [List.tail_take_eq_take_tail, List.length_tail]
  have hlen : L.tail.length ≤ lb.tail.length := by simp only [List.length_tail]; omega
  rw [literalsOk, htail, taggedBits_take hlen, literalsOk]

end TaggedBits

/-! ### Streams that agree but at some tags (R60, R62) -/

section Agreement

variable {L : BitLayout} {lb lb' tail tail' : List Byte} {raw raw' : Byte} {q : Secondary} {skip : Nat → Tag → Prop}

theorem agreeExcept_cons {t : LayoutByte} (h : agreeExcept skip (t :: L) (raw :: tail) (raw' :: tail')) :
    (∀ i x, t[i]? = some x → ¬skip 0 x → raw.getLsbD (7 - i) = raw'.getLsbD (7 - i)) ∧
      agreeExcept (fun j => skip (j + 1)) L tail tail' := by
  obtain ⟨hlen, hbits⟩ := h
  exact ⟨hbits 0 t rfl, by simpa using hlen, fun j u hj => hbits (j + 1) u hj⟩

theorem collect_zip_congr {X : Letter} {t : List Tag} {bs bs' : List Bool} (hlen : bs.length = bs'.length)
    (h : ∀ i : Nat, t[i]? = some (Tag.field X) → bs[i]? = bs'[i]?) : collect X (t.zip bs) = collect X (t.zip bs') := by
  induction t generalizing bs bs' with
  | nil => rfl
  | cons x t ih =>
    cases bs with
    | nil => rw [List.eq_nil_of_length_eq_zero hlen.symm]
    | cons b bs =>
      obtain ⟨b', bs', rfl⟩ := List.exists_cons_of_length_eq_add_one hlen.symm
      have htail := ih (by simpa using hlen) fun i hi => by simpa using h (i + 1) (by simpa using hi)
      have hhead : x = .field X → b = b' := fun hx => by simpa using h 0 (by simp [hx])
      rw [collect, collect] at htail
      by_cases hx : x = .field X
      · simp [collect, hx, hhead hx, htail]
      · simp [collect, hx, htail]

/-- A letter's bits are the same where no tag of it is skipped. -/
theorem collect_congr {X : Letter} (h : agreeExcept skip L lb lb') (hX : ∀ j, ¬skip j (.field X)) :
    collect X (taggedBits L lb) = collect X (taggedBits L lb') := by
  induction L generalizing lb lb' skip with
  | nil => rfl
  | cons t L ih =>
    cases lb with
    | nil => rw [List.eq_nil_of_length_eq_zero h.1.symm]
    | cons b lb =>
      obtain ⟨b', lb', rfl⟩ := List.exists_cons_of_length_eq_add_one h.1.symm
      obtain ⟨hbyte, hrest⟩ := agreeExcept_cons h
      have hzip : collect X (t.zip (byteBits b)) = collect X (t.zip (byteBits b')) := by
        refine collect_zip_congr rfl fun i hi => ?_
        by_cases hi8 : i < 8
        · rw [byteBits_getElem? b hi8, byteBits_getElem? b' hi8, hbyte i _ hi (hX 0)]
        · rw [List.getElem?_eq_none (not_lt.1 hi8), List.getElem?_eq_none (not_lt.1 hi8)]
      calc collect X (taggedBits (t :: L) (b :: lb))
          = collect X (t.zip (byteBits b)) ++ collect X (taggedBits L lb) := collect_append _ _
        _ = collect X (t.zip (byteBits b')) ++ collect X (taggedBits L lb') := by
          rw [hzip, ih hrest fun j => hX (j + 1)]
        _ = collect X (taggedBits (t :: L) (b' :: lb')) := (collect_append _ _).symm

theorem fieldsOf_congr (h : agreeExcept skip L lb lb') (hX : ∀ j X, ¬skip j (.field X)) :
    fieldsOf L lb = fieldsOf L lb' := by
  simp only [fieldsOf, extractField, collect_congr h (hX · _)]

theorem literalsOk_congr (hL : ∀ t ∈ L, t.length = 8) (hlb : L.length ≤ lb.length) (h : agreeExcept skip L lb lb')
    (hlit : ∀ j, ¬skip j .lit0 ∧ ¬skip j .lit1) : literalsOk L lb = literalsOk L lb' := by
  rw [Bool.eq_iff_iff, literalsOk_iff hL hlb, literalsOk_iff hL (h.1 ▸ hlb)]
  refine forall₃_congr fun j i t => forall₂_congr fun _ ht => and_congr ?_ ?_
  · exact forall_congr' fun hx => by rw [h.2 j t ht i _ hx (hlit j).1]
  · exact forall_congr' fun hx => by rw [h.2 j t ht i _ hx (hlit j).2]

/-- Matching reads the header bits alone (R147). -/
theorem matchesRaw_congr (h : ∀ i < subOpBits q.layout, raw.getLsbD (7 - i) = raw'.getLsbD (7 - i)) :
    matchesRaw q raw = matchesRaw q raw' := by
  have hshift : raw.toNat >>> (8 - subOpBits q.layout) = raw'.toNat >>> (8 - subOpBits q.layout) := by
    refine Nat.eq_of_testBit_eq fun n => ?_
    rw [Nat.testBit_shiftRight, Nat.testBit_shiftRight, BitVec.testBit_toNat, BitVec.testBit_toNat]
    by_cases hn : 8 - subOpBits q.layout + n < 8
    · have hbit := h (7 - (8 - subOpBits q.layout + n)) (by omega)
      rwa [Nat.sub_sub_self (Nat.le_of_lt_succ hn)] at hbit
    · rw [BitVec.getLsbD_of_ge _ _ (not_lt.1 hn), BitVec.getLsbD_of_ge _ _ (not_lt.1 hn)]
  rw [matchesRaw, matchesRaw, hshift]

theorem matchesRaw_of_agreeExcept_dontCare (hw : wfLayout q.layout = true)
    (h : agreeExcept (fun _ x => x = .dontCare) q.layout (raw :: tail) (raw' :: tail')) :
    matchesRaw q raw = matchesRaw q raw' := by
  obtain ⟨t, L, hcons⟩ := List.exists_cons_of_ne_nil (ne_nil_of_wfLayout hw)
  have hdom := hdrDomain_of_wfLayout hw
  refine matchesRaw_congr fun i hi => ?_
  rw [hcons] at h hi hdom
  obtain ⟨x, hx, hne⟩ := exists_tag_of_lt_subOpBits hdom hi
  exact (agreeExcept_cons h).1 i x hx hne

/-- Byte 0 is the same where none of its tags is skipped. -/
theorem eq_of_agreeExcept_cons (hw : wfLayout L = true) (h : agreeExcept skip L (raw :: tail) (raw' :: tail'))
    (hskip : ∀ x, ¬skip 0 x) : raw = raw' := by
  obtain ⟨t, L, rfl⟩ := List.exists_cons_of_ne_nil (ne_nil_of_wfLayout hw)
  have hlen : t.length = 8 := wholeBytes_of_wfLayout hw t (by simp)
  refine BitVec.eq_of_getLsbD_eq fun n hn => ?_
  have hbit := (agreeExcept_cons h).1 (7 - n) _ (List.getElem?_eq_getElem (by omega)) (hskip _)
  rwa [Nat.sub_sub_self (Nat.le_of_lt_succ hn)] at hbit

end Agreement

/-! ### The decoder and the encoder on a stream (R154, R158) -/

section Coding

variable {T : Table} {P : Byte} {p : Primary} {q : Secondary} {L : BitLayout}

theorem decodeInstr_cons_eq_decoded {rest : List Byte} {d : DecodedInstr} :
    decodeInstr T (P :: rest) = .decoded d ↔ ∃ raw tail p q, rest = raw :: tail ∧ primaryByCode T P = some p ∧
      decodeSecondary T P raw = some q ∧ q.layout.length ≤ rest.length ∧
      d = decodedRecord p q (fieldsOf q.layout rest) (literalsOk q.layout rest) := by
  constructor
  · intro h
    obtain ⟨_, raw, tail, p, q, hcons, hp, hq, hlen, rfl⟩ := decodeInstr_eq_decoded h
    obtain ⟨rfl, rfl⟩ := List.cons.inj hcons
    exact ⟨raw, tail, p, q, rfl, hp, hq, hlen, by rw [fieldsOf_take hlen, literalsOk_take hlen]⟩
  · rintro ⟨raw, tail, p, q, rfl, hp, hq, hlen, rfl⟩
    rw [decodeInstr_of_decodeSecondary_some hp hq hlen, fieldsOf_take hlen, literalsOk_take hlen]

/-- A primary byte alone, of a primary with secondaries, asks for the second byte (R154). -/
theorem decodeInstr_singleton_of_secondariesOf_ne_nil (hp : primaryByCode T P = some p) (hs : secondariesOf T P ≠ []) :
    decodeInstr T [P] = .truncated 2 := by
  simp [decodeInstr, hp, hs]

/-- The bits the encoder places are canonical: don't-cares 0, literals at their value (R158). -/
theorem placeBits_canonical (ts : List Tag) (ob : List Bool) (fb : Letter → List Bool) :
    ∀ x ∈ ts.zip (placeBits ts ob fb), canonicalBit x = x.2 := by
  induction ts generalizing ob fb with
  | nil => simp
  | cons x ts ih => cases x <;> simpa [placeBits, canonicalBit] using ih _ _

/-- Cutting bits into bytes keeps each bit at its tag. -/
theorem taggedBits_bitsToBytes (hL : ∀ t ∈ L, t.length = 8) {bs : List Bool} (hlen : bs.length = L.flatten.length) :
    taggedBits L (bitsToBytes L bs) = L.flatten.zip bs := by
  induction L generalizing bs with
  | nil => rfl
  | cons t L ih =>
    obtain ⟨ht, hL'⟩ := List.forall_mem_cons.1 hL
    rw [List.flatten_cons, List.length_append] at hlen
    have htake : (bs.take t.length).length = t.length := List.length_take_of_le (by omega)
    have hrest : (bs.drop t.length).length = L.flatten.length := by rw [List.length_drop]; omega
    calc taggedBits (t :: L) (bitsToBytes (t :: L) bs)
        = t.zip (byteBits (byteOfBits (bs.take t.length))) ++ taggedBits L (bitsToBytes L (bs.drop t.length)) := rfl
      _ = t.zip (bs.take t.length) ++ L.flatten.zip (bs.drop t.length) := by
        rw [byteBits_byteOfBits (htake.trans ht), ih hL' hrest]
      _ = (t ++ L.flatten).zip bs := by rw [← List.zip_append htake.symm, List.take_append_drop]

/-- Every bit of an encoding is its tag's canonical bit. -/
theorem encodeInstr_canonicalBit {vals : List Nat} {bs : List Byte} (hw : wfLayout q.layout = true)
    (h : encodeInstr q vals = some (P :: bs)) {j i : Nat} {t : LayoutByte} {x : Tag} (ht : q.layout[j]? = some t)
    (hx : t[i]? = some x) :
    (bs.getD j 0).getLsbD (7 - i) = canonicalBit (x, (bs.getD j 0).getLsbD (7 - i)) := by
  have hL := wholeBytes_of_wfLayout hw
  obtain ⟨-, -, hbytes⟩ := encodeInstr_eq_some h
  have hbs := (List.cons.inj hbytes).2
  have hmem : (x, (bs.getD j 0).getLsbD (7 - i)) ∈ taggedBits q.layout bs :=
    (mem_taggedBits hL (by simp [hbs])).2 ⟨j, i, t, ht, hx, rfl⟩
  have hzip : taggedBits q.layout bs = q.layout.flatten.zip _ :=
    hbs ▸ taggedBits_bitsToBytes hL (placeBits_length _ _ _)
  exact (placeBits_canonical _ _ _ _ (hzip ▸ hmem)).symm

theorem encodeInstr_isSome {vals : List Nat} (ha : q.amid < 2 ^ (hdr q.layout).1)
    (hv : valuesFit q.layout vals = true) : (encodeInstr q vals).isSome = true := by
  simp [encodeInstr, ha, hv]

end Coding

/-! ### The rows of the primaries and of ADD (R55, R57) -/

section Rows

variable {s : State} {T : Table} {P : Byte} {p : Primary} {q : Secondary}

theorem primaryByMnemonic_eq_none {m : Str} : primaryByMnemonic T m = none ↔ ∀ p ∈ T.pt, p.mnemonic ≠ m := by
  simp [primaryByMnemonic]

theorem secondaryByKey_eq_none {k : Str} : secondaryByKey T k = none ↔ ∀ q ∈ T.st, q.key ≠ k := by
  simp [secondaryByKey]

theorem secondariesOf_eq_nil : secondariesOf T P = [] ↔ ∀ q ∈ T.st, q.parent ≠ P := by
  simp [secondariesOf, List.filter_eq_nil_iff]

theorem exec_nop (hf : s.phase = .frozen) :
    exec .nop s = .next { s with out := .decode (decodeInstr s.table [0]) } := whileFrozen_of_frozen hf

/-- The rows of the opcode table that name a primary, with its mnemonic. -/
def familyRows (m : Str) : List (Instr × Str) :=
  [(.ld, textLD), (.add, textADD), (.sub, textSUB), (.and, textAND), (.div, textDIV), (.primaryOnly m, m)]

theorem exec_familyRow {i : Instr} {m : Str} (hf : s.phase = .frozen) (hi : (i, m) ∈ familyRows m) :
    exec i s = .next { s with out := familyResult s.table m } := by
  simp only [familyRows, List.mem_cons, List.not_mem_nil, or_false, Prod.mk.injEq] at hi
  obtain ⟨rfl, rfl⟩ | ⟨rfl, rfl⟩ | ⟨rfl, rfl⟩ | ⟨rfl, rfl⟩ | ⟨rfl, rfl⟩ | ⟨rfl, -⟩ := hi
  all_goals exact whileFrozen_of_frozen hf

theorem familyResult_of_not_mem {m : Str} (h : ∀ p ∈ T.pt, p.mnemonic ≠ m) : familyResult T m = .primary none := by
  rw [familyResult, primaryByMnemonic_eq_none.2 h]

theorem familyResult_of_mem (hm : (T.pt.map Primary.mnemonic).Nodup) (hp : p ∈ T.pt) :
    familyResult T p.mnemonic = .decode (decodeInstr T [p.opcode]) := by
  rw [familyResult, primaryByMnemonic_of_mem hm hp]

theorem exec_addRN {a : BitVec 5} {b : Byte} (hf : s.phase = .frozen) :
    exec (.addRN a b) s = .next { s with out := operatorResult s.table keyADDrn [a.toNat, b.toNat] true } :=
  whileFrozen_of_frozen hf

theorem exec_addRR {a b : BitVec 5} {lit : Bool} (hf : s.phase = .frozen) :
    exec (.addRR a b lit) s = .next { s with out := operatorResult s.table keyADDrr [a.toNat, b.toNat] lit } :=
  whileFrozen_of_frozen hf

theorem operatorResult_of_not_mem {k : Str} {vals : List Nat} {lit : Bool} (h : ∀ q ∈ T.st, q.key ≠ k) :
    operatorResult T k vals lit = .secondary none := by
  rw [operatorResult, secondaryByKey_eq_none.2 h]

/-- The record of a registered operator of two operands (R153, R154): a consistent table has given its layout the fields A
and B, each as wide as its shape, so values of these widths are encoded. -/
theorem operatorResult_of_two_operands {k : Str} {x y : OperandShape} {v w : Nat} (hc : consistent T = true)
    (hkeys : (T.st.map Secondary.key).Nodup) (hq : q ∈ T.st) (hkey : q.key = k)
    (hsig : parseShape (sigOf k) = some [x, y]) (hv : v < 2 ^ fieldBits x) (hw : w < 2 ^ fieldBits y) (lit : Bool) :
    ∃ p ∈ T.pt, p.opcode = q.parent ∧ operatorResult T k [v, w] lit = .decode (.decoded {
      primary := p, op := q, len := 1 + q.layout.length,
      fields := [{ letter := letterOf 0, value := v, width := fieldBits x },
                 { letter := letterOf 1, value := w, width := fieldBits y }],
      operands := some [typedOperand x v, typedOperand y w], literalsOk := lit }) := by
  subst hkey
  obtain ⟨p, hp⟩ := exists_parent_of_consistent hc hq
  obtain ⟨hpt, hcode⟩ := mem_of_primaryByCode hp
  obtain ⟨hletters, hbits⟩ := fieldWidths_of_consistent hc hq hsig
  replace hletters : lettersOf q.layout = [letterOf 0, letterOf 1] := hletters
  obtain ⟨hx, hy⟩ : fieldCount q.layout (letterOf 0) = fieldBits x ∧ fieldCount q.layout (letterOf 1) = fieldBits y := by
    simpa [fieldBitsAgree] using hbits
  have hfit : valuesFit q.layout [v, w] = true := by simp [valuesFit, hletters, hx, hy, hv, hw]
  obtain ⟨bs, hbs⟩ := Option.isSome_iff_exists.1 (encodeInstr_isSome (amid_lt_of_consistent hc hq) hfit)
  refine ⟨p, hpt, hcode, ?_⟩
  simp [operatorResult, secondaryByKey_of_mem hkeys hq, hbs, decodeValues, hp, decodedRecord, fieldsOfValues, hletters, hx,
    hy, operandsOf, hsig, fieldsFit]

theorem parseShape_sigOf_keyADDrn : parseShape (sigOf keyADDrn) = some [.registerGroup .w1, .immediate .w1] := by decide

theorem parseShape_sigOf_keyADDrr : parseShape (sigOf keyADDrr) = some [.registerGroup .w1, .registerGroup .w1] := by
  decide

end Rows

/-! ### The statements -/

/-- Settles O20: the mnemonic is found once, its opcode leads back to it, and byte 0 alone ends at the secondaries. -/
theorem familyByteVerdict : Obligations.FamilyByteVerdict := by
  rintro s i m ⟨hf, hm, -, -, -, hc⟩ hi
  rw [exec_familyRow hf hi]
  refine ⟨fun hnone => by rw [familyResult_of_not_mem hnone], ?_⟩
  rintro p hp rfl
  have hcode : primaryByCode s.table p.opcode = some p := primaryByCode_of_consistent (hc hf) hp
  rw [familyResult_of_mem hm hp]
  refine ⟨fun hs => ?_, fun ⟨q, hq, hparent⟩ => ?_⟩
  · rw [decodeInstr_of_secondariesOf_nil hcode (secondariesOf_eq_nil.2 hs)]
  · rw [decodeInstr_singleton_of_secondariesOf_ne_nil hcode]
    exact fun hnil => secondariesOf_eq_nil.1 hnil q hq hparent

/-- Settles O21: the record of two operands for the shapes of "ADD r,n", whose fields have 5 and 8 bits. -/
theorem addRegisterImmediateRecord : Obligations.AddRegisterImmediateRecord := by
  rintro s a b ⟨hf, -, hkeys, -, -, hc⟩
  rw [exec_addRN hf]
  refine ⟨fun hnone => by rw [operatorResult_of_not_mem hnone], fun q hq hkey => ?_⟩
  obtain ⟨p, hp, hparent, hrecord⟩ := operatorResult_of_two_operands (hc hf) hkeys hq hkey
    parseShape_sigOf_keyADDrn a.isLt b.isLt true
  exact ⟨p, hp, hparent, by rw [hrecord]; rfl⟩

/-- Settles O22: the record of two operands for the shapes of "ADD r,r", whose fields have 5 bits each. -/
theorem addRegisterRegisterRecord : Obligations.AddRegisterRegisterRecord := by
  rintro s a b lit ⟨hf, -, hkeys, -, -, hc⟩
  rw [exec_addRR hf]
  refine ⟨fun hnone => by rw [operatorResult_of_not_mem hnone], fun q hq hkey => ?_⟩
  obtain ⟨p, hp, hparent, hrecord⟩ := operatorResult_of_two_operands (hc hf) hkeys hq hkey
    parseShape_sigOf_keyADDrr a.isLt b.isLt lit
  exact ⟨p, hp, hparent, by rw [hrecord]; rfl⟩

/-- Settles O33: characters and tags are inverse, and splitting at spaces undoes the joining of groups. -/
theorem templateRoundTrip : Obligations.TemplateRoundTrip :=
  ⟨printTemplate_eq_layoutText, fun _ L =>
    ⟨printTemplate_eq_layoutText L ▸ parseTemplate_eq_some, parseTemplate_eq_some⟩⟩

/-- Settles O35, check by check. -/
theorem wellFormedLayoutMeansSixChecks : Obligations.WellFormedLayoutMeansSixChecks := by
  intro L
  simp only [← headerForm_iff, ← wfCheck_nonempty_iff, ← wfCheck_wholeBytes_iff, ← wfCheck_headerForm_iff,
    ← wfCheck_opOnlyInByte0_iff, ← wfCheck_lettersDense_iff, ← wfCheck_lettersOrdered_iff]
  simp only [wfLayout, Bool.and_eq_true, and_assoc]

/-- Settles O53: the second byte still matches the operator, which is the only one it matches, and fields and literals are
read where no tag is a don't-care. -/
theorem dontCareBitsAreIgnored : Obligations.DontCareBitsAreIgnored := by
  constructor
  · intro T P rest rest' d hc h hagree
    obtain ⟨raw, tail, p, q, rfl, hp, hq, hlen, rfl⟩ := decodeInstr_cons_eq_decoded.1 h
    change agreeExcept _ q.layout _ _ at hagree
    obtain ⟨raw', tail', rfl⟩ := List.exists_cons_of_length_eq_add_one hagree.1.symm
    obtain ⟨hst, rfl, hm⟩ := mem_of_decodeSecondary hq
    have hw := wfLayout_of_consistent hc hst
    have hq' : decodeSecondary T q.parent raw' = some q :=
      decodeSecondary_of_consistent hc hst (matchesRaw_of_agreeExcept_dontCare hw hagree ▸ hm)
    refine decodeInstr_cons_eq_decoded.2 ⟨raw', tail', p, q, rfl, hp, hq', hagree.1 ▸ hlen, ?_⟩
    rw [fieldsOf_congr hagree (by simp), literalsOk_congr (wholeBytes_of_wfLayout hw) hlen hagree (by simp)]
  · intro q vals P bs hw h j i t ht hx
    exact encodeInstr_canonicalBit hw h ht hx

/-- Settles O54: byte 0 and the fields are as they were, and the flag is `literalsOk` of the new stream. -/
theorem laterLiteralsOnlySetTheFlag : Obligations.LaterLiteralsOnlySetTheFlag := by
  constructor
  · intro T P rest rest' d hwf h hagree
    obtain ⟨raw, tail, p, q, rfl, hp, hq, hlen, rfl⟩ := decodeInstr_cons_eq_decoded.1 h
    change agreeExcept _ q.layout _ _ at hagree
    obtain ⟨raw', tail', rfl⟩ := List.exists_cons_of_length_eq_add_one hagree.1.symm
    have hw := hwf q (mem_of_decodeSecondary hq).1
    obtain rfl := eq_of_agreeExcept_cons hw hagree (by simp)
    have hlen' : q.layout.length ≤ (raw :: tail').length := hagree.1 ▸ hlen
    refine ⟨literalsOk q.layout (raw :: tail'), ?_, literalsOk_iff (wholeBytes_of_wfLayout hw) hlen'⟩
    refine decodeInstr_cons_eq_decoded.2 ⟨raw, tail', p, q, rfl, hp, hq, hlen', ?_⟩
    rw [← fieldsOf_congr hagree (by simp)]
    rfl
  · intro q vals P bs hw h j i t ht
    exact ⟨fun hx => encodeInstr_canonicalBit hw h ht hx, fun hx => encodeInstr_canonicalBit hw h ht hx⟩

/-- Settles O19: the verdicts of R154 on the one byte 0. -/
theorem nopByteVerdict : Obligations.NopByteVerdict := fun s hf =>
  ⟨decodeInstr s.table [0], exec_nop hf, fun hp => decodeInstr_of_primaryByCode_none hp [],
    fun _ hp hs => decodeInstr_of_secondariesOf_nil hp hs [],
    fun _ hp hs => decodeInstr_singleton_of_secondariesOf_ne_nil hp hs⟩

/-- Settles O60, by running the decoder on each word. -/
theorem wordsDecodeAsTheSpecWritesThem : Obligations.WordsDecodeAsTheSpecWritesThem := by
  refine ⟨by decide, ?_⟩
  rintro T rfl
  exact ⟨by decide, by decide, by decide, by decide, by decide⟩

end Sys2Proof.Machine
end

section
/-! PROOFS. The register namespace (40_register_namespace): runs of letters and the names `resolve` reads, groups, the decimal
index of a float name, and the six statements of the family. -/

namespace Sys2Proof.Machine

/-! ### Runs of letters (R70) -/

section LetterRuns

variable {i k : Nat}

/-- The `k` successive letters from position `i`, with wrap-around (R70). -/
def letterRun (i k : Nat) : Str := (List.range k).map fun j => letterChar (i + j)

@[simp] theorem letterRun_length : (letterRun i k).length = k := by simp [letterRun]

theorem letterRun_succ : letterRun i (k + 1) = letterChar i :: letterRun (i + 1) k := by
  simp [letterRun, List.range_succ_eq_map, Nat.add_comm, Nat.add_left_comm]

theorem head?_letterRun (hk : 1 ≤ k) : (letterRun i k).head? = some (letterChar i) := by
  obtain ⟨k, rfl⟩ := Nat.exists_eq_add_of_le' hk
  rw [letterRun_succ, List.head?_cons]

/-- The members of a run, as indices, spell the run. -/
theorem map_letterChar_members : ((List.range k).map fun j => (i + j) % 26).map letterChar = letterRun i k := by
  simp [letterRun, letterChar]

theorem letterPos?_letterChar (hi : i < 26) : letterPos? (letterChar i) = some i := by
  interval_cases i <;> rfl

theorem lt_of_letterPos? {c : Char} (h : letterPos? c = some i) : i < 26 := by
  obtain ⟨hc, rfl⟩ : (65 ≤ c.toNat ∧ c.toNat ≤ 90) ∧ c.toNat - 65 = i := by simpa [letterPos?] using h
  omega

theorem letterPos?_eq_some (c : Char) (i : Nat) : letterPos? c = some i ↔ i < 26 ∧ letterChar i = c :=
  ⟨fun h => ⟨lt_of_letterPos? h, letterChar_of_letterPos? h⟩, fun ⟨hi, hc⟩ => hc ▸ letterPos?_letterChar hi⟩

theorem letterChar_inj {j : Nat} (hi : i < 26) (hj : j < 26) : letterChar i = letterChar j ↔ i = j :=
  ⟨fun h => by simpa [letterPos?_letterChar, hi, hj] using congrArg letterPos? h, congrArg letterChar⟩

/-- Positions are contiguous exactly when the later ones count on, modulo 26, from the first. -/
theorem contiguous_cons_iff {a : Nat} {ps : List Nat} :
    contiguous (a :: ps) = true ↔ ps = (List.range ps.length).map fun j => (a + 1 + j) % 26 := by
  induction ps generalizing a with
  | nil => simp [contiguous]
  | cons b ps ih =>
    have hshift : (fun j => ((a + 1) % 26 + 1 + j) % 26) = fun j => (a + 1 + (j + 1)) % 26 := by
      funext j; omega
    rw [contiguous, Bool.and_eq_true, beq_iff_eq, ih, List.length_cons, List.range_succ_eq_map, List.map_cons,
      List.cons.injEq, List.map_map]
    refine and_congr_right fun hb => ?_
    rw [hb, hshift]
    rfl

end LetterRuns

/-! ### What `resolve` and `groupOf` read (R70, R71) -/

section Groups

variable {n p q : Str} {i k : Nat} {w : Width}

/-- `resolve` by its checks: the length, the letters, the succession. -/
theorem resolve_eq_some_iff_checks : resolve n = some i ↔
    (1 ≤ n.length ∧ n.length ≤ 4) ∧ ∃ ps, mapAll letterPos? n = some ps ∧ contiguous ps = true ∧ ps.head? = some i := by
  unfold resolve
  split_ifs with hlen
  · exact iff_of_false (by simp) fun ⟨hbounds, _⟩ => by omega
  · have hbounds : 1 ≤ n.length ∧ n.length ≤ 4 := by omega
    cases mapAll letterPos? n <;> simp [hbounds]

/-- `resolve` accepts exactly the runs of 1 to 4 letters. -/
theorem resolve_eq_some : resolve n = some i ↔ i < 26 ∧ ∃ k, 1 ≤ k ∧ k ≤ 4 ∧ n = letterRun i k := by
  simp only [resolve_eq_some_iff_checks, mapAll_eq_some_iff_map letterPos?_eq_some]
  constructor
  · rintro ⟨⟨hpos, hle⟩, ps, ⟨hlt, hn⟩, hcont, hhead⟩
    obtain ⟨ps, rfl⟩ := List.head?_eq_some_iff.1 hhead
    have hlen : n.length = ps.length + 1 := by simp [← hn]
    refine ⟨hlt i (by simp), ps.length + 1, by omega, by omega, ?_⟩
    rw [letterRun_succ, ← map_letterChar_members, ← contiguous_cons_iff.1 hcont, ← hn, List.map_cons]
  · rintro ⟨hi, k, hpos, hle, rfl⟩
    obtain ⟨k, rfl⟩ := Nat.exists_eq_add_of_le' hpos
    refine ⟨by simpa using hle, i :: (List.range k).map fun j => (i + 1 + j) % 26, ⟨?_, ?_⟩, ?_, rfl⟩
    · simpa [hi] using fun j _ => Nat.mod_lt _ (by decide)
    · rw [List.map_cons, map_letterChar_members, letterRun_succ]
    · simp [contiguous_cons_iff]

theorem resolve_letterRun (hi : i < 26) (hpos : 1 ≤ k) (hle : k ≤ 4) : resolve (letterRun i k) = some i :=
  resolve_eq_some.2 ⟨hi, k, hpos, hle, rfl⟩

/-- A name with a character that is no letter does not resolve. -/
theorem resolve_eq_none_of_mem {c : Char} (hc : c ∈ n) (hletter : letterPos? c = none) : resolve n = none := by
  refine Option.eq_none_iff_forall_ne_some.2 fun i h => ?_
  obtain ⟨-, ps, hps, -⟩ := resolve_eq_some_iff_checks.1 h
  have hmem : letterPos? c ∈ ps.map some := mapAll_eq_some.1 hps ▸ List.mem_map_of_mem hc
  simp [hletter] at hmem

theorem one_le_widthNat (w : Width) : 1 ≤ widthNat w := by cases w <;> decide

theorem widthNat_le_four (w : Width) : widthNat w ≤ 4 := by cases w <;> decide

theorem exists_widthNat_eq (hpos : 1 ≤ k) (hle : k ≤ 4) : ∃ w, widthNat w = k := by
  interval_cases k
  exacts [⟨.w1, rfl⟩, ⟨.w2, rfl⟩, ⟨.w3, rfl⟩, ⟨.w4, rfl⟩]

theorem widthOfNat?_eq_some : widthOfNat? k = some w ↔ widthNat w = k := by
  constructor
  · intro h
    unfold widthOfNat? at h
    split at h <;> cases h <;> rfl
  · rintro rfl
    cases w <;> rfl

theorem groupOf_eq_some : groupOf n = some (i, w) ↔ resolve n = some i ∧ widthNat w = n.length := by
  rw [← widthOfNat?_eq_some, groupOf]
  cases resolve n <;> cases widthOfNat? n.length <;> simp

theorem groupOf_eq_none : groupOf n = none ↔ resolve n = none := by
  constructor
  · intro h
    refine Option.eq_none_iff_forall_ne_some.2 fun i hr => ?_
    obtain ⟨⟨hpos, hle⟩, -⟩ := resolve_eq_some_iff_checks.1 hr
    obtain ⟨w, hw⟩ := exists_widthNat_eq hpos hle
    rw [groupOf_eq_some.2 ⟨hr, hw⟩] at h
    cases h
  · intro h
    rw [groupOf, h]

/-- A group has one name: the run of its width's letters from its index. -/
theorem eq_letterRun_of_groupOf (h : groupOf n = some (i, w)) : n = letterRun i (widthNat w) := by
  obtain ⟨hr, hw⟩ := groupOf_eq_some.1 h
  obtain ⟨-, k, -, -, rfl⟩ := resolve_eq_some.1 hr
  rw [hw, letterRun_length]

theorem groupOf_injOn_valid (hp : resolve p ≠ none) (h : groupOf p = groupOf q) : p = q := by
  obtain ⟨⟨i, w⟩, hg⟩ := Option.ne_none_iff_exists'.1 (mt groupOf_eq_none.1 hp)
  exact (eq_letterRun_of_groupOf hg).trans (eq_letterRun_of_groupOf (h ▸ hg)).symm

theorem head?_of_resolve (h : resolve n = some i) : n.head? = some (letterChar i) := by
  obtain ⟨-, k, hpos, -, rfl⟩ := resolve_eq_some.1 h
  exact head?_letterRun hpos

theorem nameOfGroup_of_le (w : Width) (hi : i ≤ 25) : nameOfGroup i w = some (letterRun i (widthNat w)) := by
  rw [nameOfGroup, if_pos hi, groupMembers, map_letterChar_members]

end Groups

/-! ### The decimal index of a float name (R72) -/

section FloatNames

variable {n d : Str} {i v : Nat} {ds : List Nat}

/-- The character of a decimal digit. -/
def digitChar (v : Nat) : Char := Char.ofNat (48 + v)

theorem digitVal?_digitChar (hv : v < 10) : digitVal? (digitChar v) = some v := by
  interval_cases v <;> rfl

theorem digitVal?_eq_some (c : Char) (v : Nat) : digitVal? c = some v ↔ v < 10 ∧ digitChar v = c := by
  constructor
  · intro h
    obtain ⟨⟨hlo, hhi⟩, rfl⟩ : (48 ≤ c.toNat ∧ c.toNat ≤ 57) ∧ c.toNat - 48 = v := by simpa [digitVal?] using h
    exact ⟨by omega, by rw [digitChar, Nat.add_sub_cancel' hlo, Char.ofNat_toNat]⟩
  · rintro ⟨hv, rfl⟩
    exact digitVal?_digitChar hv

theorem letterPos?_digitChar (hv : v < 10) : letterPos? (digitChar v) = none := by
  interval_cases v <;> rfl

/-- The decimal digits of a number below 100, without a redundant zero. -/
def decimalDigits (i : Nat) : List Nat := if i < 10 then [i] else [i / 10, i % 10]

theorem map_digitChar_decimalDigits (i : Nat) : (decimalDigits i).map digitChar = decimalStr i := by
  unfold decimalDigits decimalStr
  split_ifs <;> rfl

/-- The checks of R72 on a list of digits hold exactly of the decimal digits of its number. -/
theorem digits_spell_iff : ((∀ v ∈ ds, v < 10) ∧ (1 ≤ ds.length ∧ ds.length ≤ 2) ∧ ¬(ds.length = 2 ∧ ds.head? = some 0) ∧
    decimalOf ds = i) ↔ i < 100 ∧ ds = decimalDigits i := by
  constructor
  · rintro ⟨hdigit, hlen, hzero, rfl⟩
    match ds with
    | [] => simp at hlen
    | [a] =>
      have ha : a < 10 := hdigit a (by simp)
      have hval : decimalOf [a] = a := by simp [decimalOf]
      rw [hval, decimalDigits, if_pos ha]
      exact ⟨by omega, rfl⟩
    | [a, b] =>
      have ha : a < 10 := hdigit a (by simp)
      have hb : b < 10 := hdigit b (by simp)
      have ha0 : a ≠ 0 := by simpa using hzero
      have hval : decimalOf [a, b] = a * 10 + b := by simp [decimalOf]
      rw [hval, decimalDigits, if_neg (by omega)]
      exact ⟨by omega, by congr <;> omega⟩
    | _ :: _ :: _ :: _ => simp at hlen
  · rintro ⟨hi, rfl⟩
    unfold decimalDigits
    split_ifs with h10
    · simpa [decimalOf] using h10
    · simp [decimalOf]; omega

/-- The suffix behind "F" or "FR": which of the two is tried first only matters to a suffix that begins with `R`. -/
theorem floatSuffix_eq_some (hd : d.head? ≠ some 'R') : floatSuffix n = some d ↔ n = 'F' :: d ∨ n = 'F' :: 'R' :: d := by
  unfold floatSuffix
  split
  case h_1 d' =>
    have hne : 'R' :: d' ≠ d := by rintro rfl; exact hd rfl
    simp [hne]
  case h_2 d' hnotR =>
    have hne : d' ≠ 'R' :: d := fun h => hnotR d h
    simp [hne]
  case h_3 hnotFR hnotF =>
    simp [show n ≠ 'F' :: d from hnotF d, show n ≠ 'F' :: 'R' :: d from hnotFR d]

/-- `resolveFloat` by its checks: what stands before the digits, one or two digits, no redundant zero, at most 15. -/
theorem resolveFloat_eq_some_iff_checks : resolveFloat n = some i ↔
    ∃ d ds, floatSuffix n = some d ∧ (1 ≤ d.length ∧ d.length ≤ 2) ∧ mapAll digitVal? d = some ds ∧
      ¬(ds.length = 2 ∧ ds.head? = some 0) ∧ decimalOf ds ≤ 15 ∧ decimalOf ds = i := by
  unfold resolveFloat
  cases floatSuffix n with
  | none => simp
  | some d =>
    dsimp only
    split_ifs with hlen
    · refine iff_of_false (by simp) ?_
      rintro ⟨d', ds, hd, hbounds, -⟩
      cases hd
      omega
    · have hbounds : 1 ≤ d.length ∧ d.length ≤ 2 := by omega
      cases hds : mapAll digitVal? d with
      | none => simp [hds]
      | some ds => simp [hds, hbounds, not_lt]

/-- A float name is "F" or "FR" and the decimal spelling of an index up to 15. -/
theorem resolveFloat_eq_some_iff_suffix : resolveFloat n = some i ↔ i ≤ 15 ∧ floatSuffix n = some (decimalStr i) := by
  simp only [resolveFloat_eq_some_iff_checks, mapAll_eq_some_iff_map digitVal?_eq_some]
  constructor
  · rintro ⟨d, ds, hsuffix, hlen, ⟨hdigit, rfl⟩, hzero, hle, hval⟩
    rw [List.length_map] at hlen
    obtain ⟨-, rfl⟩ := digits_spell_iff.1 ⟨hdigit, hlen, hzero, hval⟩
    exact ⟨hval ▸ hle, by rw [hsuffix, map_digitChar_decimalDigits]⟩
  · rintro ⟨hi, hsuffix⟩
    obtain ⟨hdigit, hlen, hzero, hval⟩ := digits_spell_iff.2 ⟨(by omega : i < 100), rfl⟩
    refine ⟨decimalStr i, decimalDigits i, hsuffix, ?_, ⟨hdigit, map_digitChar_decimalDigits i⟩, hzero, hval.symm ▸ hi, hval⟩
    rwa [← map_digitChar_decimalDigits, List.length_map]

/-- The last digit of a decimal spelling is one of its characters. -/
theorem digitChar_mem_decimalStr (i : Nat) : digitChar (i % 10) ∈ decimalStr i := by
  rw [← map_digitChar_decimalDigits]
  refine List.mem_map_of_mem ?_
  unfold decimalDigits
  split_ifs with h
  · simp [Nat.mod_eq_of_lt h]
  · simp

theorem head?_decimalStr_ne_R (hi : i ≤ 15) : (decimalStr i).head? ≠ some 'R' := by
  interval_cases i <;> decide

theorem resolveFloat_eq_some : resolveFloat n = some i ↔
    i ≤ 15 ∧ (n = 'F' :: decimalStr i ∨ n = 'F' :: 'R' :: decimalStr i) := by
  rw [resolveFloat_eq_some_iff_suffix]
  exact and_congr_right fun hi => floatSuffix_eq_some (head?_decimalStr_ne_R hi)

/-- A float name holds a digit, and `resolve` rejects digits (R72). -/
theorem resolve_eq_none_of_resolveFloat (h : resolveFloat n = some i) : resolve n = none := by
  obtain ⟨-, hn⟩ := resolveFloat_eq_some.1 h
  have hmem : digitChar (i % 10) ∈ n := by
    rcases hn with rfl | rfl <;> simp [digitChar_mem_decimalStr]
  exact resolve_eq_none_of_mem hmem (letterPos?_digitChar (Nat.mod_lt _ (by decide)))

end FloatNames

/-! ### The statements of the family -/

/-- Settles O28: `resolve` reads letter runs, and a group's width is its name's length. -/
theorem resolveReadsLetterRuns : Obligations.ResolveReadsLetterRuns :=
  ⟨fun _ _ => resolve_eq_some, fun _ _ _ => groupOf_eq_some, fun _ => groupOf_eq_none, rfl, fun _ _ => rfl⟩

/-- Settles O29: the digits behind "F" or "FR" are the index's own, and no letter run holds a digit. -/
theorem resolveFloatReadsThirtyTwoNames : Obligations.ResolveFloatReadsThirtyTwoNames := by
  refine ⟨fun _ _ => resolveFloat_eq_some, fun n h => ?_⟩
  obtain ⟨i, hi⟩ := Option.ne_none_iff_exists'.1 h
  exact resolve_eq_none_of_resolveFloat hi

/-- Settles O31: the printed names are the runs and spellings that `resolve` and `resolveFloat` read. -/
theorem registerNamesInvert : Obligations.RegisterNamesInvert := by
  refine ⟨fun i w hi => ?_, fun i w hi => if_neg (by omega), fun i => ?_⟩
  · exact ⟨letterRun i (widthNat w), nameOfGroup_of_le w hi, rfl,
      resolve_letterRun (by omega) (one_le_widthNat w) (widthNat_le_four w), letterRun_length⟩
  · have hi : i.val ≤ 15 := by omega
    exact ⟨rfl, resolveFloat_eq_some.2 ⟨hi, .inl rfl⟩, resolveFloat_eq_some.2 ⟨hi, .inr rfl⟩⟩

/-- Settles O32: the first letter of a run fixes its index, the index and the length fix the run. -/
theorem registerAliasesShareFirstLetter : Obligations.RegisterAliasesShareFirstLetter := by
  refine ⟨fun p q hp hq => ?_, fun p q hp _ => ⟨groupOf_injOn_valid hp, congrArg groupOf⟩, by decide, by decide⟩
  obtain ⟨i, hi⟩ := Option.ne_none_iff_exists'.1 hp
  obtain ⟨j, hj⟩ := Option.ne_none_iff_exists'.1 hq
  rw [hi, hj, head?_of_resolve hi, head?_of_resolve hj, Option.some_inj, Option.some_inj,
    letterChar_inj (resolve_eq_some.1 hi).1 (resolve_eq_some.1 hj).1]

/-- Settles O24: each operation answers while the block is live. -/
theorem namespaceOperationsAnswer : Obligations.NamespaceOperationsAnswer := fun _ _ _ _ _ hlive =>
  ⟨whileLive_of_live hlive, whileLive_of_live hlive, whileLive_of_live hlive, whileLive_of_live hlive,
    whileLive_of_live hlive, whileLive_of_live hlive⟩

/-- Settles O30: none of the three names is a letter run, and none begins with `F`. -/
theorem specialRegistersAreThree : Obligations.SpecialRegistersAreThree := by
  intro n
  have hmem : isSpecialRegister n = true ↔ n ∈ [['S', 'P', 'C'], ['S', 'P', 'R'], ['I', 'P', 'O']] := by
    simp [isSpecialRegister, or_assoc]
  refine ⟨hmem, fun h => ?_⟩
  have hname := hmem.1 h
  simp only [List.mem_cons, List.not_mem_nil, or_false] at hname
  obtain rfl | rfl | rfl := hname
  all_goals decide

end Sys2Proof.Machine
end

section
/-! PROOFS. The operand shape grammar (41_shape_grammar): joined strings, runs of one character, the parenthesised
form, the tokens and their separation at the commas outside parentheses, and the two statements of the family. -/

namespace Sys2Proof.Machine

/-! ### Joined strings -/

section Joined

theorem joinWith_cons {c : Char} (s : Str) {ss : List Str} (h : ss ≠ []) :
    joinWith c (s :: ss) = s ++ c :: joinWith c ss := by
  cases ss with
  | nil => exact absurd rfl h
  | cons t ss => rfl

theorem mem_joinWith {c y : Char} {ss : List Str} (h : y ∈ joinWith c ss) : y = c ∨ ∃ s ∈ ss, y ∈ s := by
  induction ss with
  | nil => cases h
  | cons s ss ih =>
    cases ss with
    | nil => exact .inr ⟨s, by simp, h⟩
    | cons u us =>
      rw [joinWith_cons s (by simp), List.mem_append, List.mem_cons] at h
      obtain hs | rfl | hrest := h
      · exact .inr ⟨s, by simp, hs⟩
      · exact .inl rfl
      · exact (ih hrest).imp_right fun ⟨v, hv, hy⟩ => ⟨v, List.mem_cons_of_mem s hv, hy⟩

end Joined

/-! ### Runs of one character (R86) -/

section Runs

variable {c d : Char} {t : Str} {w : Width}

theorem runText_eq_replicate (c : Char) (w : Width) : runText c w = List.replicate (widthNat w) c := by
  cases w <;> rfl

theorem runOf_eq_some : runOf c t = some w ↔ List.replicate (widthNat w) c = t := by
  have hall : t.all (· == c) = true ↔ ∀ d ∈ t, d = c := by simp
  rw [runOf, Option.ite_none_right_eq_some, widthOfNat?_eq_some, hall, eq_comm (b := t), List.eq_replicate_iff,
    and_comm, eq_comm (b := t.length)]

@[simp] theorem runOf_replicate (c : Char) (w : Width) : runOf c (List.replicate (widthNat w) c) = some w :=
  runOf_eq_some.2 rfl

theorem runOf_eq_none_of_mem (hd : d ∈ t) (hne : d ≠ c) : runOf c t = none := by
  refine if_neg fun h => hne ?_
  simpa using List.all_eq_true.1 h d hd

theorem mem_run_self (c : Char) (w : Width) : c ∈ List.replicate (widthNat w) c :=
  List.mem_replicate.2 ⟨Nat.pos_iff_ne_zero.1 (one_le_widthNat w), rfl⟩

theorem runOf_replicate_of_ne (hne : d ≠ c) : runOf c (List.replicate (widthNat w) d) = none :=
  runOf_eq_none_of_mem (mem_run_self d w) hne

end Runs

/-! ### The parenthesised form (R86, R87) -/

section Indirect

variable {p : Str} {b : Inner} {d : Disp} {x : OperandShape}

theorem parseBase_eq_some : parseBase p = some b ↔ printInner b = p := by
  constructor
  · intro h
    unfold parseBase at h
    split at h
    next w hn => cases h; exact runOf_eq_some.1 hn
    next =>
      obtain ⟨w, hr, rfl⟩ := Option.map_eq_some_iff.1 h
      exact runOf_eq_some.1 hr
  · rintro rfl
    cases b with
    | address w => simp [parseBase, printInner]
    | group w => simp [parseBase, printInner, runOf_replicate_of_ne]

theorem parseDisp_eq_some : parseDisp p = some d ↔ d ≠ .none ∧ printDisp d = p := by
  constructor
  · intro h
    unfold parseDisp at h
    split at h
    next w hn => cases h; exact ⟨nofun, runOf_eq_some.1 hn⟩
    next =>
      obtain ⟨w, hr, rfl⟩ := Option.map_eq_some_iff.1 h
      exact ⟨nofun, runOf_eq_some.1 hr⟩
  · rintro ⟨hd, rfl⟩
    cases d with
    | none => exact absurd rfl hd
    | immediate w => simp [parseDisp, printDisp]
    | group w => simp [parseDisp, printDisp, runOf_replicate_of_ne]

/-- What stands between the parentheses, cut at its comma: the base alone, or the base and the displacement (R86). -/
def indirectParts (b : Inner) : Disp → List Str
  | .none => [printInner b]
  | d => [printInner b, printDisp d]

theorem indirectParts_of_ne_none (b : Inner) (hd : d ≠ .none) : indirectParts b d = [printInner b, printDisp d] := by
  cases d with
  | none => exact absurd rfl hd
  | immediate _ | group _ => rfl

theorem printToken_memoryIndirect (b : Inner) (d : Disp) :
    printToken (.memoryIndirect b d) = '(' :: joinWith ',' (indirectParts b d) ++ [')'] := by
  cases d <;> simp [printToken, indirectParts, joinWith]

theorem eq_n_or_r_of_mem_printInner {c : Char} (h : c ∈ printInner b) : c = 'n' ∨ c = 'r' := by
  cases b with
  | address _ => exact .inl (List.eq_of_mem_replicate h)
  | group _ => exact .inr (List.eq_of_mem_replicate h)

theorem eq_n_or_r_of_mem_printDisp {c : Char} (h : c ∈ printDisp d) : c = 'n' ∨ c = 'r' := by
  cases d with
  | none => cases h
  | immediate _ => exact .inl (List.eq_of_mem_replicate h)
  | group _ => exact .inr (List.eq_of_mem_replicate h)

theorem eq_n_or_r_of_mem_indirectParts {s : Str} {c : Char} (hs : s ∈ indirectParts b d) (h : c ∈ s) :
    c = 'n' ∨ c = 'r' := by
  have hpart : s = printInner b ∨ s = printDisp d := by
    cases d with
    | none => exact .inl (List.mem_singleton.1 hs)
    | immediate _ | group _ => simpa [indirectParts] using hs
  obtain rfl | rfl := hpart
  · exact eq_n_or_r_of_mem_printInner h
  · exact eq_n_or_r_of_mem_printDisp h

theorem splitOnChar_eq_indirectParts :
    splitOnChar ',' p = indirectParts b d ↔ joinWith ',' (indirectParts b d) = p := by
  constructor
  · intro h
    rw [← h, joinWith_splitOnChar]
  · rintro rfl
    refine splitOnChar_joinWith (by cases d <;> simp [indirectParts]) fun s hs hcomma => ?_
    exact absurd (eq_n_or_r_of_mem_indirectParts hs hcomma) (by decide)

/-- The text between the parentheses parses to the one indirect operand whose parts it spells (R87). -/
theorem parseIndirect_eq_some :
    parseIndirect p = some x ↔ ∃ b d, x = .memoryIndirect b d ∧ joinWith ',' (indirectParts b d) = p := by
  simp only [← splitOnChar_eq_indirectParts, parseIndirect]
  constructor
  · intro h
    split at h
    next s hs =>
      obtain ⟨b, hb, rfl⟩ := Option.map_eq_some_iff.1 h
      exact ⟨b, .none, rfl, by rw [hs, indirectParts, parseBase_eq_some.1 hb]⟩
    next s t hs =>
      split at h
      next b d hb hd =>
        cases h
        obtain ⟨hne, ht⟩ := parseDisp_eq_some.1 hd
        exact ⟨b, d, rfl, by rw [hs, indirectParts_of_ne_none b hne, parseBase_eq_some.1 hb, ht]⟩
      next => cases h
    next => cases h
  · rintro ⟨b, d, rfl, h⟩
    have hb : parseBase (printInner b) = some b := parseBase_eq_some.2 rfl
    by_cases hd : d = .none
    · subst hd
      simp [h, indirectParts, hb]
    · simp [h, indirectParts_of_ne_none b hd, hb, parseDisp_eq_some.2 ⟨hd, rfl⟩]

end Indirect

/-! ### One operand (R86, R87) -/

section Tokens

theorem printInner_eq_innerText (b : Inner) : printInner b = innerText b := by
  cases b <;> simp [printInner, innerText, runText_eq_replicate]

theorem printToken_eq_shapeText (x : OperandShape) : printToken x = shapeText x := by
  cases x with
  | registerGroup w | immediate w => exact (runText_eq_replicate _ w).symm
  | floatRegister => rfl
  | memoryIndirect b d =>
    cases d <;> simp [printToken, shapeText, printInner_eq_innerText, printDisp, runText_eq_replicate]

/-- The text in parentheses, not empty, as `parseToken` tests for it (R87). -/
theorem parenthesised_iff {t : Str} : (3 ≤ t.length ∧ t.head? = some '(' ∧ t.getLast? = some ')') ↔
    ∃ p, p ≠ [] ∧ '(' :: p ++ [')'] = t := by
  constructor
  · rintro ⟨hlen, hhead, hlast⟩
    obtain ⟨rest, rfl⟩ := List.head?_eq_some_iff.1 hhead
    obtain ⟨front, hfront⟩ := List.getLast?_eq_some_iff.1 hlast
    cases front with
    | nil => simp [hfront] at hlen
    | cons c p =>
      obtain ⟨rfl, rfl⟩ : '(' = c ∧ rest = p ++ [')'] := by simpa using hfront
      exact ⟨p, by rintro rfl; simp at hlen, rfl⟩
  · rintro ⟨p, hp, rfl⟩
    have hpos := List.length_pos_iff.2 hp
    exact ⟨by simp; omega, rfl, List.getLast?_concat⟩

theorem parseToken_parenthesised {p : Str} (hp : p ≠ []) : parseToken ('(' :: p ++ [')']) = parseIndirect p := by
  have hrun {c : Char} (hc : '(' ≠ c) : runOf c ('(' :: p ++ [')']) = none := runOf_eq_none_of_mem (by simp) hc
  have hparen := parenthesised_iff.2 ⟨p, hp, rfl⟩
  rw [parseToken, hrun (by decide), hrun (by decide), if_neg (by simp), if_pos hparen]
  simp

theorem joinWith_indirectParts_ne_nil (b : Inner) (d : Disp) : joinWith ',' (indirectParts b d) ≠ [] := by
  intro h
  have hparts := splitOnChar_eq_indirectParts.2 h
  have hbase : printInner b = [] := by
    cases d with
    | none => simpa [splitOnChar, indirectParts] using hparts.symm
    | immediate _ | group _ => simp [splitOnChar, indirectParts] at hparts
  have hnone := parseBase_eq_some.2 hbase
  rw [show parseBase [] = none from rfl] at hnone
  cases hnone

theorem parseToken_printToken (x : OperandShape) : parseToken (printToken x) = some x := by
  cases x with
  | registerGroup w => simp [parseToken, printToken]
  | immediate w => simp [parseToken, printToken, runOf_replicate_of_ne]
  | floatRegister => rfl
  | memoryIndirect b d =>
    rw [printToken_memoryIndirect, parseToken_parenthesised (joinWith_indirectParts_ne_nil b d)]
    exact parseIndirect_eq_some.2 ⟨b, d, rfl, rfl⟩

/-- A token parses to exactly the operand that prints as it (R89). -/
theorem parseToken_eq_some {t : Str} {x : OperandShape} : parseToken t = some x ↔ printToken x = t := by
  refine ⟨fun h => ?_, fun h => h ▸ parseToken_printToken x⟩
  unfold parseToken at h
  split at h
  next w hr => cases h; exact runOf_eq_some.1 hr
  split at h
  next w hn => cases h; exact runOf_eq_some.1 hn
  split_ifs at h with hfr hparen
  · cases h; exact hfr.symm
  · obtain ⟨p, -, rfl⟩ := parenthesised_iff.1 hparen
    obtain ⟨b, d, rfl, hp⟩ := parseIndirect_eq_some.1 h
    rw [printToken_memoryIndirect, hp]
    simp

theorem printToken_ne_nil (x : OperandShape) : printToken x ≠ [] := fun h => by
  have hnone := parseToken_eq_some.2 h
  rw [show parseToken [] = none from rfl] at hnone
  cases hnone

end Tokens

/-! ### The commas outside parentheses (R87) -/

section SplitTop

variable {inParen : Bool} {cur s t : Str} {toks : List Str}

/-- A character that is no parenthesis, and no comma outside parentheses, goes to the token in hand. -/
theorem splitTopFrom_cons_plain {c : Char} (hopen : c ≠ '(') (hclose : c ≠ ')') (hcomma : c = ',' → inParen = true) :
    splitTopFrom (c :: s) inParen cur toks = splitTopFrom s inParen (cur ++ [c]) toks := by
  have hsep : ¬(c = ',' ∧ inParen = false) := fun h => by simp [hcomma h.1] at h
  rw [splitTopFrom, if_neg hopen, if_neg hclose, if_neg hsep]

theorem splitTopFrom_comma : splitTopFrom (',' :: s) false cur toks = splitTopFrom s false [] (toks ++ [cur]) := by
  simp [splitTopFrom]

theorem splitTopFrom_open : splitTopFrom ('(' :: s) false cur toks = splitTopFrom s true (cur ++ ['(']) toks := by
  simp [splitTopFrom]

theorem splitTopFrom_close : splitTopFrom (')' :: s) true cur toks = splitTopFrom s false (cur ++ [')']) toks := by
  simp [splitTopFrom]

theorem splitTopFrom_append_plain (hparen : '(' ∉ t ∧ ')' ∉ t) (hcomma : ',' ∈ t → inParen = true) :
    splitTopFrom (t ++ s) inParen cur toks = splitTopFrom s inParen (cur ++ t) toks := by
  induction t generalizing cur with
  | nil => simp
  | cons c t ih =>
    obtain ⟨⟨hopen, hopen'⟩, hclose, hclose'⟩ : ('(' ≠ c ∧ '(' ∉ t) ∧ ')' ≠ c ∧ ')' ∉ t := by simpa using hparen
    rw [List.cons_append, splitTopFrom_cons_plain hopen.symm hclose.symm fun h => hcomma (by simp [h]),
      ih ⟨hopen', hclose'⟩ fun h => hcomma (List.mem_cons_of_mem c h), List.append_assoc, List.singleton_append]

/-- A text that ends outside parentheses and holds no comma there: the splitter reads it whole into the token in hand. -/
def ReadWhole (t : Str) : Prop :=
  ∀ (s cur : Str) (toks : List Str), splitTopFrom (t ++ s) false cur toks = splitTopFrom s false (cur ++ t) toks

theorem readWhole_replicate {c : Char} (n : Nat) (hc : c ≠ '(' ∧ c ≠ ')' ∧ c ≠ ',') :
    ReadWhole (List.replicate n c) := fun _ _ _ =>
  splitTopFrom_append_plain ⟨fun h => hc.1 (List.eq_of_mem_replicate h).symm,
    fun h => hc.2.1 (List.eq_of_mem_replicate h).symm⟩ fun h => absurd (List.eq_of_mem_replicate h).symm hc.2.2

theorem readWhole_parenthesised (h : '(' ∉ t ∧ ')' ∉ t) : ReadWhole ('(' :: t ++ [')']) := fun s cur toks => by
  rw [List.cons_append, List.cons_append, splitTopFrom_open, List.append_assoc,
    splitTopFrom_append_plain h fun _ => rfl, List.singleton_append, splitTopFrom_close]
  simp

theorem readWhole_printToken (x : OperandShape) : ReadWhole (printToken x) := by
  cases x with
  | registerGroup w | immediate w => exact readWhole_replicate _ (by decide)
  | floatRegister => exact fun _ _ _ => splitTopFrom_append_plain (by decide) (by decide)
  | memoryIndirect b d =>
    have hchar {y : Char} (h : y ∈ joinWith ',' (indirectParts b d)) : y = ',' ∨ y = 'n' ∨ y = 'r' :=
      (mem_joinWith h).imp_right fun ⟨_, hs, hy⟩ => eq_n_or_r_of_mem_indirectParts hs hy
    rw [printToken_memoryIndirect]
    exact readWhole_parenthesised ⟨fun h => absurd (hchar h) (by decide), fun h => absurd (hchar h) (by decide)⟩

theorem splitTopFrom_joinWith {ts : List Str} (hne : ts ≠ []) (h : ∀ t ∈ ts, ReadWhole t) :
    splitTopFrom (joinWith ',' ts) false [] toks = some (toks ++ ts) := by
  induction ts generalizing toks with
  | nil => exact absurd rfl hne
  | cons t ts ih =>
    have ht : ReadWhole t := h t (by simp)
    cases ts with
    | nil => simpa [splitTopFrom, joinWith] using ht [] [] toks
    | cons u us =>
      rw [joinWith, ht, splitTopFrom_comma, ih (by simp) fun v hv => h v (List.mem_cons_of_mem t hv)]
      simp

/-- The splitter adds to the tokens it has those of the text still to read, joined by commas to that text again. -/
theorem exists_of_splitTopFrom_eq_some {r : List Str} (h : splitTopFrom s inParen cur toks = some r) :
    ∃ ts, ts ≠ [] ∧ r = toks ++ ts ∧ joinWith ',' ts = cur ++ s := by
  induction s generalizing inParen cur toks with
  | nil =>
    obtain ⟨-, rfl⟩ : inParen = false ∧ toks ++ [cur] = r := by simpa [splitTopFrom] using h
    exact ⟨[cur], by simp, rfl, by simp [joinWith]⟩
  | cons c s ih =>
    have hread {b : Bool} (h : splitTopFrom s b (cur ++ [c]) toks = some r) :
        ∃ ts, ts ≠ [] ∧ r = toks ++ ts ∧ joinWith ',' ts = cur ++ c :: s := by
      simpa using ih h
    unfold splitTopFrom at h
    split_ifs at h with hopen hin hclose hin hsep
    · exact hread h
    · exact hread h
    · obtain ⟨ts, hne, rfl, hts⟩ := ih h
      exact ⟨cur :: ts, by simp, by simp, by rw [joinWith_cons cur hne, hts, hsep.1, List.nil_append]⟩
    · exact hread h

theorem splitTop_printShape {xs : List OperandShape} (hne : xs ≠ []) :
    splitTop (printShape xs) = some (xs.map printToken) :=
  splitTopFrom_joinWith (by simpa using hne) (List.forall_mem_map.2 fun x _ => readWhole_printToken x)

theorem joinWith_of_splitTop (h : splitTop s = some toks) : joinWith ',' toks = s := by
  obtain ⟨ts, -, rfl, hts⟩ := exists_of_splitTopFrom_eq_some h
  exact hts

end SplitTop

/-! ### Signatures (R86 to R89) -/

section Signatures

variable {sig : Str} {xs : List OperandShape}

theorem printShape_eq_intercalate (xs : List OperandShape) :
    printShape xs = List.intercalate [','] (xs.map shapeText) := by
  rw [printShape, joinWith_eq_intercalate, funext printToken_eq_shapeText]

theorem printShape_eq_nil : printShape xs = [] ↔ xs = [] := by
  refine ⟨fun h => by_contra fun hne => ?_, fun h => h ▸ rfl⟩
  have hsplit : some [[]] = some (xs.map printToken) := by
    rw [← splitTop_printShape hne, h]
    rfl
  have hmem : [] ∈ xs.map printToken := Option.some_inj.1 hsplit ▸ List.mem_singleton_self _
  obtain ⟨x, -, hx⟩ := List.mem_map.1 hmem
  exact printToken_ne_nil x hx

theorem mapAll_parseToken_eq_some {toks : List Str} :
    mapAll parseToken toks = some xs ↔ xs.map printToken = toks := by
  simpa using mapAll_eq_some_iff_map (P := fun _ => True) (by simp [parseToken_eq_some])

theorem parseShape_eq_some_iff_tokens (hne : sig ≠ []) :
    parseShape sig = some xs ↔ xs.length ≤ 26 ∧ splitTop sig = some (xs.map printToken) := by
  rw [parseShape, if_neg hne]
  cases splitTop sig with
  | none => simp
  | some toks =>
    simp only [Option.ite_none_left_eq_some, mapAll_parseToken_eq_some, Option.some_inj, not_lt,
      eq_comm (a := toks)]
    exact and_congr_left fun h => by rw [← h, List.length_map]; rfl

/-- A signature parses to exactly the at most 26 shapes that print as it (R87, R89). -/
theorem parseShape_eq_some : parseShape sig = some xs ↔ xs.length ≤ 26 ∧ printShape xs = sig := by
  by_cases hsig : sig = []
  · subst hsig
    rw [printShape_eq_nil, parseShape, if_pos rfl, Option.some_inj]
    exact ⟨by rintro rfl; simp, fun h => h.2.symm⟩
  · rw [parseShape_eq_some_iff_tokens hsig]
    refine and_congr_right fun _ => ⟨joinWith_of_splitTop, ?_⟩
    rintro rfl
    exact splitTop_printShape (mt printShape_eq_nil.2 hsig)

end Signatures

/-! ### The statements of the family -/

/-- Settles O34: the printer spells R86, and the parser reads exactly what is printed. -/
theorem shapeSignatureRoundTrip : Obligations.ShapeSignatureRoundTrip :=
  ⟨printShape_eq_intercalate, fun _ xs => printShape_eq_intercalate xs ▸ parseShape_eq_some,
    fun _ hlen => parseShape_eq_some.2 ⟨hlen, rfl⟩, fun _ _ h => (parseShape_eq_some.1 h).symm⟩

/-- Settles O25: each operation answers while the block is live. -/
theorem grammarAndLayoutOperationsAnswer : Obligations.GrammarAndLayoutOperationsAnswer := fun _ _ _ _ _ hlive =>
  ⟨whileLive_of_live hlive, whileLive_of_live hlive, whileLive_of_live hlive, whileLive_of_live hlive,
    whileLive_of_live hlive, whileLive_of_live hlive, whileLive_of_live hlive, whileLive_of_live hlive⟩

end Sys2Proof.Machine
end

section
/-! PROOFS. The Bit Layout Compiler (42_layout_compiler): the bytes of one operand and of a list of operands, their field tags
and the order of those, the branches of `compileLayout`, and the three statements of the family. -/

namespace Sys2Proof.Machine

/-! ### The bytes of one operand (R51, R101 to R106) -/

section Operand

variable {X Y : Letter} {t : LayoutByte} {x : Tag}

/-- A byte of an operand of letter `X`: 8 tags, each a don't-care or the letter's field (R51). -/
def FieldByte (X : Letter) (t : LayoutByte) : Prop := t.length = 8 ∧ ∀ x ∈ t, x = .dontCare ∨ x = .field X

theorem fieldByte_regByte (X : Letter) : FieldByte X (regByte X) := by
  simp [FieldByte, regByte, Config.regFieldBits]

theorem fieldByte_fregByte (X : Letter) : FieldByte X (fregByte X) := by
  simp [FieldByte, fregByte, Config.fregFieldBits]

theorem fieldByte_of_mem_immBytes {w : Width} (h : t ∈ immBytes w X) : FieldByte X t := by
  rw [List.eq_of_mem_replicate h]
  simp [FieldByte]

theorem fieldByte_of_mem_baseBytes {b : Inner} (h : t ∈ baseBytes b X) : FieldByte X t := by
  cases b with
  | address w => exact fieldByte_of_mem_immBytes h
  | group w => exact List.mem_singleton.1 h ▸ fieldByte_regByte X

theorem fieldByte_of_mem_dispBytes {d : Disp} (h : t ∈ dispBytes d X) : FieldByte X t := by
  cases d with
  | none => simp [dispBytes] at h
  | immediate w => exact fieldByte_of_mem_immBytes h
  | group w => exact List.mem_singleton.1 h ▸ fieldByte_regByte X

theorem fieldByte_of_mem_operandBytes {sh : OperandShape} (h : t ∈ operandBytes sh X) : FieldByte X t := by
  cases sh with
  | registerGroup w => exact List.mem_singleton.1 h ▸ fieldByte_regByte X
  | floatRegister => exact List.mem_singleton.1 h ▸ fieldByte_fregByte X
  | immediate w => exact fieldByte_of_mem_immBytes h
  | memoryIndirect b d => exact (List.mem_append.1 h).elim fieldByte_of_mem_baseBytes fieldByte_of_mem_dispBytes

theorem eq_of_mem_flatten_operandBytes {sh : OperandShape} (h : x ∈ (operandBytes sh X).flatten) :
    x = .dontCare ∨ x = .field X := by
  obtain ⟨t, ht, hx⟩ := List.mem_flatten.1 h
  exact (fieldByte_of_mem_operandBytes ht).2 x hx

@[simp] theorem fieldCount_append (L M : BitLayout) (X : Letter) :
    fieldCount (L ++ M) X = fieldCount L X + fieldCount M X := by
  simp [fieldCount]

@[simp] theorem fieldCount_regByte (X : Letter) : fieldCount [regByte X] X = Config.regFieldBits := by
  simp [fieldCount, regByte]

@[simp] theorem fieldCount_fregByte (X : Letter) : fieldCount [fregByte X] X = Config.fregFieldBits := by
  simp [fieldCount, fregByte]

@[simp] theorem fieldCount_immBytes (w : Width) (X : Letter) : fieldCount (immBytes w X) X = 8 * widthNat w := by
  simp [fieldCount, immBytes, List.count_flatten, Nat.mul_comm]

theorem fieldCount_baseBytes (b : Inner) (X : Letter) : fieldCount (baseBytes b X) X = baseBits b := by
  cases b <;> simp [baseBytes, baseBits]

theorem fieldCount_dispBytes (d : Disp) (X : Letter) : fieldCount (dispBytes d X) X = dispBits d := by
  cases d with
  | none => rfl
  | immediate w => exact fieldCount_immBytes w X
  | group w => exact fieldCount_regByte X

/-- The field of an operand has as many tags as R106 says. -/
theorem fieldCount_operandBytes (sh : OperandShape) (X : Letter) : fieldCount (operandBytes sh X) X = fieldBits sh := by
  cases sh with
  | registerGroup w => exact fieldCount_regByte X
  | floatRegister => exact fieldCount_fregByte X
  | immediate w => exact fieldCount_immBytes w X
  | memoryIndirect b d => simp [operandBytes, fieldBits, fieldCount_baseBytes, fieldCount_dispBytes]

theorem fieldCount_operandBytes_of_ne {sh : OperandShape} (h : Y ≠ X) : fieldCount (operandBytes sh X) Y = 0 :=
  List.count_eq_zero.2 fun hmem => by simpa [h] using eq_of_mem_flatten_operandBytes hmem

theorem widthNat_eq_bytesIn (w : Width) : widthNat w = bytesIn w := by cases w <;> rfl

/-- The compiler's bytes of an operand are those of R51's table. -/
theorem operandBytes_eq_bytesOfOperand (sh : OperandShape) (X : Letter) : operandBytes sh X = bytesOfOperand X sh := by
  have hgroup : regByte X = groupByte X := rfl
  cases sh with
  | registerGroup w => exact congrArg (fun t => [t]) hgroup
  | floatRegister => rfl
  | immediate w => exact immBytes_eq_wholeBytesOf w X
  | memoryIndirect b d =>
    cases b <;> cases d <;>
      simp [operandBytes, baseBytes, dispBytes, bytesOfOperand, immBytes_eq_wholeBytesOf, hgroup]

theorem operandBytes_length (sh : OperandShape) (X : Letter) : (operandBytes sh X).length = operandByteCount sh := by
  cases sh with
  | registerGroup w => rfl
  | floatRegister => rfl
  | immediate w => exact List.length_replicate
  | memoryIndirect b d =>
    cases b <;> cases d <;> simp [operandBytes, baseBytes, dispBytes, immBytes, operandByteCount, Nat.add_comm]

theorem fieldBits_eq_bitsOfOperand (sh : OperandShape) : fieldBits sh = bitsOfOperand sh := by
  cases sh with
  | registerGroup w => rfl
  | floatRegister => rfl
  | immediate w => rw [fieldBits, widthNat_eq_bytesIn, bitsOfOperand]
  | memoryIndirect b d =>
    cases b <;> cases d <;> simp [fieldBits, baseBits, dispBits, bitsOfOperand, widthNat_eq_bytesIn, Config.regFieldBits]

theorem fieldBits_bounds (sh : OperandShape) : 4 ≤ fieldBits sh ∧ fieldBits sh ≤ 64 := by
  have hwhole (w : Width) : 4 ≤ 8 * widthNat w ∧ 8 * widthNat w ≤ 32 := by
    have := one_le_widthNat w
    have := widthNat_le_four w
    omega
  have hgroup : 4 ≤ Config.regFieldBits ∧ Config.regFieldBits ≤ 32 := by decide
  cases sh with
  | registerGroup w => exact hgroup.imp_right (·.trans (by decide))
  | floatRegister => exact (by decide : 4 ≤ Config.fregFieldBits ∧ Config.fregFieldBits ≤ 64)
  | immediate w => exact (hwhole w).imp_right (·.trans (by decide))
  | memoryIndirect b d =>
    have hbase : 4 ≤ baseBits b ∧ baseBits b ≤ 32 := by
      cases b with
      | address w => exact hwhole w
      | group w => exact hgroup
    have hdisp : dispBits d ≤ 32 := by
      cases d with
      | none => exact Nat.zero_le _
      | immediate w => exact (hwhole w).2
      | group w => exact hgroup.2
    simp only [fieldBits]
    omega

end Operand

/-! ### The bytes of the operands (R101) -/

section Operands

variable {n i : Nat} {shapes : List OperandShape} {x : Tag} {X : Letter}

theorem letterOf_val_of_lt (h : i < 26) : (letterOf i).val = i := Nat.mod_eq_of_lt h

theorem operandsBytes_eq_flatMap (n : Nat) (shapes : List OperandShape) :
    operandsBytes n shapes = (shapes.zipIdx n).flatMap fun p => bytesOfOperand (letterOf p.2) p.1 := by
  induction shapes generalizing n with
  | nil => rfl
  | cons sh shs ih => simp [operandsBytes, operandBytes_eq_bytesOfOperand, ih]

theorem operandsBytes_length (n : Nat) (shapes : List OperandShape) :
    (operandsBytes n shapes).length = (shapes.map operandByteCount).sum := by
  induction shapes generalizing n with
  | nil => rfl
  | cons sh shs ih => simp [operandsBytes, operandBytes_length, ih]

theorem length_of_mem_operandsBytes {t : LayoutByte} (h : t ∈ operandsBytes n shapes) : t.length = 8 := by
  induction shapes generalizing n with
  | nil => simp [operandsBytes] at h
  | cons sh shs ih => exact (List.mem_append.1 h).elim (fun ht => (fieldByte_of_mem_operandBytes ht).1) ih

/-- A tag of the operands' bytes is a don't-care or the field of one of the operands' letters. -/
theorem eq_of_mem_flatten_operandsBytes (h : x ∈ (operandsBytes n shapes).flatten) :
    x = .dontCare ∨ ∃ i < shapes.length, x = .field (letterOf (n + i)) := by
  induction shapes generalizing n with
  | nil => simp [operandsBytes] at h
  | cons sh shs ih =>
    rw [operandsBytes, List.flatten_append, List.mem_append] at h
    obtain hfirst | hlater := h
    · exact (eq_of_mem_flatten_operandBytes hfirst).imp_right fun hx => ⟨0, by simp, hx⟩
    · refine (ih hlater).imp_right ?_
      rintro ⟨i, hi, rfl⟩
      exact ⟨i + 1, by simpa using hi, by rw [Nat.add_right_comm, Nat.add_assoc]⟩

/-- A field that occurs from ordinal `n` on has a letter at `n` or later, while the alphabet lasts (R88). -/
theorem le_val_of_field_mem_operandsBytes (hn : n + shapes.length ≤ 26)
    (h : .field X ∈ (operandsBytes n shapes).flatten) : n ≤ X.val ∧ X.val < n + shapes.length := by
  obtain hx | ⟨i, hi, hx⟩ := eq_of_mem_flatten_operandsBytes h
  · cases hx
  · obtain rfl := Tag.field.inj hx
    rw [letterOf_val_of_lt (by omega)]
    omega

theorem fieldCount_operandsBytes (hn : n + shapes.length ≤ 26) (hi : i < shapes.length) :
    fieldCount (operandsBytes n shapes) (letterOf (n + i)) = fieldBits shapes[i] := by
  induction shapes generalizing n i with
  | nil => simp at hi
  | cons sh shs ih =>
    rw [List.length_cons] at hn hi
    rw [operandsBytes, fieldCount_append]
    cases i with
    | zero =>
      have hlater : fieldCount (operandsBytes (n + 1) shs) (letterOf n) = 0 := List.count_eq_zero.2 fun hmem => by
        have := (le_val_of_field_mem_operandsBytes (by omega) hmem).1
        rw [letterOf_val_of_lt (by omega)] at this
        omega
      simp [fieldCount_operandBytes, hlater]
    | succ i =>
      have hne : letterOf (n + (i + 1)) ≠ letterOf n := fun h => by
        have := congrArg Fin.val h
        rw [letterOf_val_of_lt (by omega), letterOf_val_of_lt (by omega)] at this
        omega
      have hrest := ih (n := n + 1) (i := i) (by omega) (by omega)
      rw [fieldCount_operandBytes_of_ne hne, Nat.zero_add, ← Nat.add_assoc, Nat.add_right_comm]
      exact hrest

/-- Of two field tags, the second has no earlier letter. -/
def FieldsAscend (x y : Tag) : Prop := ∀ X Y : Letter, x = .field X → y = .field Y → X ≤ Y

theorem operandsBytes_fieldsAscend (hn : n + shapes.length ≤ 26) :
    (operandsBytes n shapes).flatten.Pairwise FieldsAscend := by
  induction shapes generalizing n with
  | nil => simp [operandsBytes]
  | cons sh shs ih =>
    rw [List.length_cons] at hn
    have hfirst {X : Letter} (hX : .field X ∈ (operandBytes sh (letterOf n)).flatten) : X = letterOf n := by
      simpa using eq_of_mem_flatten_operandBytes hX
    rw [operandsBytes, List.flatten_append, List.pairwise_append]
    refine ⟨List.pairwise_of_forall_mem_list ?_, ih (by omega), ?_⟩
    · rintro _ hx _ hy X Y rfl rfl
      exact (hfirst hx).trans (hfirst hy).symm |>.le
    · rintro _ hx _ hy X Y rfl rfl
      have hY := (le_val_of_field_mem_operandsBytes (by omega) hy).1
      rw [hfirst hx, Fin.le_def, letterOf_val_of_lt (by omega)]
      omega

/-- Where the fields ascend, an earlier letter that occurs is first used before a later one. -/
theorem idxOf_lt_of_fieldsAscend {l : List Tag} {X Y : Letter} (h : l.Pairwise FieldsAscend) (hX : .field X ∈ l)
    (hXY : X < Y) : l.idxOf (.field X) < l.idxOf (.field Y) := by
  have hltX : l.idxOf (.field X) < l.length := List.idxOf_lt_length_iff.2 hX
  by_contra hnot
  have hltY : l.idxOf (.field Y) < l.length := (Nat.not_lt.1 hnot).trans_lt hltX
  obtain heq | hlt := (Nat.not_lt.1 hnot).eq_or_lt
  · have hsame : Tag.field Y = .field X :=
      (List.idxOf_inj (List.idxOf_lt_length_iff.1 hltY)).1 heq
    exact hXY.ne (Tag.field.inj hsame).symm
  · have hle := List.pairwise_iff_getElem.1 h _ _ hltY hltX hlt Y X (List.getElem_idxOf hltY) (List.getElem_idxOf hltX)
    exact hXY.not_ge hle

end Operands

/-! ### Headers and the branches of the compiler (R101) -/

section Compiler

variable {H : List Tag} {xs shapes : List OperandShape} {pack : List Tag → List OperandShape → Option BitLayout}

theorem isHeader_iff_headerInForm (H : List Tag) : isHeader H = true ↔ headerInForm H := by
  rw [isHeader, Bool.and_eq_true, List.isEmpty_iff, decide_eq_true_eq, and_comm]
  refine and_congr_right fun _ => ⟨fun hrest => ?_, ?_⟩
  · have hsplit := eq_ops_append_lits_append_afterHeader H
    rw [hrest, List.append_nil] at hsplit
    exact ⟨_, _, hsplit, fun x hx => isLitTag_iff.1 (List.mem_takeWhile_imp hx)⟩
  · rintro ⟨k, lits, rfl, hlits⟩
    simpa using afterHeader_of_form (k := k) (rest := []) hlits (by simp)

theorem field_not_mem_of_headerInForm (h : headerInForm H) (X : Letter) : .field X ∉ H := by
  obtain ⟨-, k, lits, rfl, hlits⟩ := h
  intro hmem
  obtain hop | hlit := List.mem_append.1 hmem
  · cases List.eq_of_mem_replicate hop
  · simpa using hlits _ hlit

theorem compileLayoutWith_eq_none (h : ¬headerInForm H ∨ 26 < shapes.length) : compileLayoutWith pack H shapes = none :=
  if_pos (h.imp_left fun hform => Bool.eq_false_iff.2 (mt (isHeader_iff_headerInForm H).1 hform))

theorem compileLayoutWith_of_headerInForm (h : headerInForm H) (hlen : shapes.length ≤ 26) :
    compileLayoutWith pack H shapes = if H.length = 8 then some (H :: operandsBytes 0 shapes) else pack H shapes := by
  refine if_neg (not_or.2 ⟨?_, Nat.not_lt.2 hlen⟩)
  rw [(isHeader_iff_headerInForm H).2 h]
  decide

theorem fieldCount_cons_header (h : headerInForm H) (L : BitLayout) (X : Letter) :
    fieldCount (H :: L) X = fieldCount L X := by
  simp [fieldCount, List.count_eq_zero.2 (field_not_mem_of_headerInForm h X)]

theorem fieldCount_cons_operandsBytes (h : headerInForm H) (hlen : shapes.length ≤ 26) {i : Nat} (hi : i < shapes.length) :
    fieldCount (H :: operandsBytes 0 shapes) (letterOf i) = fieldBits shapes[i] := by
  have hcount := fieldCount_operandsBytes (n := 0) (by omega) hi
  rwa [Nat.zero_add, ← fieldCount_cons_header h] at hcount

/-- The letters of a full layout are those of its operands. -/
theorem field_mem_cons_operandsBytes (h : headerInForm H) (hlen : shapes.length ≤ 26) (X : Letter) :
    .field X ∈ (H :: operandsBytes 0 shapes).flatten ↔ X.val < shapes.length := by
  constructor
  · intro hX
    rw [List.flatten_cons, List.mem_append] at hX
    obtain hhead | htail := hX
    · exact absurd hhead (field_not_mem_of_headerInForm h X)
    · simpa using (le_val_of_field_mem_operandsBytes (by omega) htail).2
  · intro hX
    have hcount := fieldCount_cons_operandsBytes h hlen hX
    rw [letterOf_val] at hcount
    refine List.count_pos_iff.1 (?_ : 0 < fieldCount _ X)
    have := (fieldBits_bounds shapes[X.val]).1
    omega

/-- A full header and the operands' bytes are a well-formed layout (R48, R101). -/
theorem wfLayout_cons_operandsBytes (h : headerInForm H) (hH : H.length = 8) (hlen : shapes.length ≤ 26) :
    wfLayout (H :: operandsBytes 0 shapes) = true := by
  refine (wellFormedLayoutMeansSixChecks _).2
    ⟨List.cons_ne_nil _ _, ?wholeBytes, ?headerForm, ?opOnlyInByte0, ?dense, ?ordered⟩
  case wholeBytes => exact List.forall_mem_cons.2 ⟨hH, fun t => length_of_mem_operandsBytes⟩
  case headerForm =>
    obtain ⟨-, k, lits, rfl, hlits⟩ := h
    intro t ht
    obtain rfl := Option.some_inj.1 ht
    exact ⟨k, lits, [], (List.append_nil _).symm, hlits, by simp⟩
  case opOnlyInByte0 =>
    intro t ht hop
    obtain hx | ⟨i, -, hx⟩ := eq_of_mem_flatten_operandsBytes (List.mem_flatten.2 ⟨t, ht, hop⟩) <;> cases hx
  case dense =>
    intro X Y hX hYX
    rw [field_mem_cons_operandsBytes h hlen] at hX ⊢
    exact (Fin.le_def.1 hYX).trans_lt hX
  case ordered =>
    intro X Y hX _ hXY
    refine idxOf_lt_of_fieldsAscend ?_ hX hXY
    rw [List.flatten_cons, List.pairwise_append]
    refine ⟨List.pairwise_of_forall_mem_list ?_, operandsBytes_fieldsAscend (by omega), ?_⟩
    · rintro _ hx _ - X Y rfl -
      exact absurd hx (field_not_mem_of_headerInForm h X)
    · rintro _ hx _ - X Y rfl -
      exact absurd hx (field_not_mem_of_headerInForm h X)

theorem operandBytes_forgetGroupWidths (sh : OperandShape) (X : Letter) :
    operandBytes (forgetGroupWidths sh) X = operandBytes sh X := by
  cases sh with
  | registerGroup w => rfl
  | floatRegister => rfl
  | immediate w => rfl
  | memoryIndirect b d => cases b <;> cases d <;> rfl

theorem operandsBytes_map_forgetGroupWidths (n : Nat) (xs : List OperandShape) :
    operandsBytes n (xs.map forgetGroupWidths) = operandsBytes n xs := by
  induction xs generalizing n with
  | nil => rfl
  | cons sh shs ih => simp only [List.map_cons, operandsBytes, operandBytes_forgetGroupWidths, ih]

/-- Under a full header the compiler does not see the widths of register groups (R103). -/
theorem compileLayoutWith_map_forgetGroupWidths (hH : H.length = 8) (xs : List OperandShape) :
    compileLayoutWith pack H (xs.map forgetGroupWidths) = compileLayoutWith pack H xs := by
  simp only [compileLayoutWith, if_pos hH, List.length_map, operandsBytes_map_forgetGroupWidths]

end Compiler

/-! ### What `PACK_COMPILE` may give (R108) -/

section Pack

variable {H : List Tag} {shapes : List OperandShape} {L : BitLayout}

theorem fieldBitsAgree_iff {n : Nat} : fieldBitsAgree L n shapes = true ↔
    ∀ (i : Nat) (h : i < shapes.length), fieldCount L (letterOf (n + i)) = fieldBits shapes[i] := by
  induction shapes generalizing n with
  | nil => simp [fieldBitsAgree]
  | cons sh shs ih =>
    rw [fieldBitsAgree, Bool.and_eq_true, beq_iff_eq, ih]
    constructor
    · rintro ⟨hfirst, hlater⟩ i hi
      cases i with
      | zero => exact hfirst
      | succ i =>
        rw [← Nat.add_assoc, Nat.add_right_comm]
        exact hlater i (Nat.lt_of_succ_lt_succ hi)
    · intro h
      refine ⟨h 0 (Nat.succ_pos _), fun i hi => ?_⟩
      rw [Nat.add_right_comm, Nat.add_assoc]
      exact h (i + 1) (Nat.succ_lt_succ hi)

/-- A byte 0 that begins with `H` is `H` and the tags after it. -/
theorem packByte0_iff {t : LayoutByte} : (H.isPrefixOf t = true ∧
    (t.drop H.length).all (fun x => x == .dontCare || x == .field (letterOf 0)) = true ∧
    (shapes.isEmpty || (t.drop H.length).contains (.field (letterOf 0))) = true) ↔
    ∃ rest, t = H ++ rest ∧ (∀ x ∈ rest, x = .dontCare ∨ x = .field 0) ∧ (shapes ≠ [] → .field 0 ∈ rest) := by
  have hA : letterOf 0 = 0 := rfl
  simp only [hA, List.isPrefixOf_iff_prefix, List.all_eq_true, Bool.or_eq_true, beq_iff_eq, List.isEmpty_iff,
    List.contains_iff_mem, or_iff_not_imp_left (a := shapes = [])]
  constructor
  · rintro ⟨⟨rest, rfl⟩, h⟩
    exact ⟨rest, rfl, by simpa only [List.drop_left] using h⟩
  · rintro ⟨rest, rfl, h⟩
    exact ⟨List.prefix_append H rest, by simpa only [List.drop_left] using h⟩

theorem packAllowed_iff : packAllowed H shapes L = true ↔
    isHeader H = true ∧ shapes.length ≤ 26 ∧ wfLayout L = true ∧
    (∃ rest L', L = (H ++ rest) :: L' ∧ (∀ x ∈ rest, x = .dontCare ∨ x = .field 0) ∧
      (shapes ≠ [] → .field 0 ∈ rest)) ∧
    ∀ (i : Nat) (h : i < shapes.length), fieldCount L (letterOf i) = fieldBits shapes[i] := by
  cases L with
  | nil => simp [packAllowed]
  | cons t L =>
    have hbits := fieldBitsAgree_iff (L := t :: L) (shapes := shapes) (n := 0)
    have hbyte0 := packByte0_iff (H := H) (shapes := shapes) (t := t)
    simp only [Nat.zero_add] at hbits
    simp only [packAllowed, Bool.and_eq_true, decide_eq_true_eq, hbits, List.cons.injEq]
    constructor
    · rintro ⟨⟨⟨⟨⟨⟨hH, hlen⟩, hwf⟩, hbegins⟩, hall⟩, hfield⟩, hagree⟩
      obtain ⟨rest, rfl, hrest, hA⟩ := hbyte0.1 ⟨hbegins, hall, hfield⟩
      exact ⟨hH, hlen, hwf, ⟨rest, L, ⟨rfl, rfl⟩, hrest, hA⟩, hagree⟩
    · rintro ⟨hH, hlen, hwf, ⟨rest, _, ⟨ht, -⟩, hrest, hA⟩, hagree⟩
      obtain ⟨hbegins, hall, hfield⟩ := hbyte0.2 ⟨rest, ht, hrest, hA⟩
      exact ⟨⟨⟨⟨⟨⟨hH, hlen⟩, hwf⟩, hbegins⟩, hall⟩, hfield⟩, hagree⟩

theorem packCompileWith_eq_some {raw : List Tag → List OperandShape → Option BitLayout} :
    packCompileWith raw H shapes = some L ↔ raw H shapes = some L ∧ packAllowed H shapes L = true := by
  rw [packCompileWith]
  cases raw H shapes with
  | none => simp
  | some M =>
    simp only [Option.ite_none_right_eq_some, Option.some_inj]
    exact ⟨fun ⟨h, hM⟩ => ⟨hM, hM ▸ h⟩, fun ⟨hM, h⟩ => ⟨hM ▸ h, hM⟩⟩

end Pack

/-! ### The statements of the family -/

/-- Settles O36: the branches of the compiler, and the layout of a full header by induction on the operands. -/
theorem fullHeaderCompilesToWellFormedLayout : Obligations.FullHeaderCompilesToWellFormedLayout := by
  refine ⟨fun _ => letterOf_val_of_lt, isHeader_iff_headerInForm, fun H shapes => compileLayoutWith_eq_none,
    fun H shapes h hH hlen => (compileLayoutWith_of_headerInForm h hlen).trans (if_neg hH.ne), ?_⟩
  intro H shapes h hH hlen
  refine ⟨operandsBytes 0 shapes, (compileLayoutWith_of_headerInForm h hlen).trans (if_pos hH),
    operandsBytes_eq_flatMap 0 shapes, wfLayout_cons_operandsBytes h hH hlen, operandsBytes_length 0 shapes, fun i hi => ?_⟩
  exact ⟨fieldCount_cons_operandsBytes h hlen hi, fieldBits_eq_bitsOfOperand _, fieldBits_bounds _⟩

/-- Settles O38: both lists compile as the list with the widths forgotten. -/
theorem groupWidthsLeaveTheLayout : Obligations.GroupWidthsLeaveTheLayout := by
  intro H xs ys hH hforget
  calc compileLayout H xs = compileLayout H (xs.map forgetGroupWidths) :=
        (compileLayoutWith_map_forgetGroupWidths hH xs).symm
    _ = compileLayout H (ys.map forgetGroupWidths) := by rw [hforget]
    _ = compileLayout H ys := compileLayoutWith_map_forgetGroupWidths hH ys

/-- Settles O37: the filter lets a supplied result through exactly when R108 allows it. -/
theorem packCompileObeysItsConditions : Obligations.PackCompileObeysItsConditions := fun _ _ _ _ =>
  packCompileWith_eq_some.trans (and_congr_right fun _ => packAllowed_iff)

end Sys2Proof.Machine
end

section
/-! PROOFS. The Addressing-Mode Catalog (43_addressing_catalog): the headers that `aliasAllowed` enumerates, what it is for an
entry to be admitted, the catalog kept of the entries supplied, its lookup, and the statement of the family. -/

namespace Sys2Proof.Machine

/-! ### The headers of R101, enumerated -/

theorem mem_litPatterns {l : Nat} {p : List Tag} :
    p ∈ litPatterns l ↔ p.length = l ∧ ∀ x ∈ p, x = .lit0 ∨ x = .lit1 := by
  induction l generalizing p with
  | zero => simp +contextual [litPatterns]
  | succ l ih =>
    cases p with
    | nil => simp [litPatterns]
    | cons x p =>
      simp only [litPatterns, List.mem_flatMap, List.mem_cons, List.cons.injEq, List.not_mem_nil, or_false,
        List.length_cons, Nat.add_right_cancel_iff, forall_eq_or_imp]
      constructor
      · rintro ⟨q, hq, ⟨rfl, rfl⟩ | ⟨rfl, rfl⟩⟩
        · exact ⟨(ih.1 hq).1, .inl rfl, (ih.1 hq).2⟩
        · exact ⟨(ih.1 hq).1, .inr rfl, (ih.1 hq).2⟩
      · rintro ⟨hlen, hx, hp⟩
        exact ⟨p, ih.2 ⟨hlen, hp⟩, hx.imp (⟨·, rfl⟩) (⟨·, rfl⟩)⟩

theorem mem_allHeaders_of_headerInForm {H : List Tag} (h : headerInForm H) : H ∈ allHeaders := by
  obtain ⟨hlen, k, lits, rfl, hlits⟩ := h
  rw [List.length_append, List.length_replicate] at hlen
  refine List.mem_flatMap.2 ⟨k, List.mem_range.2 (by omega), List.mem_flatMap.2 ⟨lits.length, List.mem_range.2 (by omega), ?_⟩⟩
  exact List.mem_map.2 ⟨lits, mem_litPatterns.2 ⟨rfl, hlits⟩, rfl⟩

section Catalog

variable {pack : List Tag → List OperandShape → Option BitLayout} {cat raw : Catalog} {e : Str × AddressingModeId}
  {s1 s2 sig : Str} {id : AddressingModeId} {xs ys : List OperandShape}

/-! ### The alias law (R119) -/

/-- A header not in form compiles nothing, so agreement on the enumerated headers is agreement on all. -/
theorem compileLayoutWith_eq_on_allHeaders :
    (∀ H ∈ allHeaders, compileLayoutWith pack H xs = compileLayoutWith pack H ys) ↔
      ∀ H, compileLayoutWith pack H xs = compileLayoutWith pack H ys := by
  refine ⟨fun h H => ?_, fun h H _ => h H⟩
  by_cases hH : headerInForm H
  · exact h H (mem_allHeaders_of_headerInForm hH)
  · rw [compileLayoutWith_eq_none (.inl hH), compileLayoutWith_eq_none (.inl hH)]

/-- The alias law of R119 for two signatures: what they parse to compiles alike under every header. -/
def CompileAlike (pack : List Tag → List OperandShape → Option BitLayout) (s1 s2 : Str) : Prop :=
  ∀ sh1 sh2, parseShape s1 = some sh1 → parseShape s2 = some sh2 →
    ∀ H : List Tag, compileLayoutWith pack H sh1 = compileLayoutWith pack H sh2

theorem CompileAlike.refl (s : Str) : CompileAlike pack s s := fun _ _ h1 h2 _ => by rw [Option.some.inj (h1.symm.trans h2)]

theorem CompileAlike.symm (h : CompileAlike pack s1 s2) : CompileAlike pack s2 s1 := fun _ _ h2 h1 H => (h _ _ h1 h2 H).symm

theorem aliasAllowed_iff_compileAlike (h1 : parseShape s1 ≠ none) (h2 : parseShape s2 ≠ none) :
    aliasAllowed pack s1 s2 = true ↔ CompileAlike pack s1 s2 := by
  obtain ⟨xs, hxs⟩ := Option.ne_none_iff_exists'.1 h1
  obtain ⟨ys, hys⟩ := Option.ne_none_iff_exists'.1 h2
  have hall : aliasAllowed pack s1 s2 = true ↔ ∀ H, compileLayoutWith pack H xs = compileLayoutWith pack H ys := by
    simp only [aliasAllowed, hxs, hys, List.all_eq_true, beq_iff_eq, compileLayoutWith_eq_on_allHeaders]
  simp [hall, CompileAlike, hxs, hys]

/-! ### Lawful lists of entries (R115, R117, R119) -/

/-- What the laws ask of two entries of one catalog: two signatures, and of one id only if they compile alike. -/
def StandTogether (pack : List Tag → List OperandShape → Option BitLayout) (e f : Str × AddressingModeId) : Prop :=
  e.1 ≠ f.1 ∧ (e.2 = f.2 → CompileAlike pack e.1 f.1)

theorem lawfulEntries_iff_pairwise :
    lawfulEntries pack cat ↔ (∀ e ∈ cat, parseShape e.1 ≠ none) ∧ cat.Pairwise (StandTogether pack) := by
  have hsymm : Std.Symm fun e f : Str × AddressingModeId => e.2 = f.2 → CompileAlike pack e.1 f.1 :=
    ⟨fun _ _ h hid => (h hid.symm).symm⟩
  have halike : (∀ e ∈ cat, ∀ f ∈ cat, e.2 = f.2 → CompileAlike pack e.1 f.1) ↔
      cat.Pairwise fun e f => e.2 = f.2 → CompileAlike pack e.1 f.1 :=
    ⟨List.pairwise_of_forall_mem_list, fun h => h.forall_of_forall fun _ _ _ => .refl _⟩
  calc lawfulEntries pack cat
      ↔ (∀ e ∈ cat, parseShape e.1 ≠ none) ∧ (cat.map Prod.fst).Nodup ∧
          ∀ e ∈ cat, ∀ f ∈ cat, e.2 = f.2 → CompileAlike pack e.1 f.1 := Iff.rfl
    _ ↔ (∀ e ∈ cat, parseShape e.1 ≠ none) ∧ cat.Pairwise (StandTogether pack) := by
        rw [halike, List.Nodup, List.pairwise_map, ← List.pairwise_and_iff]; rfl

theorem catalogAdmits_iff (hcat : ∀ f ∈ cat, parseShape f.1 ≠ none) :
    catalogAdmits pack cat e = true ↔ parseShape e.1 ≠ none ∧ ∀ f ∈ cat, StandTogether pack f e := by
  simp only [catalogAdmits, Bool.and_eq_true, List.all_eq_true, Bool.or_eq_true, bne_iff_ne, Option.isSome_iff_ne_none]
  refine and_congr_right fun he => forall₂_congr fun f hf => and_congr_right fun _ => ?_
  rw [aliasAllowed_iff_compileAlike (hcat f hf) he, imp_iff_not_or]

/-- The filter of log 8 is exact: it admits an entry when the list stays lawful with it. -/
theorem lawfulEntries_append_singleton :
    lawfulEntries pack (cat ++ [e]) ↔ lawfulEntries pack cat ∧ catalogAdmits pack cat e = true := by
  simp only [lawfulEntries_iff_pairwise, List.forall_mem_append, List.forall_mem_singleton, List.pairwise_append,
    List.pairwise_singleton, true_and]
  constructor
  · rintro ⟨⟨hcat, he⟩, hpair, htogether⟩
    exact ⟨⟨hcat, hpair⟩, (catalogAdmits_iff hcat).2 ⟨he, htogether⟩⟩
  · rintro ⟨⟨hcat, hpair⟩, hadmits⟩
    obtain ⟨he, htogether⟩ := (catalogAdmits_iff hcat).1 hadmits
    exact ⟨⟨hcat, he⟩, hpair, htogether⟩

/-! ### The catalog of the supplied entries (log 8) -/

theorem lawfulCatalog_append_singleton (raw : Catalog) (e : Str × AddressingModeId) :
    lawfulCatalog pack (raw ++ [e]) =
      if catalogAdmits pack (lawfulCatalog pack raw) e then lawfulCatalog pack raw ++ [e] else lawfulCatalog pack raw :=
  List.foldl_concat ..

theorem lawfulEntries_lawfulCatalog (raw : Catalog) : lawfulEntries pack (lawfulCatalog pack raw) := by
  induction raw using List.reverseRecOn with
  | nil => exact lawfulEntries_iff_pairwise.2 ⟨by simp [lawfulCatalog], .nil⟩
  | append_singleton raw e ih =>
    rw [lawfulCatalog_append_singleton]
    split
    · next hadmits => exact lawfulEntries_append_singleton.2 ⟨ih, hadmits⟩
    · exact ih

theorem lawfulCatalog_sublist (raw : Catalog) : (lawfulCatalog pack raw).Sublist raw := by
  induction raw using List.reverseRecOn with
  | nil => exact .slnil
  | append_singleton raw e ih =>
    rw [lawfulCatalog_append_singleton]
    split
    · exact ih.append (.refl [e])
    · exact ih.trans (List.sublist_append_left raw [e])

theorem lawfulCatalog_of_lawfulEntries (h : lawfulEntries pack raw) : lawfulCatalog pack raw = raw := by
  induction raw using List.reverseRecOn with
  | nil => rfl
  | append_singleton raw e ih =>
    obtain ⟨hraw, hadmits⟩ := lawfulEntries_append_singleton.1 h
    rw [lawfulCatalog_append_singleton, ih hraw, if_pos hadmits]

/-! ### The lookup (R115) -/

theorem mem_of_catalogFind (h : catalogFind cat sig = some id) : (sig, id) ∈ cat := by
  obtain ⟨⟨sig', id'⟩, hfind, rfl⟩ := Option.map_eq_some_iff.1 h
  have hsig : sig' = sig := by simpa using List.find?_some hfind
  exact hsig ▸ List.mem_of_find?_eq_some hfind

theorem catalogFind_of_mem (hcat : (cat.map Prod.fst).Nodup) (h : (sig, id) ∈ cat) : catalogFind cat sig = some id := by
  cases hfind : cat.find? (fun e => e.1 == sig) with
  | none => exact absurd (List.find?_eq_none.1 hfind _ h) (by simp)
  | some e =>
    have hsig : e.1 = sig := by simpa using List.find?_some hfind
    rw [catalogFind, hfind, Option.map_some, eq_of_nodup_map hcat (List.mem_of_find?_eq_some hfind) h hsig]

theorem catalogFind_lawfulCatalog (h : catalogFind (lawfulCatalog pack raw) sig = some id) :
    (sig, id) ∈ raw ∧ parseShape sig ≠ none := by
  have hmem := mem_of_catalogFind h
  exact ⟨(lawfulCatalog_sublist raw).mem hmem, (lawfulEntries_lawfulCatalog raw).1 _ hmem⟩

theorem compileAlike_of_catalogFind (h1 : catalogFind (lawfulCatalog pack raw) s1 = some id)
    (h2 : catalogFind (lawfulCatalog pack raw) s2 = some id) : CompileAlike pack s1 s2 := by
  obtain ⟨-, -, halike⟩ := lawfulEntries_lawfulCatalog (pack := pack) raw
  exact halike _ (mem_of_catalogFind h1) _ (mem_of_catalogFind h2) rfl

theorem catalogFind_lawfulCatalog_iff (h : lawfulEntries pack raw) :
    catalogFind (lawfulCatalog pack raw) sig = some id ↔ (sig, id) ∈ raw := by
  rw [lawfulCatalog_of_lawfulEntries h]
  obtain ⟨-, hnodup, -⟩ := h
  exact ⟨mem_of_catalogFind, catalogFind_of_mem hnodup⟩

end Catalog

/-! ### The statement of the family -/

/-- Settles O39: what the filter keeps is lawful, and it keeps the whole of a lawful list. -/
theorem catalogObeysItsLaws : Obligations.CatalogObeysItsLaws := by
  refine ⟨fun pack raw => ⟨fun _ _ => catalogFind_lawfulCatalog, ?_, fun h _ _ => catalogFind_lawfulCatalog_iff h⟩,
    fun _ => rfl, fun _ _ => rfl⟩
  intro s1 s2 id sh1 sh2 H h1 h2 hsh1 hsh2
  exact compileAlike_of_catalogFind h1 h2 sh1 sh2 hsh1 hsh2 H

end Sys2Proof.Machine
end

section
/-! PROOFS. The operator registry (44_operator_registry): which phase an operation is bound to, what the lookups find, the two
parts of a key, and the five statements of the family. -/

namespace Sys2Proof.Machine

/-! ### The phase an operation is bound to (R125; log 5) -/

section Phases

variable {i : Instr}

/-- A lookup or an instruction row is an answer under the condition that the block is frozen. -/
theorem exec_eq_whileFrozen (h : needsFrozen i = true) (s : State) : ∃ r, exec i s = whileFrozen s (s.answer r) := by
  cases i with
  | registerPrimary _ _ _ _ | registerSecondary _ _ _ _ | startup _ | freeze | resolve _ | groupOf _ | resolveFloat _
  | isSpecialRegister _ | nameOf _ | parseShape _ | printShape _ | template _ | wfLayout _ | compileLayout _ _
  | packCompile _ _ | catalogLookup _ => cases h
  | nop | ld | add | sub | and | div | addRN _ _ | addRR _ _ _ | secondary _ _ _ | primaryOnly _ | primaryOpcodeOf _
  | formatOf _ | matchShape _ _ | secondariesOf _ | primaryByCode _ | primaryByMnemonic _ | fieldPositions _ _ | hdr _
  | matchesRaw _ _ | decodeSecondary _ _ | extractField _ _ _ | splitIndirect _ _ _ | decodeInstr _
  | encodeInstr _ _ | consistent _ => exact ⟨_, rfl⟩

/-- An operation that writes the tables is an update under the condition that the block registers. -/
theorem exec_eq_whileRegistering (h : needsRegistering i = true) (s : State) : ∃ t, exec i s = whileRegistering s t := by
  cases i with
  | registerPrimary _ _ _ _ | registerSecondary _ _ _ _ | startup _ | freeze => exact ⟨_, rfl⟩
  | _ => cases h

end Phases

/-! ### The lookups (R130 to R135) -/

section Lookups

variable {T : Table} {m : Str} {c : Byte} {p : Primary} {q : Secondary}

theorem primaryByMnemonic_eq_some (h : (T.pt.map Primary.mnemonic).Nodup) :
    primaryByMnemonic T m = some p ↔ p ∈ T.pt ∧ p.mnemonic = m :=
  ⟨mem_of_primaryByMnemonic, fun ⟨hp, hm⟩ => hm ▸ primaryByMnemonic_of_mem h hp⟩

theorem primaryOpcodeOf_of_some (h : primaryByMnemonic T m = some p) : primaryOpcodeOf T m = p.opcode := by
  rw [primaryOpcodeOf, h]

/-- The silent fallback of R130. -/
theorem primaryOpcodeOf_of_none (h : primaryByMnemonic T m = none) : primaryOpcodeOf T m = 0 := by
  rw [primaryOpcodeOf, h]
  rfl

theorem primaryByCode_eq_some : primaryByCode T c = some p ↔
    ∃ before after, T.pt = before ++ p :: after ∧ p.opcode = c ∧ ∀ x ∈ before, x.opcode ≠ c := by
  simp only [primaryByCode, List.find?_eq_some_iff_append, beq_iff_eq, Bool.not_eq_true', beq_eq_false_iff_ne]
  exact ⟨fun ⟨hc, before, after, hpt, hbefore⟩ => ⟨before, after, hpt, hc, hbefore⟩,
    fun ⟨before, after, hpt, hc, hbefore⟩ => ⟨hc, before, after, hpt, hbefore⟩⟩

theorem primaryByCode_eq_none : primaryByCode T c = none ↔ ∀ p ∈ T.pt, p.opcode ≠ c := by
  simp [primaryByCode]

theorem secondaryByKey_eq_some {k : Str} (h : (T.st.map Secondary.key).Nodup) :
    secondaryByKey T k = some q ↔ q ∈ T.st ∧ q.key = k :=
  ⟨mem_of_secondaryByKey, fun ⟨hq, hk⟩ => hk ▸ secondaryByKey_of_mem h hq⟩

theorem formatOf_of_mem (h : (T.st.map Secondary.key).Nodup) (hq : q ∈ T.st) : formatOf T q.key = some q.layout := by
  rw [formatOf, secondaryByKey_of_mem h hq, Option.map_some]

end Lookups

/-! ### The two parts of a key (R129) -/

section Keys

variable {m : Str}

theorem bne_space_of_not_mem (hm : ' ' ∉ m) : ∀ x ∈ m, (x != ' ') = true :=
  fun _ hx => bne_iff_ne.2 (ne_of_mem_of_not_mem hx hm)

theorem mnemOf_keyOf (hm : ' ' ∉ m) (sig : Str) : mnemOf (keyOf m sig) = m := by
  have hpos := bne_space_of_not_mem hm
  by_cases hsig : sig = []
  · rw [keyOf, if_pos hsig, mnemOf, List.takeWhile_eq_self_iff.2 hpos]
  · rw [keyOf, if_neg hsig, mnemOf, List.takeWhile_append_of_pos hpos, List.takeWhile_cons_of_neg (by simp),
      List.append_nil]

theorem sigOf_keyOf (hm : ' ' ∉ m) (sig : Str) : sigOf (keyOf m sig) = sig := by
  have hpos := bne_space_of_not_mem hm
  by_cases hsig : sig = []
  · rw [keyOf, if_pos hsig, sigOf, List.dropWhile_eq_nil_iff.2 hpos, hsig, List.tail_nil]
  · rw [keyOf, if_neg hsig, sigOf, List.dropWhile_append_of_pos hpos, List.dropWhile_cons_of_neg (by simp),
      List.tail_cons]

end Keys

/-! ### The statements of the family -/

/-- Settles O6: an operation bound to a phase is its update under that phase's condition. -/
theorem wrongPhaseCallsAreRefused : Obligations.WrongPhaseCallsAreRefused := by
  intro i s
  refine ⟨fun hi hp => ?_, fun hi hp => ?_, fun hi hp => ?_, fun hi hp => ?_⟩
  · obtain ⟨r, hr⟩ := exec_eq_whileFrozen hi s
    rw [hr, whileFrozen_of_not hp]
  · obtain ⟨t, ht⟩ := exec_eq_whileRegistering hi s
    rw [ht, whileRegistering_of_not hp]
  · obtain ⟨r, hr⟩ := exec_eq_whileFrozen hi s
    exact ⟨r, hr.trans (whileFrozen_of_frozen hp)⟩
  · obtain ⟨t, ht⟩ := exec_eq_whileRegistering hi s
    exact ⟨t, ht.trans (whileRegistering_of_registering hp)⟩

/-- Settles O40: a unique mnemonic is found exactly where it is registered, and the opcode is that of the entry found. -/
theorem primaryLookupByMnemonic : Obligations.PrimaryLookupByMnemonic := fun _ hunique _ =>
  ⟨fun _ => primaryByMnemonic_eq_some hunique,
    fun _ hp hm => primaryOpcodeOf_of_some ((primaryByMnemonic_eq_some hunique).2 ⟨hp, hm⟩),
    fun hnone => primaryOpcodeOf_of_none (primaryByMnemonic_eq_none.2 hnone)⟩

/-- Settles O41: the search goes through `PT` in registration order. -/
theorem primaryLookupByCodeIsTheFirst : Obligations.PrimaryLookupByCodeIsTheFirst := fun _ _ =>
  ⟨fun _ => primaryByCode_eq_some, primaryByCode_eq_none⟩

/-- Settles O42: the matcher searches `ST` for the key of the mnemonic and the printed shapes, and the first space of that
key is the one that joins them. -/
theorem matcherFindsTheExactShape : Obligations.MatcherFindsTheExactShape := by
  intro s hunique m shapes
  have hfind (q : Secondary) :
      matchShape s.table m shapes = some q ↔ q ∈ s.st ∧ q.key = keyOf m (printShape shapes) :=
    secondaryByKey_eq_some hunique
  refine ⟨hfind, fun q hq => ?_, fun q hm hlen hq => ?_⟩
  · obtain ⟨hmem, -⟩ := (hfind q).1 hq
    exact formatOf_of_mem hunique hmem
  · obtain ⟨-, hkey⟩ := (hfind q).1 hq
    rw [hkey, mnemOf_keyOf hm, sigOf_keyOf hm]
    exact ⟨rfl, parseShape_eq_some.2 ⟨hlen, rfl⟩⟩

/-- Settles O26: each lookup answers while the block is frozen. -/
theorem registryLookupsAnswer : Obligations.RegistryLookupsAnswer := fun _ _ _ _ _ _ hf =>
  ⟨whileFrozen_of_frozen hf, whileFrozen_of_frozen hf, whileFrozen_of_frozen hf, whileFrozen_of_frozen hf,
    whileFrozen_of_frozen hf, whileFrozen_of_frozen hf, whileFrozen_of_frozen hf⟩

end Sys2Proof.Machine
end

section
/-! PROOFS. Matching, extraction and encoding (45_decode_matching): the header of byte 0 and the raw bytes it matches, where the
encoder places a bit and the decoder collects it, the two round trips, what a consistent table says and what it decodes, and the
seventeen statements of the family. -/

namespace Sys2Proof.Machine

/-! ### Bits and the numbers they spell (R145, R151) -/

section SpelledNumbers

theorem bitsOfNat_getElem {w v n : Nat} (h : n < (bitsOfNat w v).length) : (bitsOfNat w v)[n] = v.testBit (w - 1 - n) := by
  induction w generalizing n with
  | zero => simp at h
  | succ w ih =>
    cases n with
    | zero => simp [bitsOfNat]
    | succ n =>
      simp only [bitsOfNat, List.getElem_cons_succ, ih]
      congr 1
      omega

/-- The first bit spelled is the most significant. -/
theorem testBit_natOfBits {bs : List Bool} {n : Nat} (h : n < bs.length) :
    (natOfBits bs).testBit (bs.length - 1 - n) = bs[n] := by
  rw [← bitsOfNat_getElem (w := bs.length) (by simpa using h)]
  simp only [bitsOfNat_natOfBits]

theorem natOfBits_inj {as bs : List Bool} (hlen : as.length = bs.length) : natOfBits as = natOfBits bs ↔ as = bs := by
  refine ⟨fun h => ?_, congrArg natOfBits⟩
  rw [← bitsOfNat_natOfBits as, ← bitsOfNat_natOfBits bs, hlen, h]

/-- A byte shifted right keeps its first bits. -/
theorem toNat_shiftRight_eq_natOfBits_take (b : Byte) (n : Nat) :
    b.toNat >>> (8 - n) = natOfBits ((byteBits b).take n) := by
  have hdrop : ((byteBits b).drop n).length = 8 - n := by rw [List.length_drop, byteBits_length]
  have hlt : natOfBits ((byteBits b).drop n) < 2 ^ (8 - n) := hdrop ▸ natOfBits_lt _
  have hsplit : b.toNat = natOfBits ((byteBits b).take n) * 2 ^ (8 - n) + natOfBits ((byteBits b).drop n) := by
    rw [← hdrop, ← natOfBits_append, List.take_append_drop, natOfBits_byteBits]
  rw [hsplit, Nat.shiftRight_eq_div_pow, Nat.mul_comm, Nat.mul_add_div (by positivity), Nat.div_eq_of_lt hlt, Nat.add_zero]

end SpelledNumbers

/-! ### The header of byte 0 (R145, R146) -/

section Header

variable {t : LayoutByte} {L : BitLayout} {q : Secondary} {raw : Byte} {k l lit : Nat}

theorem lit_of_mem_leadingLits {x : Tag} (h : x ∈ leadingLits t) : x = .lit0 ∨ x = .lit1 :=
  isLitTag_iff.1 (List.mem_takeWhile_imp h)

/-- A byte is in the form of R49 in one way only. -/
theorem leading_of_form {lits rest : List Tag} (hlits : ∀ x ∈ lits, x = .lit0 ∨ x = .lit1)
    (hrest : ∀ x ∈ rest, x ≠ .op ∧ x ≠ .lit0 ∧ x ≠ .lit1) :
    leadingOps (List.replicate k .op ++ lits ++ rest) = k ∧ leadingLits (List.replicate k .op ++ lits ++ rest) = lits := by
  have hsplit := eq_ops_append_lits_append_afterHeader (List.replicate k .op ++ lits ++ rest)
  rw [afterHeader_of_form hlits hrest] at hsplit
  have hhead := List.append_cancel_right hsplit
  have hnone : lits.count .op = 0 := List.count_eq_zero.2 fun h => by simpa using hlits _ h
  have hnone' : (leadingLits (List.replicate k .op ++ lits ++ rest)).count .op = 0 :=
    List.count_eq_zero.2 fun h => by simpa using lit_of_mem_leadingLits h
  have hk : leadingOps (List.replicate k .op ++ lits ++ rest) = k := by
    have hcount := congrArg (List.count .op) hhead
    simpa only [List.count_append, List.count_replicate_self, hnone, hnone', Nat.add_zero] using hcount.symm
  rw [hk] at hhead
  exact ⟨hk, (List.append_cancel_left hhead).symm⟩

theorem hdrDomain_iff : hdrDomain L = true ↔ ∃ t L', L = t :: L' ∧ t.length = 8 ∧ headerForm t = true := by
  cases L with
  | nil => simp [hdrDomain]
  | cons t L => simp [hdrDomain]

theorem hdr_cons (h : hdrDomain (t :: L) = true) :
    hdr (t :: L) = (leadingOps t, (leadingLits t).length, litValue (leadingLits t)) := if_pos h

theorem litValue_lt (ts : List Tag) : litValue ts < 2 ^ ts.length := by
  simpa [litValue] using natOfBits_lt (ts.map (· == .lit1))

/-- The header stands in byte 0, and its literal pattern in as many bits as there are literals. -/
theorem hdr_bounds (hdom : hdrDomain L = true) (hh : hdr L = (k, l, lit)) : lit < 2 ^ l ∧ k + l ≤ 8 := by
  obtain ⟨t, L, rfl, hlen, -⟩ := hdrDomain_iff.1 hdom
  obtain ⟨rfl, rfl, rfl⟩ : leadingOps t = k ∧ (leadingLits t).length = l ∧ litValue (leadingLits t) = lit := by
    simpa [hdr_cons hdom] using hh
  refine ⟨litValue_lt _, ?_⟩
  have hsplit := congrArg List.length (eq_ops_append_lits_append_afterHeader t)
  simp only [List.length_append, List.length_replicate] at hsplit
  omega

theorem corrected_eq_or (hh : hdr q.layout = (k, l, lit)) : corrected q = (q.amid <<< l) ||| lit := by
  simp only [corrected, hh]

/-- The literal pattern fills the bits the shift leaves free. -/
theorem corrected_eq_add (hh : hdr q.layout = (k, l, lit)) (hlit : lit < 2 ^ l) : corrected q = q.amid * 2 ^ l + lit := by
  rw [corrected_eq_or hh, ← Nat.shiftLeft_add_eq_or_of_lt hlit, Nat.shiftLeft_eq]

/-- A subcode that fits makes a corrected subcode that fits, and one that does not, does not. -/
theorem corrected_lt_iff (hh : hdr q.layout = (k, l, lit)) (hlit : lit < 2 ^ l) :
    corrected q < 2 ^ (k + l) ↔ q.amid < 2 ^ k := by
  rw [corrected_eq_add hh hlit, Nat.pow_add]
  constructor
  · intro h
    exact Nat.lt_of_mul_lt_mul_right ((Nat.le_add_right _ _).trans_lt h)
  · intro h
    calc q.amid * 2 ^ l + lit < (q.amid + 1) * 2 ^ l := by
          rw [Nat.succ_mul]
          exact Nat.add_lt_add_left hlit _
      _ ≤ 2 ^ k * 2 ^ l := Nat.mul_le_mul_right _ h

theorem matchesRaw_iff_div (hh : hdr q.layout = (k, l, lit)) :
    matchesRaw q raw = true ↔ raw.toNat / 2 ^ (8 - (k + l)) = corrected q := by
  rw [matchesRaw, beq_iff_eq, subOpBits, hh, Nat.shiftRight_eq_div_pow]

/-- The raw bytes matched are those of one block (R148). -/
theorem matchesRaw_iff_block (hh : hdr q.layout = (k, l, lit)) :
    matchesRaw q raw = true ↔ corrected q <<< (8 - (k + l)) ≤ raw.toNat ∧
      raw.toNat ≤ corrected q <<< (8 - (k + l)) + 2 ^ (8 - (k + l)) - 1 := by
  rw [matchesRaw_iff_div hh, Nat.shiftLeft_eq, Nat.div_eq_iff (by positivity)]

theorem matchesRaw_eq_false (hdom : hdrDomain q.layout = true) (hh : hdr q.layout = (k, l, lit)) (h : 2 ^ k ≤ q.amid) :
    matchesRaw q raw = false := by
  obtain ⟨hlit, hkl⟩ := hdr_bounds hdom hh
  refine Bool.eq_false_iff.2 fun hm => Nat.not_lt.2 h ((corrected_lt_iff hh hlit).1 ?_)
  rw [← (matchesRaw_iff_div hh).1 hm, Nat.div_lt_iff_lt_mul (by positivity), ← Nat.pow_add, Nat.add_sub_cancel' hkl]
  exact raw.isLt

/-- An operator whose subcode fits matches the first byte of its block (R148). -/
theorem exists_matchesRaw (hdom : hdrDomain q.layout = true) (h : q.amid < 2 ^ (hdr q.layout).1) :
    ∃ raw, matchesRaw q raw = true := by
  obtain ⟨k, l, lit, hh⟩ : ∃ k l lit, hdr q.layout = (k, l, lit) := ⟨_, _, _, rfl⟩
  obtain ⟨hlit, hkl⟩ := hdr_bounds hdom hh
  have hfits : corrected q < 2 ^ (k + l) := (corrected_lt_iff hh hlit).2 (by simpa [hh] using h)
  have hbyte : corrected q * 2 ^ (8 - (k + l)) < 2 ^ 8 := by
    calc corrected q * 2 ^ (8 - (k + l)) < 2 ^ (k + l) * 2 ^ (8 - (k + l)) :=
          Nat.mul_lt_mul_of_pos_right hfits (by positivity)
      _ = 2 ^ 8 := by rw [← Nat.pow_add, Nat.add_sub_cancel' hkl]
  refine ⟨BitVec.ofNat 8 (corrected q * 2 ^ (8 - (k + l))), (matchesRaw_iff_div hh).2 ?_⟩
  rw [BitVec.toNat_ofNat, Nat.mod_eq_of_lt hbyte, Nat.mul_div_cancel _ (by positivity)]

/-- Matching reads the subcode's bits, then the literals (R146, R147). -/
theorem matchesRaw_iff_take (hq : q.layout = t :: L) (hdom : hdrDomain q.layout = true)
    (ha : q.amid < 2 ^ leadingOps t) :
    matchesRaw q raw = true ↔ (byteBits raw).take (leadingOps t + (leadingLits t).length) =
      bitsOfNat (leadingOps t) q.amid ++ (leadingLits t).map (· == .lit1) := by
  have hh : hdr q.layout = (leadingOps t, (leadingLits t).length, litValue (leadingLits t)) := by
    rw [hq] at hdom ⊢
    exact hdr_cons hdom
  obtain ⟨hlit, hkl⟩ := hdr_bounds hdom hh
  have hcorrected : corrected q = natOfBits (bitsOfNat (leadingOps t) q.amid ++ (leadingLits t).map (· == .lit1)) := by
    rw [corrected_eq_add hh hlit, natOfBits_append, natOfBits_bitsOfNat, Nat.mod_eq_of_lt ha, List.length_map, litValue]
  rw [matchesRaw_iff_div hh, ← Nat.shiftRight_eq_div_pow, toNat_shiftRight_eq_natOfBits_take, hcorrected]
  refine natOfBits_inj ?_
  simp [byteBits_length, hkl]

end Header

/-! ### Where the encoder places a bit and the decoder collects it (R151, R158) -/

section Placing

variable {L : BitLayout} {ts : List Tag} {bs : List Bool} {lb : List Byte} {x : Tag}

/-- The bits under one tag, in layout order: `collect` for a field, the subcode for the opcode tag. -/
def bitsUnder (x : Tag) (tb : List (Tag × Bool)) : List Bool := tb.filterMap fun p => if p.1 = x then some p.2 else none

theorem bitsUnder_field (X : Letter) (tb : List (Tag × Bool)) : bitsUnder (.field X) tb = collect X tb := rfl

theorem bitsUnder_cons (x y : Tag) (b : Bool) (tb : List (Tag × Bool)) :
    bitsUnder x ((y, b) :: tb) = if y = x then b :: bitsUnder x tb else bitsUnder x tb := by
  by_cases h : y = x <;> simp [bitsUnder, h]

theorem bitsUnder_append (tb tb' : List (Tag × Bool)) : bitsUnder x (tb ++ tb') = bitsUnder x tb ++ bitsUnder x tb' :=
  List.filterMap_append

theorem bitsUnder_eq_nil {tb : List (Tag × Bool)} (h : ∀ b, (x, b) ∉ tb) : bitsUnder x tb = [] :=
  List.filterMap_eq_nil_iff.2 fun p hp => if_neg fun (hx : p.1 = x) => h p.2 (hx ▸ hp)

theorem bitsUnder_replicate_zip (n : Nat) (h : bs.length = n) : bitsUnder x ((List.replicate n x).zip bs) = bs := by
  subst h
  induction bs with
  | nil => rfl
  | cons b bs ih => simpa [List.replicate_succ, bitsUnder_cons] using ih

/-- What is placed for a tag is what is collected under it, when the bits given are as many as the tags. -/
theorem bitsUnder_op_placeBits {ob : List Bool} {fb : Letter → List Bool} (h : ob.length = ts.count .op) :
    bitsUnder .op (ts.zip (placeBits ts ob fb)) = ob := by
  induction ts generalizing ob fb with
  | nil => simpa [bitsUnder] using h
  | cons x ts ih =>
    cases x with
    | op =>
      obtain ⟨b, ob, rfl⟩ := List.exists_cons_of_length_eq_add_one (h.trans List.count_cons_self)
      simpa [placeBits, bitsUnder_cons] using ih (by simpa using h)
    | lit0 | lit1 | dontCare | field X => simpa [placeBits, bitsUnder_cons] using ih (by simpa using h)

theorem collect_placeBits {ob : List Bool} {fb : Letter → List Bool} {X : Letter}
    (h : (fb X).length = ts.count (.field X)) : collect X (ts.zip (placeBits ts ob fb)) = fb X := by
  rw [← bitsUnder_field]
  induction ts generalizing ob fb with
  | nil => simpa [bitsUnder] using h
  | cons x ts ih =>
    cases x with
    | field Y =>
      by_cases hY : Y = X
      · subst hY
        obtain ⟨b, fs, hfs⟩ := List.exists_cons_of_length_eq_add_one (h.trans List.count_cons_self)
        have htail := ih (ob := ob) (fb := (takeFieldBit fb Y).2) (by simpa [takeFieldBit, hfs] using h)
        rw [placeBits, List.zip_cons_cons, bitsUnder_cons, if_pos rfl, htail]
        simp [takeFieldBit, hfs]
      · have htail := ih (ob := ob) (fb := (takeFieldBit fb Y).2) (by simpa [takeFieldBit, hY, Ne.symm hY] using h)
        rw [placeBits, List.zip_cons_cons, bitsUnder_cons, if_neg (by simpa using hY), htail]
        simp [takeFieldBit, Ne.symm hY]
    | op | lit0 | lit1 | dontCare => simpa [placeBits, bitsUnder_cons] using ih (by simpa using h)

/-- Placing again what was collected gives the canonical bits (R159 (b)). -/
theorem placeBits_collected {ob : List Bool} {fb : Letter → List Bool} (hlen : ts.length ≤ bs.length)
    (hob : ob = bitsUnder .op (ts.zip bs)) (hfb : ∀ X, fb X = collect X (ts.zip bs)) :
    placeBits ts ob fb = (ts.zip bs).map canonicalBit := by
  simp only [← bitsUnder_field] at hfb
  induction ts generalizing bs ob fb with
  | nil => rfl
  | cons x ts ih =>
    obtain ⟨b, bs, rfl⟩ := List.exists_cons_of_length_pos (Nat.lt_of_lt_of_le ts.length.succ_pos hlen)
    simp only [List.zip_cons_cons, bitsUnder_cons] at hob hfb
    have hlen' : ts.length ≤ bs.length := by simpa using hlen
    cases x with
    | op =>
      subst hob
      simpa [placeBits, canonicalBit] using ih hlen' rfl (by simpa using hfb)
    | field X =>
      have hX : fb X = b :: bitsUnder (.field X) (ts.zip bs) := by simpa using hfb X
      have htail := ih (fb := (takeFieldBit fb X).2) hlen' (by simpa using hob) fun Y => by
        by_cases hY : Y = X
        · subst hY
          simp [takeFieldBit, hX]
        · simpa [takeFieldBit, hY, Ne.symm hY] using hfb Y
      rw [placeBits, htail]
      simp [takeFieldBit, hX, canonicalBit]
    | lit0 | lit1 | dontCare =>
      simpa [placeBits, canonicalBit] using ih hlen' (by simpa using hob) (by simpa using hfb)

/-- The tags of whole bytes stand against the bits of the stream, one by one. -/
theorem taggedBits_eq_zip (hL : ∀ t ∈ L, t.length = 8) (lb : List Byte) :
    taggedBits L lb = L.flatten.zip (lb.flatMap byteBits) := by
  induction L generalizing lb with
  | nil => rfl
  | cons t L ih =>
    obtain ⟨ht, hL'⟩ := List.forall_mem_cons.1 hL
    cases lb with
    | nil => simp [taggedBits]
    | cons b lb =>
      rw [List.flatten_cons, List.flatMap_cons, List.zip_append ht, ← ih hL']
      rfl

theorem flatten_length_of_wholeBytes (hL : ∀ t ∈ L, t.length = 8) : L.flatten.length = 8 * L.length := by
  rw [List.length_flatten, List.eq_replicate_of_mem (l := L.map List.length) (a := 8) (by simpa using hL)]
  simp [Nat.mul_comm]

/-- The canonical bytes are the canonical bits, cut into bytes (R159 (b)). -/
theorem canonicalBytes_eq_bitsToBytes (hL : ∀ t ∈ L, t.length = 8) (hlb : L.length ≤ lb.length) :
    canonicalBytes L lb = bitsToBytes L ((taggedBits L lb).map canonicalBit) := by
  induction L generalizing lb with
  | nil => rfl
  | cons t L ih =>
    obtain ⟨ht, hL'⟩ := List.forall_mem_cons.1 hL
    obtain ⟨b, lb, rfl⟩ := List.exists_cons_of_length_pos (Nat.lt_of_lt_of_le L.length.succ_pos hlb)
    have hbyte : ((t.zip (byteBits b)).map canonicalBit).length = t.length := by simp [ht, byteBits_length]
    have hsplit : (taggedBits (t :: L) (b :: lb)).map canonicalBit =
        (t.zip (byteBits b)).map canonicalBit ++ (taggedBits L lb).map canonicalBit := List.map_append
    rw [canonicalBytes, bitsToBytes, hsplit, List.take_left' hbyte, List.drop_left' hbyte, ih hL' (by simpa using hlb)]

end Placing

/-! ### The bits of the header (R49, R158) -/

section HeaderBits

variable {L : BitLayout} {t : LayoutByte} {bs : List Bool} {tail : List Byte} {raw : Byte} {q : Secondary}

/-- The bits of a byte 0: the subcode's, the literals', the rest. -/
theorem zip_eq_header (h : t.length = bs.length) : t.zip bs =
    (List.replicate (leadingOps t) Tag.op).zip (bs.take (leadingOps t)) ++
      ((leadingLits t).zip ((bs.drop (leadingOps t)).take (leadingLits t).length) ++
        (afterHeader t).zip ((bs.drop (leadingOps t)).drop (leadingLits t).length)) := by
  have hsplit := eq_ops_append_lits_append_afterHeader t
  have hlen := congrArg List.length hsplit
  simp only [List.length_append, List.length_replicate] at hlen
  rw [← List.zip_append (by rw [List.length_take, List.length_drop]; omega), List.take_append_drop,
    ← List.zip_append (by rw [List.length_take, List.length_replicate]; omega), List.take_append_drop,
    ← List.append_assoc, ← hsplit]

theorem op_not_mem_afterHeader (h : headerForm t = true) : Tag.op ∉ afterHeader t := fun hop => by
  simpa [isOpTag] using List.all_eq_true.1 h _ hop

/-- A well-formed layout has a byte 0 of 8 tags in the form of R49, whose header `hdr` reads, and no opcode tag behind it. -/
theorem exists_byte0_of_wfLayout (hw : wfLayout L = true) : ∃ t L', L = t :: L' ∧ t.length = 8 ∧ headerForm t = true ∧
    (hdr L).1 = leadingOps t ∧ .op ∉ L'.flatten := by
  have hdom := hdrDomain_of_wfLayout hw
  obtain ⟨t, L, rfl, hlen, hform⟩ := hdrDomain_iff.1 hdom
  refine ⟨t, L, rfl, hlen, hform, by rw [hdr_cons hdom], fun hop => ?_⟩
  obtain ⟨u, hu, hop⟩ := List.mem_flatten.1 hop
  exact wfCheck_opOnlyInByte0_iff.1 (wfCheck_of_wfLayout hw _) u hu hop

/-- The opcode tags of a well-formed layout are the leading ones of byte 0 (R48). -/
theorem count_op_of_wfLayout (hw : wfLayout L = true) : L.flatten.count .op = (hdr L).1 := by
  obtain ⟨t, L, rfl, -, hform, hk, hop⟩ := exists_byte0_of_wfLayout hw
  have hlits : (leadingLits t).count .op = 0 := List.count_eq_zero.2 fun h => by simpa using lit_of_mem_leadingLits h
  have hrest : (afterHeader t).count .op = 0 := List.count_eq_zero.2 (op_not_mem_afterHeader hform)
  have hbyte : t.count .op = leadingOps t := by
    conv_lhs => rw [eq_ops_append_lits_append_afterHeader t]
    simp [hlits, hrest]
  rw [hk, List.flatten_cons, List.count_append, hbyte, List.count_eq_zero.2 hop, Nat.add_zero]

/-- The bits under the opcode tags are the first bits of byte 0. -/
theorem bitsUnder_op_of_wfLayout (hw : wfLayout L = true) :
    bitsUnder .op (taggedBits L (raw :: tail)) = (byteBits raw).take (hdr L).1 := by
  obtain ⟨t, L, rfl, hlen, hform, hk, hop⟩ := exists_byte0_of_wfLayout hw
  have hops : leadingOps t ≤ (byteBits raw).length := (List.takeWhile_sublist isOpTag).length_le.trans_eq hlen
  have hlits {bs : List Bool} : bitsUnder .op ((leadingLits t).zip bs) = [] :=
    bitsUnder_eq_nil fun b hb => by simpa using lit_of_mem_leadingLits (List.of_mem_zip hb).1
  have hrest {bs : List Bool} : bitsUnder .op ((afterHeader t).zip bs) = [] :=
    bitsUnder_eq_nil fun b hb => op_not_mem_afterHeader hform (List.of_mem_zip hb).1
  have htail : bitsUnder .op (taggedBits L tail) = [] := bitsUnder_eq_nil fun b hb => by
    obtain ⟨⟨u, c⟩, huc, hub⟩ := List.mem_flatMap.1 hb
    exact hop (List.mem_flatten.2 ⟨u, (List.of_mem_zip huc).1, (List.of_mem_zip hub).1⟩)
  calc bitsUnder .op (taggedBits (t :: L) (raw :: tail))
      = bitsUnder .op (t.zip (byteBits raw)) ++ bitsUnder .op (taggedBits L tail) := bitsUnder_append _ _
    _ = (byteBits raw).take (hdr (t :: L)).1 := by
      rw [hk, htail, zip_eq_header hlen, bitsUnder_append, bitsUnder_append, hlits, hrest,
        bitsUnder_replicate_zip _ (List.length_take_of_le hops), List.append_nil, List.append_nil, List.append_nil]

/-- Canonical bits under literal tags are the literals (R145). -/
theorem eq_map_of_canonical {lits : List Tag} (hlen : bs.length = lits.length) (hlits : ∀ x ∈ lits, x = .lit0 ∨ x = .lit1)
    (h : ∀ p ∈ lits.zip bs, canonicalBit p = p.2) : bs = lits.map (· == .lit1) := by
  induction lits generalizing bs with
  | nil => simpa using hlen
  | cons x lits ih =>
    obtain ⟨b, bs, rfl⟩ := List.exists_cons_of_length_eq_add_one hlen
    obtain ⟨hx, hlits'⟩ := List.forall_mem_cons.1 hlits
    obtain ⟨hb, h'⟩ := List.forall_mem_cons.1 h
    have hhead : b = (x == .lit1) := by
      obtain rfl | rfl := hx <;> exact hb.symm
    rw [List.map_cons, ← hhead, ← ih (by simpa using hlen) hlits' h']

/-- The bits under the opcode tags of a matching operator are its subcode. -/
theorem bitsUnder_op_of_matchesRaw (hw : wfLayout q.layout = true) (ha : q.amid < 2 ^ (hdr q.layout).1)
    (hm : matchesRaw q raw = true) :
    bitsUnder .op (taggedBits q.layout (raw :: tail)) = bitsOfNat (hdr q.layout).1 q.amid := by
  obtain ⟨t, L, hq, -, -, hk, -⟩ := exists_byte0_of_wfLayout hw
  rw [bitsUnder_op_of_wfLayout hw]
  rw [hk] at ha ⊢
  have htake := congrArg (List.take (leadingOps t)) ((matchesRaw_iff_take hq (hdrDomain_of_wfLayout hw) ha).1 hm)
  rwa [List.take_take, Nat.min_eq_left (Nat.le_add_right _ _), List.take_left' (bitsOfNat_length _ _)] at htake

/-- Bytes that hold the subcode under the opcode tags, and each literal at its value, match. -/
theorem matchesRaw_of_canonical (hw : wfLayout q.layout = true) (ha : q.amid < 2 ^ (hdr q.layout).1)
    (hop : bitsUnder .op (taggedBits q.layout (raw :: tail)) = bitsOfNat (hdr q.layout).1 q.amid)
    (hcanon : ∀ x ∈ taggedBits q.layout (raw :: tail), canonicalBit x = x.2) : matchesRaw q raw = true := by
  have hdom := hdrDomain_of_wfLayout hw
  obtain ⟨t, L, hq, hlen, -, hk, -⟩ := exists_byte0_of_wfLayout hw
  obtain ⟨-, hkl⟩ := hdr_bounds (hq ▸ hdom) (hdr_cons (hq ▸ hdom))
  have hbyte : ∀ x ∈ t.zip (byteBits raw), canonicalBit x = x.2 := fun x hx => hcanon x <| by
    rw [hq]
    exact List.mem_append_left _ hx
  rw [zip_eq_header hlen] at hbyte
  have hlits := eq_map_of_canonical (by rw [List.length_take, List.length_drop, byteBits_length]; omega)
    (fun _ => lit_of_mem_leadingLits) fun x hx => hbyte x (List.mem_append_right _ (List.mem_append_left _ hx))
  rw [bitsUnder_op_of_wfLayout hw, hk] at hop
  rw [matchesRaw_iff_take hq hdom (hk ▸ ha), List.take_add, hop, hlits]

end HeaderBits

/-! ### The fields of a layout (R151, R154, R158) -/

section Fields

variable {L : BitLayout} {lb : List Byte} {vals : List Nat}

theorem lettersOf_nodup (L : BitLayout) : (lettersOf L).Nodup :=
  (allLetters_pairwise_lt.imp ne_of_lt).filter _

theorem valuesFit_iff : valuesFit L vals = true ↔ vals.length = (lettersOf L).length ∧
    ∀ (i : Nat) (X : Letter) (v : Nat), (lettersOf L)[i]? = some X → vals[i]? = some v → v < 2 ^ fieldCount L X := by
  simp only [valuesFit, Bool.and_eq_true, beq_iff_eq, List.all_eq_true, decide_eq_true_eq, Prod.forall,
    List.mem_iff_getElem?, List.getElem?_zip_eq_some]
  exact and_congr_right fun _ =>
    ⟨fun h i X v hX hv => h X v ⟨i, hX, hv⟩, fun h X v ⟨i, hX, hv⟩ => h i X v hX hv⟩

/-- The value of the `i`-th letter goes to its field. -/
theorem valueBits_getElem (hv : vals.length = (lettersOf L).length) {i : Nat} (hi : i < (lettersOf L).length) :
    valueBits L vals (lettersOf L)[i] = bitsOfNat (fieldCount L (lettersOf L)[i]) vals[i] := by
  rw [valueBits, (lettersOf_nodup L).idxOf_getElem i hi, List.getD_eq_getElem _ _ (hv ▸ hi)]

/-- Collecting the bits of values that fit gives their fields. -/
theorem fieldsOf_of_collect (hv : valuesFit L vals = true)
    (h : ∀ X, collect X (taggedBits L lb) = valueBits L vals X) : fieldsOf L lb = fieldsOfValues L vals := by
  obtain ⟨hlen, hfit⟩ := valuesFit_iff.1 hv
  refine List.ext_getElem (by simp [fieldsOf, fieldsOfValues, hlen]) fun i hi _ => ?_
  have hi' : i < (lettersOf L).length := by simpa [fieldsOf] using hi
  have hlt := hfit i _ _ (List.getElem?_eq_getElem hi') (List.getElem?_eq_getElem (hlen ▸ hi'))
  simp [fieldsOf, fieldsOfValues, extractField, h, valueBits_getElem hlen hi', natOfBits_bitsOfNat, Nat.mod_eq_of_lt hlt]

theorem values_fieldsOf (L : BitLayout) (lb : List Byte) : (fieldsOf L lb).map FieldValue.value =
    (lettersOf L).map fun X => natOfBits (collect X (taggedBits L lb)) := by
  simp [fieldsOf, extractField]

theorem values_fieldsOfValues (h : vals.length = (lettersOf L).length) :
    (fieldsOfValues L vals).map FieldValue.value = vals := by
  refine List.ext_getElem (by simp [fieldsOfValues, h]) fun i _ _ => ?_
  simp [fieldsOfValues]

theorem valuesFit_fieldsOf (hL : ∀ t ∈ L, t.length = 8) (hlb : L.length ≤ lb.length) :
    valuesFit L ((fieldsOf L lb).map FieldValue.value) = true := by
  rw [values_fieldsOf, valuesFit_iff]
  refine ⟨List.length_map _, fun i X v hX hv => ?_⟩
  obtain rfl : natOfBits (collect X (taggedBits L lb)) = v := by simpa [hX] using hv
  exact collect_length hL hlb X ▸ natOfBits_lt _

/-- The bits of the values read are those collected. -/
theorem valueBits_fieldsOf (hL : ∀ t ∈ L, t.length = 8) (hlb : L.length ≤ lb.length) (X : Letter) :
    valueBits L ((fieldsOf L lb).map FieldValue.value) X = collect X (taggedBits L lb) := by
  have hcount := collect_length hL hlb X
  by_cases hX : X ∈ lettersOf L
  · have hidx := List.idxOf_lt_length_iff.2 hX
    rw [valueBits, values_fieldsOf, List.getD_eq_getElem _ _ (by simpa using hidx), List.getElem_map,
      List.getElem_idxOf hidx, ← hcount, bitsOfNat_natOfBits]
  · have hzero : fieldCount L X = 0 := List.count_eq_zero.2 (mt mem_lettersOf.2 hX)
    rw [valueBits, hzero, List.eq_nil_of_length_eq_zero (hcount.trans hzero)]
    rfl

theorem fieldsOfValues_fieldsOf (hL : ∀ t ∈ L, t.length = 8) (hlb : L.length ≤ lb.length) :
    fieldsOfValues L ((fieldsOf L lb).map FieldValue.value) = fieldsOf L lb :=
  (fieldsOf_of_collect (valuesFit_fieldsOf hL hlb) fun X => (valueBits_fieldsOf hL hlb X).symm).symm

end Fields

/-! ### The two round trips (R159) -/

section RoundTrip

variable {T : Table} {q : Secondary} {vals : List Nat} {bs tail : List Byte} {raw : Byte} {p : Primary}

/-- The bits the encoder writes after the primary byte. -/
def instrBits (q : Secondary) (vals : List Nat) : List Bool :=
  placeBits q.layout.flatten (bitsOfNat (hdr q.layout).1 q.amid) (valueBits q.layout vals)

theorem encodeInstr_eq_some_iff : encodeInstr q vals = some bs ↔ q.amid < 2 ^ (hdr q.layout).1 ∧
    valuesFit q.layout vals = true ∧ bs = q.parent :: bitsToBytes q.layout (instrBits q vals) := by
  refine ⟨encodeInstr_eq_some, ?_⟩
  rintro ⟨ha, hv, rfl⟩
  simp [encodeInstr, ha, hv, instrBits]

theorem taggedBits_instrBits (hw : wfLayout q.layout = true) :
    taggedBits q.layout (bitsToBytes q.layout (instrBits q vals)) = q.layout.flatten.zip (instrBits q vals) :=
  taggedBits_bitsToBytes (wholeBytes_of_wfLayout hw) (placeBits_length _ _ _)

/-- Every bit written is its tag's canonical bit. -/
theorem canonical_of_mem_instrBits (hw : wfLayout q.layout = true) :
    ∀ x ∈ taggedBits q.layout (bitsToBytes q.layout (instrBits q vals)), canonicalBit x = x.2 := by
  rw [taggedBits_instrBits hw]
  exact placeBits_canonical _ _ _

theorem collect_instrBits (hw : wfLayout q.layout = true) (X : Letter) :
    collect X (taggedBits q.layout (bitsToBytes q.layout (instrBits q vals))) = valueBits q.layout vals X := by
  rw [taggedBits_instrBits hw]
  exact collect_placeBits (bitsOfNat_length _ _)

theorem matchesRaw_instrBits (hw : wfLayout q.layout = true) (ha : q.amid < 2 ^ (hdr q.layout).1)
    (hbytes : bitsToBytes q.layout (instrBits q vals) = raw :: tail) : matchesRaw q raw = true := by
  refine matchesRaw_of_canonical (tail := tail) hw ha ?_ (hbytes ▸ canonical_of_mem_instrBits hw)
  rw [← hbytes, taggedBits_instrBits hw]
  exact bitsUnder_op_placeBits (by rw [bitsOfNat_length, count_op_of_wfLayout hw])

theorem literalAgrees_of_canonicalBit {x : Tag × Bool} (h : canonicalBit x = x.2) : literalAgrees x = true := by
  obtain ⟨tag, b⟩ := x
  cases tag with
  | lit0 =>
    obtain rfl : false = b := h
    rfl
  | lit1 =>
    obtain rfl : true = b := h
    rfl
  | op | dontCare | field X => rfl

theorem literalsOk_instrBits (hw : wfLayout q.layout = true) :
    literalsOk q.layout (bitsToBytes q.layout (instrBits q vals)) = true := by
  refine List.all_eq_true.2 fun x hx => literalAgrees_of_canonicalBit (canonical_of_mem_instrBits (vals := vals) hw x ?_)
  obtain ⟨c, hc, hxc⟩ := List.mem_flatMap.1 hx
  rw [← List.tail_zip] at hc
  exact List.mem_flatMap.2 ⟨c, List.mem_of_mem_tail hc, hxc⟩

/-- R159 (a): the encoding of values decodes to their record, whatever follows it. -/
theorem decodeInstr_encodeInstr (hc : consistent T = true) (hq : q ∈ T.st) (hp : primaryByCode T q.parent = some p)
    (h : encodeInstr q vals = some bs) (rest : List Byte) :
    decodeInstr T (bs ++ rest) = .decoded (decodedRecord p q (fieldsOfValues q.layout vals) true) := by
  obtain ⟨ha, hv, rfl⟩ := encodeInstr_eq_some_iff.1 h
  have hw := wfLayout_of_consistent hc hq
  have hlen : (bitsToBytes q.layout (instrBits q vals)).length = q.layout.length := bitsToBytes_length _ _
  obtain ⟨raw, tail, hbytes⟩ : ∃ raw tail, bitsToBytes q.layout (instrBits q vals) = raw :: tail :=
    List.exists_cons_of_ne_nil (List.ne_nil_of_length_pos (hlen ▸ List.length_pos_of_ne_nil (ne_nil_of_wfLayout hw)))
  have hm := matchesRaw_instrBits hw ha hbytes
  have htake : (raw :: (tail ++ rest)).take q.layout.length = raw :: tail := by
    rw [← List.cons_append, ← hbytes, List.take_left' hlen]
  rw [List.cons_append, hbytes, List.cons_append, decodeInstr_of_decodeSecondary_some hp
    (decodeSecondary_of_consistent hc hq hm) (by rw [← hlen, hbytes]; simp), htake, ← hbytes,
    fieldsOf_of_collect hv (collect_instrBits hw), literalsOk_instrBits hw]

/-- R159 (b): the values read from bytes of a matching operator encode to these bytes, made canonical. -/
theorem encodeInstr_fieldsOf (hw : wfLayout q.layout = true) (ha : q.amid < 2 ^ (hdr q.layout).1)
    (hm : matchesRaw q raw = true) (hlen : q.layout.length ≤ (raw :: tail).length) :
    encodeInstr q ((fieldsOf q.layout (raw :: tail)).map FieldValue.value) =
      some (q.parent :: canonicalBytes q.layout (raw :: tail)) := by
  have hL := wholeBytes_of_wfLayout hw
  have hbits : instrBits q ((fieldsOf q.layout (raw :: tail)).map FieldValue.value) =
      (taggedBits q.layout (raw :: tail)).map canonicalBit := by
    have hflat := taggedBits_eq_zip hL (raw :: tail)
    rw [hflat]
    refine placeBits_collected ?_ ?_ fun X => ?_
    · rw [flatten_length_of_wholeBytes hL, length_flatMap_byteBits]
      omega
    · rw [← hflat, bitsUnder_op_of_matchesRaw hw ha hm]
    · rw [← hflat, valueBits_fieldsOf hL hlen]
  rw [canonicalBytes_eq_bitsToBytes hL hlen, ← hbits]
  exact encodeInstr_eq_some_iff.2 ⟨ha, valuesFit_fieldsOf hL hlen, rfl⟩

end RoundTrip

/-! ### What a consistent table says (R163) -/

section Checks

variable {T : Table} {q : Secondary}

theorem consistent_iff_checks : consistent T = true ↔ ∀ c, check T c = true :=
  ⟨check_of_consistent, fun h => List.all_eq_true.2 fun c _ => h c⟩

theorem noClash_iff {q1 q2 : Secondary} : noClash q1 q2 ↔ (q1 ≠ q2 → q1.parent = q2.parent →
    ∀ raw : Byte, ¬(matchesRaw q1 raw = true ∧ matchesRaw q2 raw = true)) := by
  rw [noClash, or_iff_not_imp_left]
  refine imp_congr_right fun _ => ⟨fun h hparent raw hm => ?_, fun h raw _ => Bool.eq_false_iff.2 fun hclash => ?_⟩
  · simpa [clashAt, hparent, hm] using h raw (mem_allBytes raw)
  · obtain ⟨⟨hparent, hm1⟩, hm2⟩ : (q1.parent = q2.parent ∧ matchesRaw q1 raw = true) ∧ matchesRaw q2 raw = true := by
      simpa [clashAt] using hclash
    exact h hparent raw ⟨hm1, hm2⟩

theorem check_disjoint_iff_forall : check T .disjoint = true ↔ ∀ q1 ∈ T.st, ∀ q2 ∈ T.st, noClash q1 q2 := by
  simp [check, noClash]

theorem primaryByCode_isSome {c : Byte} : (primaryByCode T c).isSome = true ↔ ∃ p ∈ T.pt, p.opcode = c := by
  simp [primaryByCode, List.find?_isSome]

/-- Where opcodes are unique, the parent found is the only one. -/
theorem entryKeyMnemonic_iff (h : (T.pt.map Primary.opcode).Nodup) : entryKeyMnemonic T q = true ↔
    ∃ p ∈ T.pt, p.opcode = q.parent ∧ mnemOf q.key = p.mnemonic := by
  constructor
  · intro hq
    unfold entryKeyMnemonic at hq
    split at hq
    · next p hp =>
      obtain ⟨hmem, hcode⟩ := mem_of_primaryByCode hp
      exact ⟨p, hmem, hcode, by simpa using hq⟩
    · cases hq
  · rintro ⟨p, hp, hcode, hkey⟩
    simp [entryKeyMnemonic, ← hcode, primaryByCode_of_mem h hp, hkey]

/-- `chk_field_widths` reads the signature, so what passes it passes `chk_shape_parses`. -/
theorem entryFieldWidths_iff : entryFieldWidths q = true ↔ ∃ shapes, parseShape (sigOf q.key) = some shapes ∧
    lettersOf q.layout = (List.range shapes.length).map letterOf ∧
    ∀ (i : Nat) (h : i < shapes.length), fieldCount q.layout (letterOf i) = fieldBits shapes[i] := by
  cases hsig : parseShape (sigOf q.key) with
  | none => simp [entryFieldWidths, hsig]
  | some shapes => simp [entryFieldWidths, hsig, fieldBitsAgree_iff]

theorem shapes_of_consistent (hc : consistent T = true) (hq : q ∈ T.st) : ∃ shapes, parseShape (sigOf q.key) = some shapes ∧
    lettersOf q.layout = (List.range shapes.length).map letterOf ∧
    ∀ (i : Nat) (h : i < shapes.length), fieldCount q.layout (letterOf i) = fieldBits shapes[i] :=
  entryFieldWidths_iff.1 (List.all_eq_true.1 (check_of_consistent hc .fieldWidths) q hq)

end Checks

/-! ### Secondaries and verdicts (R149, R154) -/

section Verdicts

variable {T : Table} {P raw : Byte} {tail : List Byte} {p : Primary} {q : Secondary}

theorem decodeSecondary_eq_find? : decodeSecondary T P raw = T.st.find? fun q => q.parent == P && matchesRaw q raw := by
  simp [decodeSecondary, secondariesOf, List.find?_filter, Bool.beq_eq_decide_eq]

theorem decodeSecondary_eq_some : decodeSecondary T P raw = some q ↔ ∃ before after, T.st = before ++ q :: after ∧
    q.parent = P ∧ matchesRaw q raw = true ∧ ∀ x ∈ before, x.parent = P → matchesRaw x raw = false := by
  simp only [decodeSecondary_eq_find?, List.find?_eq_some_iff_append, Bool.and_eq_true, beq_iff_eq, Bool.not_eq_true',
    Bool.and_eq_false_imp]
  exact ⟨fun ⟨⟨hP, hm⟩, before, after, hst, hb⟩ => ⟨before, after, hst, hP, hm, hb⟩,
    fun ⟨before, after, hst, hP, hm, hb⟩ => ⟨⟨hP, hm⟩, before, after, hst, hb⟩⟩

theorem decodeSecondary_eq_none :
    decodeSecondary T P raw = none ↔ ∀ q ∈ T.st, q.parent = P → matchesRaw q raw = false := by
  simp [decodeSecondary_eq_find?]

theorem decodeInstr_of_short (hp : primaryByCode T P = some p) (hq : decodeSecondary T P raw = some q)
    (hlen : (raw :: tail).length < q.layout.length) :
    decodeInstr T (P :: raw :: tail) = .truncated (1 + q.layout.length) := by
  simp only [decodeInstr, hp, secondariesOf_ne_nil_of_decodeSecondary hq, hq, hlen, if_true, if_false]

/-- A decoded record is that of an operator of the table that matches the second byte. -/
theorem exists_record_of_decoded {ib : List Byte} {d : DecodedInstr} (h : decodeInstr T ib = .decoded d) :
    ∃ raw tail p q, ib = q.parent :: raw :: tail ∧ q ∈ T.st ∧ primaryByCode T q.parent = some p ∧
      matchesRaw q raw = true ∧ q.layout.length ≤ (raw :: tail).length ∧
      d = decodedRecord p q (fieldsOf q.layout (raw :: tail)) (literalsOk q.layout (raw :: tail)) := by
  obtain ⟨P, raw, tail, p, q, rfl, hp, hq, hlen, rfl⟩ := decodeInstr_eq_decoded h
  obtain ⟨hst, rfl, hm⟩ := mem_of_decodeSecondary hq
  exact ⟨raw, tail, p, q, rfl, hst, hp, hm, hlen, by rw [fieldsOf_take hlen, literalsOk_take hlen]⟩

theorem lengthOf_eq_none {r : DecodeResult} (hd : ∀ d, r ≠ .decoded d) (hp : ∀ p, r ≠ .primaryOnly p) : lengthOf r = none := by
  cases r with
  | decoded d => exact absurd rfl (hd d)
  | primaryOnly p => exact absurd rfl (hp p)
  | illegalPrimary | illegalSecondary | truncated => rfl

end Verdicts

/-! ### Field positions (R138, R151) -/

section Positions

variable {L : BitLayout} {lb : List Byte} {X : Letter}

theorem zip_byteBits_eq_map {t : LayoutByte} (ht : t.length = 8) (b : Byte) :
    t.zip (byteBits b) = t.zipIdx.map fun p => (p.1, b.getLsbD (7 - p.2)) := by
  refine List.ext_getElem (by simp [ht, byteBits_length]) fun i hi _ => ?_
  have hi8 : i < 8 := by simpa [ht, byteBits_length] using hi
  have hbit := (List.getElem?_eq_some_iff.1 (byteBits_getElem? b hi8)).2
  simp [hbit]

theorem taggedBits_eq_zipIdx (hL : ∀ t ∈ L, t.length = 8) (hlb : L.length ≤ lb.length) : taggedBits L lb =
    L.zipIdx.flatMap fun p => p.1.zipIdx.map fun r => (r.1, (lb.getD p.2 0).getLsbD (7 - r.2)) := by
  have hzip : L.zip lb = L.zipIdx.map fun p => (p.1, lb.getD p.2 0) := by
    refine List.ext_getElem (by simp [hlb]) fun i hi _ => ?_
    have hi' : i < lb.length := by simp at hi; omega
    simp [hi']
  rw [taggedBits, hzip, List.flatMap_map]
  exact List.flatMap_congr fun p hp => zip_byteBits_eq_map (hL _ (List.fst_mem_of_mem_zipIdx hp)) _

/-- The bits collected are those at the field's positions, first to last. -/
theorem collect_eq_map_fieldPositions (hL : ∀ t ∈ L, t.length = 8) (hlb : L.length ≤ lb.length) :
    collect X (taggedBits L lb) = (fieldPositions L X).map fun p => (lb.getD p.1 0).getLsbD p.2 := by
  rw [taggedBits_eq_zipIdx hL hlb, collect, fieldPositions, List.filterMap_flatMap, List.map_flatMap]
  refine List.flatMap_congr fun p _ => ?_
  rw [List.filterMap_map, bytePositions, List.map_filterMap]
  refine List.filterMap_congr fun r _ => ?_
  by_cases h : r.1 = .field X <;> simp [h]

theorem mem_bytePositions {j j' i : Nat} {t : LayoutByte} (ht : t.length = 8) :
    (j', i) ∈ bytePositions j t X ↔ j' = j ∧ i < 8 ∧ t[7 - i]? = some (.field X) := by
  simp only [bytePositions, List.mem_filterMap, Prod.exists, List.mk_mem_zipIdx_iff_getElem?, Option.ite_none_right_eq_some,
    Option.some_inj, Prod.mk.injEq]
  constructor
  · rintro ⟨x, n, hn, rfl, rfl, rfl⟩
    have hn8 : n < 8 := ht ▸ (List.getElem?_eq_some_iff.1 hn).1
    exact ⟨rfl, by omega, by rwa [Nat.sub_sub_self (by omega)]⟩
  · rintro ⟨rfl, hi, hx⟩
    exact ⟨_, 7 - i, hx, rfl, rfl, by omega⟩

theorem mem_fieldPositions (hL : ∀ t ∈ L, t.length = 8) {j i : Nat} : (j, i) ∈ fieldPositions L X ↔
    i < 8 ∧ ∃ t, L[j]? = some t ∧ t[7 - i]? = some (.field X) := by
  simp only [fieldPositions, List.mem_flatMap, Prod.exists, List.mk_mem_zipIdx_iff_getElem?]
  constructor
  · rintro ⟨t, j', ht, hmem⟩
    obtain ⟨rfl, hi, hx⟩ := (mem_bytePositions (hL t (List.mem_of_getElem? ht))).1 hmem
    exact ⟨hi, t, ht, hx⟩
  · rintro ⟨hi, t, ht, hx⟩
    exact ⟨t, j, ht, (mem_bytePositions (hL t (List.mem_of_getElem? ht))).2 ⟨rfl, hi, hx⟩⟩

theorem zipIdx_pairwise_snd_lt {α : Type} (l : List α) : l.zipIdx.Pairwise fun a b => a.2 < b.2 := by
  have h : (l.zipIdx.map Prod.snd).Pairwise (· < ·) := by
    rw [List.zipIdx_map_snd]
    exact List.pairwise_lt_range'
  exact List.pairwise_map.1 h

/-- Byte 0 first, bit 7 first (R138). -/
theorem fieldPositions_pairwise (hL : ∀ t ∈ L, t.length = 8) :
    (fieldPositions L X).Pairwise fun a b => a.1 < b.1 ∨ (a.1 = b.1 ∧ b.2 < a.2) := by
  have hbyte {p : LayoutByte × Nat} (hp : p ∈ L.zipIdx) : p.1.length = 8 := hL _ (List.fst_mem_of_mem_zipIdx hp)
  refine List.pairwise_flatMap.2 ⟨fun p hp => ?_, (zipIdx_pairwise_snd_lt L).imp_of_mem ?_⟩
  · refine List.pairwise_filterMap.2 ((zipIdx_pairwise_snd_lt p.1).imp_of_mem ?_)
    rintro ⟨x, m⟩ ⟨y, n⟩ - hn hlt a ha b hb
    have hn8 : n < 8 := hbyte hp ▸ (List.getElem?_eq_some_iff.1 (List.mk_mem_zipIdx_iff_getElem?.1 hn)).1
    obtain ⟨-, rfl⟩ : x = .field X ∧ (p.2, 7 - m) = a := by simpa using ha
    obtain ⟨-, rfl⟩ : y = .field X ∧ (p.2, 7 - n) = b := by simpa using hb
    exact .inr ⟨rfl, by simp at hlt ⊢; omega⟩
  · rintro p r hp hr hlt ⟨j, i⟩ ha ⟨j', i'⟩ hb
    obtain ⟨rfl, -⟩ := (mem_bytePositions (hbyte hp)).1 ha
    obtain ⟨rfl, -⟩ := (mem_bytePositions (hbyte hr)).1 hb
    exact .inl hlt

end Positions

/-! ### Operands (R152 to R154) -/

section Operands

variable {T : Table} {d : Disp}

theorem dispBits_eq_bitsOfDisp (d : Disp) : dispBits d = bitsOfDisp d := by
  cases d with
  | none => rfl
  | immediate w => exact congrArg (8 * ·) (widthNat_eq_bytesIn w)
  | group w => rfl

/-- The split is division by the displacement's bits, with remainder. -/
theorem splitIndirect_eq (b : Inner) (d : Disp) (v : Nat) :
    splitIndirect b d v = (v / 2 ^ dispBits d, v % 2 ^ dispBits d) := by
  rw [splitIndirect, Nat.shiftRight_eq_div_pow, Nat.and_two_pow_sub_one_eq_mod]

theorem joinIndirect_eq {base disp : Nat} (h : disp < 2 ^ dispBits d) :
    joinIndirect d base disp = base * 2 ^ dispBits d + disp := by
  rw [joinIndirect, ← Nat.shiftLeft_add_eq_or_of_lt h, Nat.shiftLeft_eq]

theorem typedOperand_eq_typedAs (sh : OperandShape) (v : Nat) : typedOperand sh v = typedAs sh v := by
  cases sh with
  | registerGroup g => rfl
  | floatRegister => rfl
  | immediate n => rfl
  | memoryIndirect b d =>
    simp only [typedOperand, typedAs, splitIndirect_eq, dispBits_eq_bitsOfDisp]
    cases b <;> cases d <;> rfl

theorem fieldsFit_iff {shapes : List OperandShape} {fields : List FieldValue} :
    fieldsFit shapes fields = true ↔ fits shapes fields := by
  induction shapes generalizing fields with
  | nil => cases fields <;> simp [fieldsFit, fits]
  | cons sh shs ih =>
    cases fields with
    | nil => simp [fieldsFit, fits]
    | cons f fs =>
      rw [fieldsFit, Bool.and_eq_true, beq_iff_eq, ih, fieldBits_eq_bitsOfOperand]
      constructor
      · rintro ⟨hf, hlen, hfs⟩
        refine ⟨congrArg Nat.succ hlen, fun i sh' f' hsh hf' => ?_⟩
        cases i with
        | zero =>
          obtain rfl := Option.some_inj.1 hsh
          obtain rfl := Option.some_inj.1 hf'
          exact hf
        | succ i => exact hfs i sh' f' hsh hf'
      · rintro ⟨hlen, hall⟩
        exact ⟨hall 0 sh f rfl rfl, Nat.succ.inj hlen, fun i => hall (i + 1)⟩

theorem operandsOf_of_parse_none {q : Secondary} (fields : List FieldValue) (h : parseShape (sigOf q.key) = none) :
    operandsOf q fields = none := by
  simp only [operandsOf, h]

theorem operandsOf_of_fits {q : Secondary} {shapes : List OperandShape} {fields : List FieldValue}
    (h : parseShape (sigOf q.key) = some shapes) (hfit : fits shapes fields) :
    operandsOf q fields = some (List.zipWith (fun sh f => typedAs sh f.value) shapes fields) := by
  simp only [operandsOf, h, fieldsFit_iff.2 hfit, if_true, typedOperand_eq_typedAs]

theorem operandsOf_of_not_fits {q : Secondary} {shapes : List OperandShape} {fields : List FieldValue}
    (h : parseShape (sigOf q.key) = some shapes) (hfit : ¬fits shapes fields) : operandsOf q fields = none := by
  simp [operandsOf, h, mt fieldsFit_iff.1 hfit]

/-- A decoded record is the record of what the decoder read. -/
theorem operands_of_decoded {ib : List Byte} {d : DecodedInstr} (h : decodeInstr T ib = .decoded d) :
    d.operands = operandsOf d.op d.fields := by
  obtain ⟨-, -, p, q, -, -, -, -, -, rfl⟩ := exists_record_of_decoded h
  rfl

/-- In a layout that passes `chk_field_widths` field `i` has letter `i`, the bits of shape `i`, and a value that fits. -/
theorem fieldsOf_getElem? {L : BitLayout} {lb : List Byte} {shapes : List OperandShape} (hL : ∀ t ∈ L, t.length = 8)
    (hlb : L.length ≤ lb.length) (hletters : lettersOf L = (List.range shapes.length).map letterOf)
    (hbits : ∀ (i : Nat) (h : i < shapes.length), fieldCount L (letterOf i) = fieldBits shapes[i])
    {i : Nat} {sh : OperandShape} {f : FieldValue} (hsh : shapes[i]? = some sh) (hf : (fieldsOf L lb)[i]? = some f) :
    f.letter = letterOf i ∧ f.width = fieldBits sh ∧ f.value < 2 ^ fieldBits sh := by
  obtain ⟨hi, rfl⟩ := List.getElem?_eq_some_iff.1 hsh
  have hwidth : (collect (letterOf i) (taggedBits L lb)).length = fieldBits shapes[i] :=
    (collect_length hL hlb _).trans (hbits i hi)
  obtain rfl : FieldValue.mk (letterOf i) (extractField L lb (letterOf i)).1 (extractField L lb (letterOf i)).2 = f := by
    simpa [fieldsOf, hletters, List.getElem?_range hi] using hf
  exact ⟨rfl, hwidth, hwidth ▸ natOfBits_lt _⟩

end Operands

/-! ### The step and the rows (R154, R166) -/

section Rows

variable {s : State} {T : Table} {p : Primary} {q : Secondary} {i : Instr} {vals : List Nat}

theorem fetchInstr_of_ok (h : decode s.table s.ib = .ok i) : fetchInstr s = i := by simp [fetchInstr, h]

theorem fetchInstr_of_error {e : Reject} (h : decode s.table s.ib = .error e) : fetchInstr s = .decodeInstr s.ib := by
  simp [fetchInstr, h]

theorem decode_of_decoded {ib : List Byte} {d : DecodedInstr} (h : decodeInstr T ib = .decoded d) :
    decode T ib = .ok (operatorInstr d.op (d.fields.map FieldValue.value) d.literalsOk) := by
  simp [decode, h]

theorem decode_of_primaryOnly {ib : List Byte} (h : decodeInstr T ib = .primaryOnly p) : decode T ib = .ok (familyInstr p) := by
  simp [decode, h]

theorem decode_of_illegalPrimary {ib : List Byte} {P : Byte} (h : decodeInstr T ib = .illegalPrimary P) :
    decode T ib = .error (.illegalPrimary P) := by
  simp [decode, h]

theorem decode_of_illegalSecondary {ib : List Byte} {P raw : Byte} (h : decodeInstr T ib = .illegalSecondary P raw) :
    decode T ib = .error (.illegalSecondary P raw) := by
  simp [decode, h]

theorem decode_of_truncated {ib : List Byte} {need : Nat} (h : decodeInstr T ib = .truncated need) :
    decode T ib = .error (.truncated need) := by
  simp [decode, h]

/-- The row of a primary, NOP's or a family's, answers the verdict on its byte. -/
theorem exec_familyInstr (hf : s.phase = .frozen) (hm : s.mnemonicsUnique) (hp : p ∈ s.pt) :
    exec (familyInstr p) s = .next { s with out := .decode (decodeInstr s.table [p.opcode]) } := by
  by_cases h0 : p.opcode = 0
  · rw [h0, ← exec_nop hf]
    exact congrArg (exec · s) (if_pos h0)
  · have hrow : (familyInstr p, p.mnemonic) ∈ familyRows p.mnemonic := by
      unfold familyInstr
      split_ifs with h h1 h2 h3 h4 h5
      · exact absurd h h0
      all_goals simp_all [familyRows]
    rw [exec_familyRow hf hrow, familyResult_of_mem hm hp]

/-- Each of an operator's rows answers its record. -/
theorem exec_operatorInstr (hf : s.phase = .frozen) (q : Secondary) (vals : List Nat) (lit : Bool) :
    exec (operatorInstr q vals lit) s = .next { s with out := operatorResult s.table q.key vals lit } := by
  have hgeneral : exec (.secondary q.key vals lit) s = .next { s with out := operatorResult s.table q.key vals lit } :=
    whileFrozen_of_frozen hf
  unfold operatorInstr
  split
  · split_ifs with hrn hrr
    · obtain ⟨hkey, -, rfl, ha, hb⟩ := hrn
      rw [exec_addRN hf, hkey, BitVec.toNat_ofNat, BitVec.toNat_ofNat, Nat.mod_eq_of_lt ha, Nat.mod_eq_of_lt hb]
    · obtain ⟨hkey, ha, hb⟩ := hrr
      rw [exec_addRR hf, hkey, BitVec.toNat_ofNat, BitVec.toNat_ofNat, Nat.mod_eq_of_lt ha, Nat.mod_eq_of_lt hb]
    · exact hgeneral
  · exact hgeneral

/-- The record of values a registered operator encodes. -/
theorem operatorResult_of_encodeInstr (hkeys : (T.st.map Secondary.key).Nodup) (hq : q ∈ T.st)
    (hp : primaryByCode T q.parent = some p) {bs : List Byte} (h : encodeInstr q vals = some bs) (lit : Bool) :
    operatorResult T q.key vals lit = .decode (.decoded (decodedRecord p q (fieldsOfValues q.layout vals) lit)) := by
  simp only [operatorResult, secondaryByKey_of_mem hkeys hq, h, decodeValues, hp]

theorem operatorResult_of_not_encodeInstr (hkeys : (T.st.map Secondary.key).Nodup) (hq : q ∈ T.st)
    (h : encodeInstr q vals = none) (lit : Bool) : operatorResult T q.key vals lit = .bytes none := by
  simp only [operatorResult, secondaryByKey_of_mem hkeys hq, h]

/-- The row of a decoded operator answers the decoded record itself. -/
theorem operatorResult_of_decoded (hc : consistent T = true) (hkeys : (T.st.map Secondary.key).Nodup) {ib : List Byte}
    {d : DecodedInstr} (h : decodeInstr T ib = .decoded d) :
    operatorResult T d.op.key (d.fields.map FieldValue.value) d.literalsOk = .decode (.decoded d) := by
  obtain ⟨raw, tail, p, q, -, hst, hp, hm, hlen, rfl⟩ := exists_record_of_decoded h
  have hw := wfLayout_of_consistent hc hst
  have henc := encodeInstr_fieldsOf hw (amid_lt_of_consistent hc hst) hm hlen
  simp only [decodedRecord]
  rw [operatorResult_of_encodeInstr hkeys hst hp henc, fieldsOfValues_fieldsOf (wholeBytes_of_wfLayout hw) hlen]
  rfl

theorem padBytes_eq_take {n : Nat} {lb : List Byte} (h : n ≤ lb.length) : padBytes n lb = lb.take n := by
  refine List.ext_getElem (by simp [padBytes, h]) fun i hi _ => ?_
  have hi' : i < lb.length := by simp [padBytes] at hi; omega
  simp [padBytes, hi']

end Rows

/-! ### Terms of an instruction from their encoding (R52, R158, R159) -/

section Terms

variable {T : Table} {i : Instr} {m key : Str} {vals : List Nat} {p : Primary}

theorem familyStands_iff : familyStands T m = true ↔
    ∃ p, primaryByMnemonic T m = some p ∧ p.opcode ≠ 0 ∧ secondariesOf T p.opcode = [] := by
  cases h : primaryByMnemonic T m <;> simp [familyStands, h, Config.nopOpcode]

theorem operatorStands_iff : operatorStands T key vals i = true ↔
    ∃ q, secondaryByKey T key = some q ∧ valuesFit q.layout vals = true ∧ operatorInstr q vals true = i := by
  cases h : secondaryByKey T key <;> simp [operatorStands, h]

/-- A family's byte, with anything after it, is the row of its primary. -/
theorem decode_encodeFamily (hc : consistent T = true) (h : familyStands T m = true)
    (hrow : ∀ p : Primary, p.mnemonic = m → p.opcode ≠ 0 → familyInstr p = i) :
    ∃ bs, encodeFamily T m = some bs ∧ ∀ rest, decode T (bs ++ rest) = .ok i := by
  obtain ⟨p, hp, h0, hs⟩ := familyStands_iff.1 h
  obtain ⟨hmem, hm⟩ := mem_of_primaryByMnemonic hp
  have hcode := primaryByCode_of_consistent hc hmem
  exact ⟨[p.opcode], by rw [encodeFamily, hp, Option.map_some], fun rest =>
    hrow p hm h0 ▸ decode_of_primaryOnly (decodeInstr_of_secondariesOf_nil hcode hs rest)⟩

/-- An operator's bytes, with anything after them, are the row of its values. -/
theorem decode_encodeOperator (hc : consistent T = true) (h : operatorStands T key vals i = true) :
    ∃ bs, encodeOperator T key vals = some bs ∧ ∀ rest, decode T (bs ++ rest) = .ok i := by
  obtain ⟨q, hkey, hv, rfl⟩ := operatorStands_iff.1 h
  obtain ⟨hq, -⟩ := mem_of_secondaryByKey hkey
  obtain ⟨p, hp⟩ := exists_parent_of_consistent hc hq
  obtain ⟨bs, hbs⟩ := Option.isSome_iff_exists.1 (encodeInstr_isSome (amid_lt_of_consistent hc hq) hv)
  refine ⟨bs, by simp only [encodeOperator, hkey, hbs], fun rest => ?_⟩
  have hvals := values_fieldsOfValues (valuesFit_iff.1 hv).1
  rw [decode_of_decoded (decodeInstr_encodeInstr hc hq hp hbs rest)]
  simp only [decodedRecord, hvals]

theorem familyInstr_of_ne_zero (h0 : p.opcode ≠ 0) : familyInstr p =
    if p.mnemonic = textLD then .ld else if p.mnemonic = textADD then .add else if p.mnemonic = textSUB then .sub
    else if p.mnemonic = textAND then .and else if p.mnemonic = textDIV then .div else .primaryOnly p.mnemonic :=
  if_neg h0

end Terms

/-! ### The statements of the family -/

/-- Settles O57: what the encoder places the decoder collects, and what the decoder collected the encoder places again. -/
theorem encodeAndDecodeRoundTrip : Obligations.EncodeAndDecodeRoundTrip := by
  refine fun T hc => ⟨fun q hq vals bs rest h => ?_, fun P rest d h => ?_⟩
  · obtain ⟨p, hp⟩ := exists_parent_of_consistent hc hq
    obtain ⟨-, hv, -⟩ := encodeInstr_eq_some_iff.1 h
    exact ⟨_, decodeInstr_encodeInstr hc hq hp h rest, rfl, rfl, values_fieldsOfValues (valuesFit_iff.1 hv).1, rfl⟩
  · obtain ⟨raw, tail, p, q, hcons, hst, -, hm, hlen, rfl⟩ := exists_record_of_decoded h
    obtain ⟨rfl, rfl⟩ := List.cons.inj hcons
    have hw := wfLayout_of_consistent hc hst
    have hL := wholeBytes_of_wfLayout hw
    have htake : canonicalBytes q.layout ((raw :: tail).take q.layout.length) = canonicalBytes q.layout (raw :: tail) := by
      rw [canonicalBytes_eq_bitsToBytes hL (List.length_take_of_le hlen).ge, taggedBits_take hlen,
        canonicalBytes_eq_bitsToBytes hL hlen]
    simp only [decodedRecord]
    rw [htake, encodeInstr_fieldsOf hw (amid_lt_of_consistent hc hst) hm hlen]

/-- Settles O58, term by term: a family's byte is unique, and an operator's encoding decodes to its own values. -/
theorem instructionsDecodeFromTheirEncoding : Obligations.InstructionsDecodeFromTheirEncoding := by
  intro s _ _ hc i hi
  cases i with
  | nop =>
    simp only [Instr.wfIn, Bool.and_eq_true, List.isEmpty_iff] at hi
    obtain ⟨hp, hs⟩ := hi
    obtain ⟨p, hp⟩ := Option.isSome_iff_exists.1 hp
    refine ⟨_, rfl, fun rest => (decode_of_primaryOnly (decodeInstr_of_secondariesOf_nil hp hs rest)).trans ?_⟩
    exact congrArg Except.ok (if_pos (mem_of_primaryByCode hp).2)
  | ld | add | sub | and | div =>
    refine decode_encodeFamily hc hi fun p hm h0 => ?_
    rw [familyInstr_of_ne_zero h0, hm]
    decide
  | primaryOnly m =>
    obtain ⟨hm, hnamed⟩ : familyStands s.table m = true ∧ namedFamily m = false := by simpa [Instr.wfIn] using hi
    refine decode_encodeFamily hc hm fun p hpm h0 => ?_
    simp only [namedFamily, Bool.or_eq_false_iff, beq_eq_false_iff_ne] at hnamed
    simp [familyInstr_of_ne_zero h0, hpm, hnamed]
  | addRN _ _ | addRR _ _ _ | secondary _ _ _ => exact decode_encodeOperator hc hi
  | _ => cases hi

/-- Settles O12, check by check; unique opcodes make the parent found the only one. -/
theorem consistentMeansEightConditions : Obligations.ConsistentMeansEightConditions := by
  intro T
  constructor
  · intro hc
    have hunique : (T.pt.map Primary.opcode).Nodup := of_decide_eq_true (check_of_consistent hc .primaryOpcodeUnique)
    refine ⟨fun q => wfLayout_of_consistent hc, fun q => amid_lt_of_consistent hc, fun q1 h1 q2 h2 => ?_, hunique,
      fun q hq => ?_, fun q hq => ?_, fun q => shapes_of_consistent hc⟩
    · exact noClash_iff.1 (check_disjoint_iff_forall.1 (check_of_consistent hc .disjoint) q1 h1 q2 h2)
    · exact primaryByCode_isSome.1 (List.all_eq_true.1 (check_of_consistent hc .parentRegistered) q hq)
    · exact (entryKeyMnemonic_iff hunique).1 (List.all_eq_true.1 (check_of_consistent hc .keyMnemonic) q hq)
  · rintro ⟨hwf, hfits, hdisjoint, hunique, hparent, hkey, hshapes⟩
    refine consistent_iff_checks.2 fun c => ?_
    cases c with
    | layoutWf => exact List.all_eq_true.2 hwf
    | subcodeFits => exact List.all_eq_true.2 fun q hq => decide_eq_true (hfits q hq)
    | disjoint => exact check_disjoint_iff_forall.2 fun q1 h1 q2 h2 => noClash_iff.2 (hdisjoint q1 h1 q2 h2)
    | primaryOpcodeUnique => exact decide_eq_true hunique
    | parentRegistered => exact List.all_eq_true.2 fun q hq => primaryByCode_isSome.2 (hparent q hq)
    | keyMnemonic => exact List.all_eq_true.2 fun q hq => (entryKeyMnemonic_iff hunique).2 (hkey q hq)
    | shapeParses =>
      refine List.all_eq_true.2 fun q hq => ?_
      obtain ⟨shapes, hsig, -⟩ := hshapes q hq
      exact Option.isSome_iff_exists.2 ⟨shapes, hsig⟩
    | fieldWidths => exact List.all_eq_true.2 fun q hq => entryFieldWidths_iff.2 (hshapes q hq)

/-- Settles O18: each row the bytes can begin answers the decoder's verdict on them. -/
theorem stepAnswersTheDecodeOfThePort : Obligations.StepAnswersTheDecodeOfThePort := by
  rintro s ⟨hf, hm, hkeys, -, -, hc⟩ hcalls
  rw [step_port hf hcalls]
  have hrejected {e : Reject} (h : decode s.table s.ib = .error e) :
      exec (fetchInstr s) s = .next { s with out := .decode (decodeInstr s.table s.ib) } := by
    rw [fetchInstr_of_error h]
    exact whileFrozen_of_frozen hf
  cases hr : decodeInstr s.table s.ib with
  | decoded d =>
    rw [fetchInstr_of_ok (decode_of_decoded hr), exec_operatorInstr hf, operatorResult_of_decoded (hc hf) hkeys hr]
  | primaryOnly p =>
    obtain ⟨P, rest, -, hp, hs⟩ := decodeInstr_eq_primaryOnly hr
    obtain ⟨hmem, rfl⟩ := mem_of_primaryByCode hp
    rw [fetchInstr_of_ok (decode_of_primaryOnly hr), exec_familyInstr hf hm hmem,
      decodeInstr_of_secondariesOf_nil hp hs]
  | illegalPrimary P => exact hr ▸ hrejected (decode_of_illegalPrimary hr)
  | illegalSecondary P raw => exact hr ▸ hrejected (decode_of_illegalSecondary hr)
  | truncated need => exact hr ▸ hrejected (decode_of_truncated hr)

/-- Settles O23: the row's record and that of its canonical bytes have the same fields. -/
theorem secondaryRowAnswersItsBytesDecode : Obligations.SecondaryRowAnswersItsBytesDecode := by
  rintro s key vals lit ⟨hf, -, hkeys, -, -, hc⟩
  have hexec : exec (.secondary key vals lit) s = .next { s with out := operatorResult s.table key vals lit } :=
    whileFrozen_of_frozen hf
  rw [hexec]
  refine ⟨fun hnone => by rw [operatorResult_of_not_mem hnone], ?_, ?_⟩
  · rintro q hq rfl hnone
    rw [operatorResult_of_not_encodeInstr hkeys hq hnone]
  · rintro q hq bs rfl hbs
    obtain ⟨p, hp⟩ := exists_parent_of_consistent (hc hf) hq
    have hdec := decodeInstr_encodeInstr (hc hf) hq hp hbs []
    rw [List.append_nil] at hdec
    exact ⟨_, hdec, by rw [operatorResult_of_encodeInstr hkeys hq hp hbs]; rfl⟩

/-- Settles O43: the form of R49 splits in one way, and the pattern's bits are the literals. -/
theorem headerReadsItsThreeParts : Obligations.HeaderReadsItsThreeParts := by
  intro k lits rest L hlits hrest hlen
  obtain ⟨hk, hl⟩ := leading_of_form (k := k) hlits hrest
  have hdom : hdrDomain ((List.replicate k .op ++ lits ++ rest) :: L) = true :=
    hdrDomain_iff.2 ⟨_, L, rfl, by simpa [Nat.add_assoc] using hlen, headerForm_iff.2 ⟨k, lits, rest, rfl, hlits, hrest⟩⟩
  refine ⟨litValue lits, by rw [hdr_cons hdom, hk, hl], litValue_lt lits, fun j hj => ?_⟩
  simpa [litValue, Bool.beq_eq_decide_eq] using
    testBit_natOfBits (bs := lits.map (· == .lit1)) (n := j) (by simpa using hj)

/-- Settles O44. -/
theorem matchedBytesAreOneBlock : Obligations.MatchedBytesAreOneBlock := by
  intro q raw k l lit hdom hh
  obtain ⟨hlit, hkl⟩ := hdr_bounds hdom hh
  refine ⟨corrected_eq_or hh, corrected_eq_add hh hlit, hlit, hkl, fun ha => ⟨(corrected_lt_iff hh hlit).2 ha, ?_⟩,
    matchesRaw_eq_false hdom hh⟩
  rw [← corrected_eq_or hh]
  exact matchesRaw_iff_block hh

/-- Settles O45: the search goes through the parent's entries of `ST` in registration order. -/
theorem decodeSecondaryIsTheFirstMatch : Obligations.DecodeSecondaryIsTheFirstMatch := fun _ _ _ =>
  ⟨fun _ => decodeSecondary_eq_some, decodeSecondary_eq_none⟩

/-- Settles O46: a subcode that fits has a block of raw bytes, and no other operator of the parent matches in it. -/
theorem consistentTableDecodesItsOperators : Obligations.ConsistentTableDecodesItsOperators := fun _ hc _ hq =>
  ⟨exists_matchesRaw (hdrDomain_of_wfLayout (wfLayout_of_consistent hc hq)) (amid_lt_of_consistent hc hq),
    fun _ => decodeSecondary_of_consistent hc hq⟩

/-- Settles O47: `extractField` collects the bits at the field's positions. -/
theorem fieldIsItsPositionsBits : Obligations.FieldIsItsPositionsBits := by
  intro L lb X hwhole hlb
  have hL : ∀ t ∈ L, t.length = 8 := by simpa [wholeBytes] using hwhole
  have hfield : extractField L lb X =
      (natOfBits ((fieldPositions L X).map fun p => (lb.getD p.1 0).getLsbD p.2), (fieldPositions L X).length) := by
    rw [extractField, collect_eq_map_fieldPositions hL hlb, List.length_map]
  refine ⟨hfield, ?_, fun n hn => ?_, fun j i => mem_fieldPositions hL, fieldPositions_pairwise hL⟩
  · rw [hfield]
    simpa using natOfBits_lt ((fieldPositions L X).map fun p => (lb.getD p.1 0).getLsbD p.2)
  · rw [hfield]
    simpa using testBit_natOfBits (bs := (fieldPositions L X).map fun p => (lb.getD p.1 0).getLsbD p.2) (n := n)
      (by simpa using hn)

/-- Settles O50, verdict by verdict. -/
theorem decodeVerdictsInOrder : Obligations.DecodeVerdictsInOrder := by
  refine fun T => ⟨rfl, fun P rest => ⟨fun hp => decodeInstr_of_primaryByCode_none hp rest, fun p hp =>
    ⟨fun hs => decodeInstr_of_secondariesOf_nil hp hs rest, ?_, ?_⟩⟩⟩
  · rintro hs rfl
    exact decodeInstr_singleton_of_secondariesOf_ne_nil hp hs
  · rintro raw tail rfl
    refine ⟨fun hs hq => decodeInstr_of_decodeSecondary_none hp hs hq tail, fun q hq =>
      ⟨decodeInstr_of_short hp hq, fun hlen => ?_⟩⟩
    exact ⟨_, decodeInstr_cons_eq_decoded.2 ⟨raw, tail, p, q, rfl, hp, hq, hlen, rfl⟩, rfl, rfl, rfl, rfl, rfl⟩

/-- Settles O55: the record's operands are those of its fields, which fit the shapes of a consistent table. -/
theorem decodedOperandsAreTyped : Obligations.DecodedOperandsAreTyped := by
  refine ⟨fun T ib d h => ?_, fun T ib d hc h => ?_⟩
  · rw [operands_of_decoded h]
    exact ⟨operandsOf_of_parse_none _, fun shapes hsig => ⟨operandsOf_of_fits hsig, operandsOf_of_not_fits hsig⟩⟩
  · have hops := operands_of_decoded h
    obtain ⟨raw, tail, p, q, -, hst, -, -, hlen, rfl⟩ := exists_record_of_decoded h
    simp only [decodedRecord] at hops ⊢
    obtain ⟨shapes, hsig, hletters, hbits⟩ := shapes_of_consistent hc hst
    have hL := wholeBytes_of_wfLayout (wfLayout_of_consistent hc hst)
    have hcount : (fieldsOf q.layout (raw :: tail)).length = shapes.length := by simp [fieldsOf, hletters]
    have hfield {i : Nat} {sh : OperandShape} {f : FieldValue} :=
      fieldsOf_getElem? (i := i) (sh := sh) (f := f) hL hlen hletters hbits
    have hfit : fits shapes (fieldsOf q.layout (raw :: tail)) := ⟨hcount, fun i sh f hsh hf => by
      obtain ⟨-, hwidth, -⟩ := hfield hsh hf
      rw [hwidth, fieldBits_eq_bitsOfOperand]⟩
    refine ⟨shapes, _, hsig, operandsOf_of_fits hsig hfit, hfit, by simp [hcount], hcount, fun i sh f hsh hf => ?_⟩
    obtain ⟨hletter, hwidth, hvalue⟩ := hfield hsh hf
    exact ⟨hletter, hwidth, hvalue, by simp [List.getElem?_zipWith, hsh, hf], typedOperand_eq_typedAs sh f.value⟩

/-- Settles O56. -/
theorem encodeAcceptsWhatFits : Obligations.EncodeAcceptsWhatFits := by
  refine fun q vals => ⟨⟨?_, ?_⟩, fun bs h => ?_⟩
  · rintro ⟨bs, h⟩
    obtain ⟨ha, hv, -⟩ := encodeInstr_eq_some_iff.1 h
    exact ⟨ha, valuesFit_iff.1 hv⟩
  · rintro ⟨ha, hv⟩
    exact ⟨_, encodeInstr_eq_some_iff.2 ⟨ha, valuesFit_iff.2 hv, rfl⟩⟩
  · obtain ⟨-, -, rfl⟩ := encodeInstr_eq_some_iff.1 h
    simp [Nat.add_comm]

/-- Settles O17: the branches of `step`, with what `fetchInstr` reads at the port. -/
theorem stepRunsTheDecodedInstruction : Obligations.StepRunsTheDecodedInstruction := by
  refine fun s => ⟨fun i hf hcalls h => ?_, fun e hf hcalls h => ?_, fun i is => step_waiting, fun c cs => step_call,
    step_freeze⟩
  · rw [step_port hf hcalls, fetchInstr_of_ok h]
  · rw [step_port hf hcalls, fetchInstr_of_error h]

/-- Settles O27: each operation answers while the block is frozen; `extractField` reads no byte behind the layout's own. -/
theorem decodeOperationsAnswer : Obligations.DecodeOperationsAnswer := by
  intro s L q P raw lb X b d v vals T hf
  have hextract : exec (.extractField L lb X) s = .next { s with
      out := .field (extractField L (padBytes L.length lb) X).1 (extractField L (padBytes L.length lb) X).2 } :=
    whileFrozen_of_frozen hf
  refine ⟨whileFrozen_of_frozen hf, whileFrozen_of_frozen hf, whileFrozen_of_frozen hf, fun hlen => ?_, ?_,
    whileFrozen_of_frozen hf, whileFrozen_of_frozen hf, whileFrozen_of_frozen hf, whileFrozen_of_frozen hf⟩
  · rw [hextract, padBytes_eq_take hlen]
    simp only [extractField, taggedBits_take hlen]
  · refine ⟨(extractField L (padBytes L.length lb) X).1, fun hwhole => ?_⟩
    have hL : ∀ t ∈ L, t.length = 8 := by simpa [wholeBytes] using hwhole
    have hwidth : (extractField L (padBytes L.length lb) X).2 = fieldCount L X :=
      collect_length hL (by simp [padBytes]) X
    rw [hextract, hwidth]

/-- Settles O49: quotient and remainder. -/
theorem indirectSplitsAndJoins : Obligations.IndirectSplitsAndJoins := by
  refine fun b d => ⟨fun v => ?_, fun base disp h => ?_⟩
  · have hlt : v % 2 ^ dispBits d < 2 ^ dispBits d := Nat.mod_lt _ (by positivity)
    rw [splitIndirect_eq]
    exact ⟨(joinIndirect_eq hlt).trans (Nat.div_add_mod' v _), hlt⟩
  · rw [joinIndirect_eq h, splitIndirect_eq, Nat.mul_comm, Nat.mul_add_div (by positivity), Nat.div_eq_of_lt h,
      Nat.mul_add_mod, Nat.mod_eq_of_lt h, Nat.add_zero]

/-- Settles O52. -/
theorem decodedLengthIsTheLayouts : Obligations.DecodedLengthIsTheLayouts := by
  refine fun T ib => ⟨fun d h => ?_, fun p h => ?_, fun hd hp => ?_⟩
  · rw [h]
    obtain ⟨P, raw, tail, p, q, rfl, -, -, hlen, rfl⟩ := decodeInstr_eq_decoded h
    exact ⟨rfl, by simpa [decodedRecord, Nat.add_comm 1] using hlen, rfl⟩
  · rw [h]
    obtain ⟨P, rest, rfl, -⟩ := decodeInstr_eq_primaryOnly h
    exact ⟨rfl, by simp, rfl⟩
  · have hnone := lengthOf_eq_none hd hp
    exact ⟨hnone, by rw [nextBytes, hnone, Option.map_none]⟩

end Sys2Proof.Machine
end

section
/-! PROOFS. Exceptions (60_exceptions): what a registration call that fails leaves, what a failed block refuses, the pair that
`chk_disjoint` reports, and the five statements of the family. -/

namespace Sys2Proof.Machine

variable {s : State}

/-! ### The clashing pair the self-test reports (R160, R175) -/

section FirstClash

variable {q1 q2 : Secondary} {raw r : Byte} {w : Witness}

theorem allBytes_pairwise_lt : allBytes.Pairwise (· < ·) := by
  refine List.pairwise_map.2 (List.pairwise_lt_range.imp_of_mem fun {a b} _ hb hab => ?_)
  have hb256 : b < 256 := List.mem_range.1 hb
  rw [BitVec.lt_def, BitVec.toNat_ofNat, BitVec.toNat_ofNat]
  omega

/-- `allBytes` ascends, so the byte a search through it finds is the smallest. -/
theorem eq_false_of_lt_find?_allBytes {p : Byte → Bool} (h : allBytes.find? p = some raw) (hr : r < raw) : p r = false := by
  obtain ⟨-, smaller, larger, hall, hnone⟩ := List.find?_eq_some_iff_append.1 h
  have hsorted := allBytes_pairwise_lt
  rw [hall, List.pairwise_append, List.pairwise_cons] at hsorted
  obtain ⟨-, ⟨hlarger, -⟩, -⟩ := hsorted
  have hmem : r ∈ smaller ++ raw :: larger := hall ▸ mem_allBytes r
  obtain hmem | rfl | hmem : r ∈ smaller ∨ r = raw ∨ r ∈ larger := by simpa using hmem
  · simpa using hnone r hmem
  · exact absurd hr (BitVec.lt_irrefl r)
  · exact absurd (BitVec.lt_trans hr (hlarger r hmem)) (BitVec.lt_irrefl r)

theorem clashAt_iff : clashAt q1 q2 raw = true ↔
    q1.parent = q2.parent ∧ matchesRaw q1 raw = true ∧ matchesRaw q2 raw = true := by
  simp [clashAt, and_assoc]

/-- What `firstClash` tries with `q1` and each later entry: the smallest byte both match, if they are different entries. -/
def clashOf (q1 q2 : Secondary) : Option Witness :=
  if q1 = q2 then none else (allBytes.find? (clashAt q1 q2)).map (.pair q1 q2)

theorem firstClash_cons (q1 : Secondary) (qs : List Secondary) :
    firstClash (q1 :: qs) = (qs.findSome? (clashOf q1)).or (firstClash qs) := by
  have hunfold : qs.findSome? (clashOf q1) = qs.findSome? fun q2 =>
    if q1 = q2 then none else (allBytes.find? (clashAt q1 q2)).map fun raw => Witness.pair q1 q2 raw := rfl
  rw [firstClash, ← hunfold]
  cases qs.findSome? (clashOf q1) <;> rfl

theorem clashOf_eq_none : clashOf q1 q2 = none ↔ noClash q1 q2 := by
  simp [clashOf, noClash, or_iff_not_imp_left]

theorem clashOf_eq_some : clashOf q1 q2 = some w ↔
    q1 ≠ q2 ∧ ∃ raw, allBytes.find? (clashAt q1 q2) = some raw ∧ w = .pair q1 q2 raw := by
  simp [clashOf, eq_comm (a := w)]

/-- The search goes through the places in order: nothing before the pair's first place clashes with any entry, and nothing
between the two places clashes with its first entry. -/
theorem firstClash_eq_some {st : List Secondary} (h : firstClash st = some w) :
    ∃ q1 q2 before between after, st = before ++ q1 :: between ++ q2 :: after ∧ clashOf q1 q2 = some w ∧
      (∀ x ∈ before, ∀ y ∈ st, noClash x y) ∧ ∀ y ∈ between, noClash q1 y := by
  induction st with
  | nil => cases h
  | cons q qs ih =>
    rw [firstClash_cons] at h
    obtain hfound | ⟨hnone, hlater⟩ := Option.or_eq_some_iff.1 h
    · obtain ⟨between, q2, after, rfl, hpair, hbetween⟩ := List.findSome?_eq_some_iff.1 hfound
      exact ⟨q, q2, [], between, after, rfl, hpair, by simp, fun y hy => clashOf_eq_none.1 (hbetween y hy)⟩
    · have hq : ∀ y ∈ qs, noClash q y := fun y hy => clashOf_eq_none.1 (List.findSome?_eq_none_iff.1 hnone y hy)
      obtain ⟨q1, q2, before, between, after, hqs, hpair, hbefore, hbetween⟩ := ih hlater
      have hmem : ∀ x ∈ before, x ∈ qs := fun x hx => by simp [hqs, hx]
      refine ⟨q1, q2, q :: before, between, after, by simp [hqs], hpair, ?_, hbetween⟩
      rintro x (_ | ⟨_, hx⟩) y (_ | ⟨_, hy⟩)
      · exact noClash_refl q
      · exact hq y hy
      · exact noClash_symm (hq x (hmem x hx))
      · exact hbefore x hx y hy

theorem offender_of_selfTest {T : Table} {c : Check} (h : selfTest T = some (c, w)) : offender T c = some w := by
  obtain ⟨c', -, hc⟩ := List.exists_of_findSome?_eq_some h
  obtain ⟨w', hw, hpair⟩ := Option.map_eq_some_iff.1 hc
  cases hpair
  exact hw

end FirstClash

/-! ### An error on entry: what a failing call leaves (R172 to R174, R177) -/

/-- A registration call that ends in `FAILED` has raised an error: appending an entry leaves the phase. -/
theorem perform_eq_raise (c : RegCall) (hp : s.phase ≠ .failed) (h : (s.perform c).phase = .failed) :
    ∃ e, s.perform c = s.raise e := by
  obtain he | ⟨p, -, hadd⟩ | ⟨q, -, -, hadd⟩ := perform_cases s c
  · exact he
  · rw [hadd, State.addPrimary_phase] at h
    exact absurd h hp
  · rw [hadd, State.addSecondary_phase] at h
    exact absurd h hp

theorem freezeTable_eq_raise (h : s.freezeTable.phase = .failed) : ∃ e, s.freezeTable = s.raise e := by
  obtain ⟨-, hfrozen⟩ | ⟨c, w, -, hraise⟩ := freezeTable_cases s
  · rw [hfrozen, State.enterFrozen_phase] at h
    cases h
  · exact ⟨_, hraise⟩

section Registration

variable {m k l : Str} {o p : Byte} {ti d : Str} {n : AddressingModeId}

theorem registerPrimary_of_known (h : ∃ x ∈ s.pt, x.mnemonic = m) :
    s.registerPrimary m o ti d = s.raise (.duplicatePrimaryMnemonic m) := by
  have hany : s.pt.any (·.mnemonic == m) = true := by simpa using h
  simpa [hany] using registerPrimary_cases s m o ti d

theorem registerPrimary_of_new (h : ∀ x ∈ s.pt, x.mnemonic ≠ m) :
    s.registerPrimary m o ti d = s.addPrimary ⟨m, o, ti, d⟩ := by
  have hany : s.pt.any (·.mnemonic == m) = false := by simpa using h
  simpa [hany] using registerPrimary_cases s m o ti d

theorem registerSecondary_of_known (h : ∃ x ∈ s.st, x.key = k) :
    s.registerSecondary k p l n = s.raise (.duplicateSecondaryKey k) := by
  have hany : s.st.any (·.key == k) = true := by simpa using h
  simpa [hany] using registerSecondary_cases s k p l n

theorem registerSecondary_of_malformed (h : ∀ x ∈ s.st, x.key ≠ k) (hl : parseTemplate l = none) :
    s.registerSecondary k p l n = s.raise (.malformedLayout k) := by
  have hany : s.st.any (·.key == k) = false := by simpa using h
  simpa [hany, hl] using registerSecondary_cases s k p l n

theorem registerSecondary_of_new {L : BitLayout} (h : ∀ x ∈ s.st, x.key ≠ k) (hl : parseTemplate l = some L) :
    s.registerSecondary k p l n = s.addSecondary ⟨k, p, n, L⟩ := by
  have hany : s.st.any (·.key == k) = false := by simpa using h
  simpa [hany, hl] using registerSecondary_cases s k p l n

theorem exec_registerPrimary (hp : s.phase = .registering) :
    exec (.registerPrimary m o ti d) s = .next (s.registerPrimary m o ti d) := whileRegistering_of_registering hp

theorem exec_registerSecondary (hp : s.phase = .registering) :
    exec (.registerSecondary k p l n) s = .next (s.registerSecondary k p l n) := whileRegistering_of_registering hp

end Registration

/-! ### A block that has failed (R178) -/

/-- An operation bound to neither phase is a constant function: an answer under the condition that the block has not failed
(R24; log 5). -/
theorem exec_eq_whileLive {i : Instr} (hf : needsFrozen i = false) (hr : needsRegistering i = false) (s : State) :
    ∃ r, exec i s = whileLive s (s.answer r) := by
  cases i with
  | resolve _ | groupOf _ | resolveFloat _ | isSpecialRegister _ | parseShape _ | printShape _ | wfLayout _
  | compileLayout _ _ | packCompile _ _ | catalogLookup _ => exact ⟨_, rfl⟩
  | nameOf request => cases request <;> exact ⟨_, rfl⟩
  | template request => cases request <;> exact ⟨_, rfl⟩
  | registerPrimary _ _ _ _ | registerSecondary _ _ _ _ | startup _ | freeze => cases hr
  | _ => cases hf

/-- Each of the three phase conditions fails in `FAILED`. -/
theorem exec_of_failed (i : Instr) (hp : s.phase = .failed) : ∃ need, exec i s = .refused (.wrongPhase need .failed) := by
  cases hf : needsFrozen i with
  | true =>
    obtain ⟨r, hr⟩ := exec_eq_whileFrozen hf s
    exact ⟨.frozen, by rw [hr, whileFrozen_of_not (by simp [hp]), hp]⟩
  | false =>
    cases hreg : needsRegistering i with
    | true =>
      obtain ⟨t, ht⟩ := exec_eq_whileRegistering hreg s
      exact ⟨.registering, by rw [ht, whileRegistering_of_not (by simp [hp]), hp]⟩
    | false =>
      obtain ⟨r, hr⟩ := exec_eq_whileLive hf hreg s
      exact ⟨.live, by rw [hr, whileLive_of_failed hp]⟩

/-! ### The statements of the family -/

/-- Settles O4: a call that ends in `FAILED` is a `raise`. -/
theorem exceptionEntryWritesErrAndPhase : Obligations.ExceptionEntryWritesErrAndPhase := by
  refine ⟨State.raise_eq, fun c s t h ht => ?_, fun s t h ht => ?_⟩
  · rw [exec_regCall] at h
    obtain ⟨hp, rfl⟩ := whileRegistering_eq_next.1 h
    exact perform_eq_raise c (by simp [hp]) ht
  · obtain ⟨-, rfl⟩ := whileRegistering_eq_next.1 h
    exact freezeTable_eq_raise ht

/-- Settles O5. -/
theorem failedIsTerminal : Obligations.FailedIsTerminal := fun _ hp =>
  ⟨fun i => exec_of_failed i hp, step_failed hp⟩

/-- Settles O8: the mnemonic's test decides. -/
theorem registerPrimaryAppendsOrRaises : Obligations.RegisterPrimaryAppendsOrRaises := by
  refine fun s m o ti d hp => ⟨fun hknown => ?_, fun hnew => ?_⟩
  · rw [exec_registerPrimary hp, registerPrimary_of_known hknown, State.raise_eq]
  · rw [exec_registerPrimary hp, registerPrimary_of_new hnew, State.addPrimary]

/-- Settles O9: the key's test comes first, then the layout string's. -/
theorem registerSecondaryAppendsOrRaises : Obligations.RegisterSecondaryAppendsOrRaises := by
  refine fun s k p l n hp => ⟨fun hknown => ?_, fun hnew hl => ?_, fun L hnew hl => ?_⟩
  · rw [exec_registerSecondary hp, registerSecondary_of_known hknown, State.raise_eq]
  · rw [exec_registerSecondary hp, registerSecondary_of_malformed hnew hl, State.raise_eq]
  · rw [exec_registerSecondary hp, registerSecondary_of_new hnew hl, State.addSecondary]

/-- Settles O11: the witness is the first clash of `ST`, its byte the first that `allBytes` offers. -/
theorem disjointWitnessIsTheFirst : Obligations.DisjointWitnessIsTheFirst := by
  intro T w h
  have hclash : firstClash T.st = some w := offender_of_selfTest h
  obtain ⟨q1, q2, before, between, after, hst, hpair, hbefore, hbetween⟩ := firstClash_eq_some hclash
  obtain ⟨hne, raw, hraw, rfl⟩ := clashOf_eq_some.1 hpair
  obtain ⟨hparent, hm1, hm2⟩ := clashAt_iff.1 (List.find?_some hraw)
  refine ⟨q1, q2, raw, before, between, after, rfl, hst, hne, hparent, hm1, hm2, fun r hr hm => ?_,
    fun x hx y hy => noClash_iff.1 (hbefore x hx y hy), fun y hy => noClash_iff.1 (hbetween y hy)⟩
  exact Bool.eq_false_iff.1 (eq_false_of_lt_find?_allBytes hraw hr) (clashAt_iff.2 ⟨hparent, hm⟩)

end Sys2Proof.Machine
end

section
/-! PROOFS. Reset and start-up (70_reset_and_hazards): what a call of the sequence appends or raises, how far start-up runs, what
the failing freeze reports, and the six statements of the family. -/

namespace Sys2Proof.Machine

variable {s s' t : State}

/-! ### What registration calls append, and what the failing one raises (R126, R128, R172 to R174) -/

/-- The state after calls that raise nothing: the tables have grown by what the calls offer, in order. -/
def State.withOffers (s : State) (cs : List RegCall) : State :=
  { s with pt := s.pt ++ cs.filterMap offeredPrimary, st := s.st ++ cs.filterMap offeredSecondary }

section Offers

variable {c : RegCall} {before after : List RegCall}

@[simp] theorem State.withOffers_phase (s : State) (cs : List RegCall) : (s.withOffers cs).phase = s.phase := rfl
@[simp] theorem State.withOffers_pt (s : State) (cs : List RegCall) :
    (s.withOffers cs).pt = s.pt ++ cs.filterMap offeredPrimary := rfl
@[simp] theorem State.withOffers_st (s : State) (cs : List RegCall) :
    (s.withOffers cs).st = s.st ++ cs.filterMap offeredSecondary := rfl
@[simp] theorem State.withOffers_err (s : State) (cs : List RegCall) : (s.withOffers cs).err = s.err := rfl
@[simp] theorem State.withOffers_ib (s : State) (cs : List RegCall) : (s.withOffers cs).ib = s.ib := rfl
@[simp] theorem State.withOffers_calls (s : State) (cs : List RegCall) : (s.withOffers cs).calls = s.calls := rfl
@[simp] theorem State.withOffers_out (s : State) (cs : List RegCall) : (s.withOffers cs).out = s.out := rfl

theorem State.withOffers_nil (s : State) : s.withOffers [] = s := by
  simp [State.withOffers]

theorem State.withOffers_withOffers (s : State) (cs ds : List RegCall) :
    (s.withOffers cs).withOffers ds = s.withOffers (cs ++ ds) := by
  simp [State.withOffers]

theorem State.addPrimary_eq_withOffers {p : Primary} (hc : offeredPrimary c = some p) (hq : offeredSecondary c = none) :
    s.addPrimary p = s.withOffers [c] := by
  simp [State.addPrimary, State.withOffers, hc, hq]

theorem State.addSecondary_eq_withOffers {q : Secondary} (hp : offeredPrimary c = none) (hc : offeredSecondary c = some q) :
    s.addSecondary q = s.withOffers [c] := by
  simp [State.addSecondary, State.withOffers, hp, hc]

/-- A registration call appends what it offers, or raises the error that its duplicate or its layout string calls for. -/
theorem perform_offers_or_raises (s : State) (c : RegCall) :
    s.perform c = s.withOffers [c] ∨ ∃ e, s.perform c = s.raise e ∧ raisedBy (s.raise e) c := by
  cases c with
  | primary m o ti d =>
    by_cases hknown : ∃ x ∈ s.pt, x.mnemonic = m
    · exact .inr ⟨_, registerPrimary_of_known hknown, hknown, rfl⟩
    · exact .inl ((registerPrimary_of_new (by simpa using hknown)).trans (State.addPrimary_eq_withOffers rfl rfl))
  | secondary k p l n =>
    by_cases hknown : ∃ x ∈ s.st, x.key = k
    · exact .inr ⟨_, registerSecondary_of_known hknown, .inl ⟨hknown, rfl⟩⟩
    · have hnew : ∀ x ∈ s.st, x.key ≠ k := by simpa using hknown
      cases hl : parseTemplate l with
      | none => exact .inr ⟨_, registerSecondary_of_malformed hnew hl, .inr ⟨hnew, hl, rfl⟩⟩
      | some L =>
        have hoffer : offeredSecondary (.secondary k p l n) = some ⟨k, p, n, L⟩ := by simp [offeredSecondary, hl]
        exact .inl ((registerSecondary_of_new hnew hl).trans (State.addSecondary_eq_withOffers rfl hoffer))

/-- Where names are unique, no entry that stands before an offered one has its name. -/
theorem name_ne_of_nodup {α : Type} {old : List α} {offered : RegCall → Option α} {name : α → Str} {a x : α}
    (h : ((old ++ (before ++ c :: after).filterMap offered).map name).Nodup) (hc : offered c = some a)
    (hx : x ∈ old ++ before.filterMap offered) : name x ≠ name a := by
  rw [List.filterMap_append, List.filterMap_cons_some hc, ← List.append_assoc, List.map_append, List.map_cons] at h
  exact (List.nodup_append.1 h).2.2 _ (List.mem_map_of_mem hx) _ List.mem_cons_self

/-- The call that raises offers a name that stands in the tables already, or its layout string does not parse. -/
theorem not_raisedBy_of_unique (hpt : t.pt = s.pt ++ before.filterMap offeredPrimary)
    (hst : t.st = s.st ++ before.filterMap offeredSecondary)
    (hm : ((s.pt ++ (before ++ c :: after).filterMap offeredPrimary).map Primary.mnemonic).Nodup)
    (hk : ((s.st ++ (before ++ c :: after).filterMap offeredSecondary).map Secondary.key).Nodup)
    (hl : ∀ k p l n, RegCall.secondary k p l n ∈ before ++ c :: after → parseTemplate l ≠ none) : ¬raisedBy t c := by
  intro h
  cases c with
  | primary m o ti d =>
    obtain ⟨⟨x, hx, hname⟩, -⟩ := h
    exact name_ne_of_nodup hm rfl (hpt ▸ hx) hname
  | secondary k p l n =>
    obtain ⟨L, hL⟩ := Option.ne_none_iff_exists'.1 (hl k p l n (by simp))
    obtain ⟨⟨x, hx, hname⟩, -⟩ | ⟨-, hnone, -⟩ := h
    · have hoffer : offeredSecondary (.secondary k p l n) = some ⟨k, p, n, L⟩ := by simp [offeredSecondary, hL]
      exact name_ne_of_nodup hk hoffer (hst ▸ hx) hname
    · cases hL.symm.trans hnone

end Offers

/-! ### The freeze (R193) -/

section Freeze

theorem freezeTable_of_consistent (h : consistent s.table = true) : s.freezeTable = s.enterFrozen := by
  rw [State.freezeTable, selfTest_eq_none.2 h]

theorem freezeTable_of_selfTest {c : Check} {w : Witness} (h : selfTest s.table = some (c, w)) :
    s.freezeTable = s.raise (.selfTestFailed c w) := by
  rw [State.freezeTable, h]

theorem consistent_eq_false_of_selfTest {T : Table} {c : Check} {w : Witness} (h : selfTest T = some (c, w)) :
    consistent T = false :=
  Bool.eq_false_iff.2 fun hc => by cases h.symm.trans (selfTest_eq_none.2 hc)

theorem freezeTable_phase_ne_registering (s : State) : s.freezeTable.phase ≠ .registering := by
  obtain ⟨-, h⟩ | ⟨c, w, -, h⟩ := freezeTable_cases s <;> simp [h]

theorem exec_freeze (hp : s.phase = .registering) : exec .freeze s = .next s.freezeTable :=
  whileRegistering_of_registering hp

end Freeze

/-! ### How far start-up runs (R191) -/

section Startup

variable {c : RegCall} {cs : List RegCall}

theorem exec_startup (hp : s.phase = .registering) : exec (.startup cs) s = .next (runStartup cs s) :=
  whileRegistering_of_registering hp

theorem runStartup_of_raise {e : RegistrationError} (h : (s.withSeq cs).perform c = (s.withSeq cs).raise e) :
    runStartup (c :: cs) s = (s.withSeq cs).raise e := by
  rw [runStartup, h, if_pos (State.raise_phase _ e)]

theorem runStartup_of_offers (hp : s.phase = .registering)
    (h : (s.withSeq cs).perform c = (s.withSeq cs).withOffers [c]) :
    runStartup (c :: cs) s = runStartup cs ((s.withSeq cs).withOffers [c]) := by
  have hlive : ((s.withSeq cs).withOffers [c]).phase ≠ .failed := fun hf => by cases hp.symm.trans hf
  rw [runStartup, h, if_neg hlive]

/-- WHAT START-UP CAN DO: it performs all its calls and then the freeze, or the calls before the first that raises. -/
theorem runStartup_cases (cs : List RegCall) (hp : s.phase = .registering) :
    runStartup cs s = ((s.withOffers cs).withSeq []).freezeTable ∨
    ∃ before c after e, cs = before ++ c :: after ∧ runStartup cs s = ((s.withOffers before).withSeq after).raise e ∧
      raisedBy (((s.withOffers before).withSeq after).raise e) c := by
  induction cs generalizing s with
  | nil => exact .inl (by rw [runStartup, State.withOffers_nil])
  | cons c cs ih =>
    obtain hoffers | ⟨e, hraise, hby⟩ := perform_offers_or_raises (s.withSeq cs) c
    · have hrest (ds es : List RegCall) :
          (((s.withSeq cs).withOffers [c]).withOffers ds).withSeq es = (s.withOffers (c :: ds)).withSeq es := by
        rw [State.withOffers_withOffers, List.singleton_append]
        rfl
      rw [runStartup_of_offers hp hoffers]
      obtain hall | ⟨before, d, after, e, rfl, hstop, hby⟩ := ih (s := (s.withSeq cs).withOffers [c]) hp
      · exact .inl (by rw [hall, hrest])
      · rw [hrest] at hstop hby
        exact .inr ⟨c :: before, d, after, e, rfl, hstop, hby⟩
    · rw [← State.withOffers_nil s] at hby
      exact .inr ⟨[], c, cs, e, rfl, by rw [runStartup_of_raise hraise, State.withOffers_nil], hby⟩

/-- Start-up leaves `REGISTERING` (R191). -/
theorem runStartup_phase_ne_registering (cs : List RegCall) (hp : s.phase = .registering) :
    (runStartup cs s).phase ≠ .registering := by
  obtain hall | ⟨before, c, after, e, -, hstop, -⟩ := runStartup_cases cs hp
  · exact hall ▸ freezeTable_phase_ne_registering _
  · simp [hstop]

end Startup

/-! ### The sequencer's steps (R191, R205; log 20) -/

section Sequencer

variable {n : Nat}

theorem run_succ_of_step (h : step s = .next t) : core.run (n + 1) s = core.run n t := by
  have hcore : core.step s = .next t := h
  simp only [Host.Core.run, hcore]

theorem run_one_of_step (h : step s = .next t) : core.run 1 s = .next t := run_succ_of_step h

/-- The machine reaches what start-up gives on the calls left: a step for each call, and one for the freeze. -/
theorem exists_run_eq_runStartup {cs : List RegCall} (hp : s.phase = .registering) (hcs : s.remaining = cs) :
    ∃ n, n ≤ cs.length + 1 ∧ core.run n s = .next (runStartup cs s) := by
  induction cs generalizing s with
  | nil => exact ⟨1, le_rfl, run_one_of_step ((step_freeze hp hcs).trans (exec_freeze (s := s.withSeq []) hp))⟩
  | cons c cs ih =>
    have hstep : step s = .next ((s.withSeq cs).perform c) := by
      rw [step_call hp hcs, exec_regCall]
      exact whileRegistering_of_registering hp
    obtain hoffers | ⟨e, hraise, -⟩ := perform_offers_or_raises (s.withSeq cs) c
    · obtain ⟨n, hn, hrun⟩ := ih (s := (s.withSeq cs).withOffers [c]) hp rfl
      refine ⟨n + 1, Nat.succ_le_succ hn, ?_⟩
      rw [run_succ_of_step hstep, hoffers, hrun, runStartup_of_offers hp hoffers]
    · exact ⟨1, by simp, by rw [run_one_of_step hstep, hraise, runStartup_of_raise hraise]⟩

end Sequencer

/-! ### Start-up does not read the ports (R194) -/

section Ports

theorem raise_sameBlock (e : RegistrationError) (h : s.sameBlock s') : (s.raise e).sameBlock (s'.raise e) := by
  obtain ⟨-, hpt, hst, -⟩ := h
  exact ⟨rfl, hpt, hst, rfl⟩

theorem addPrimary_sameBlock (p : Primary) (h : s.sameBlock s') : (s.addPrimary p).sameBlock (s'.addPrimary p) := by
  obtain ⟨hp, hpt, hst, he⟩ := h
  exact ⟨hp, congrArg (· ++ [p]) hpt, hst, he⟩

theorem addSecondary_sameBlock (q : Secondary) (h : s.sameBlock s') :
    (s.addSecondary q).sameBlock (s'.addSecondary q) := by
  obtain ⟨hp, hpt, hst, he⟩ := h
  exact ⟨hp, hpt, congrArg (· ++ [q]) hst, he⟩

theorem perform_sameBlock (c : RegCall) (h : s.sameBlock s') : (s.perform c).sameBlock (s'.perform c) := by
  obtain ⟨-, hpt, hst, -⟩ := id h
  cases c with
  | primary m o ti d =>
    simp only [State.perform]
    by_cases hknown : ∃ x ∈ s.pt, x.mnemonic = m
    · rw [registerPrimary_of_known hknown, registerPrimary_of_known (hpt ▸ hknown)]
      exact raise_sameBlock _ h
    · have hnew : ∀ x ∈ s.pt, x.mnemonic ≠ m := by simpa using hknown
      rw [registerPrimary_of_new hnew, registerPrimary_of_new (hpt ▸ hnew)]
      exact addPrimary_sameBlock _ h
  | secondary k p l n =>
    simp only [State.perform]
    by_cases hknown : ∃ x ∈ s.st, x.key = k
    · rw [registerSecondary_of_known hknown, registerSecondary_of_known (hst ▸ hknown)]
      exact raise_sameBlock _ h
    · have hnew : ∀ x ∈ s.st, x.key ≠ k := by simpa using hknown
      cases hl : parseTemplate l with
      | none =>
        rw [registerSecondary_of_malformed hnew hl, registerSecondary_of_malformed (hst ▸ hnew) hl]
        exact raise_sameBlock _ h
      | some L =>
        rw [registerSecondary_of_new hnew hl, registerSecondary_of_new (hst ▸ hnew) hl]
        exact addSecondary_sameBlock _ h

theorem freezeTable_sameBlock (h : s.sameBlock s') : s.freezeTable.sameBlock s'.freezeTable := by
  obtain ⟨-, hpt, hst, he⟩ := id h
  have htable : s'.table = s.table := by rw [State.table, State.table, hpt, hst]
  obtain ⟨hnone, hs⟩ | ⟨c, w, hsome, hs⟩ := freezeTable_cases s
  · rw [hs, freezeTable_of_consistent (s := s') (htable ▸ selfTest_eq_none.1 hnone)]
    exact ⟨rfl, hpt, hst, he⟩
  · rw [hs, freezeTable_of_selfTest (s := s') (htable ▸ hsome)]
    exact raise_sameBlock _ h

theorem runStartup_sameBlock (cs : List RegCall) (h : s.sameBlock s') : (runStartup cs s).sameBlock (runStartup cs s') := by
  induction cs generalizing s s' with
  | nil => exact freezeTable_sameBlock (s := s.withSeq []) (s' := s'.withSeq []) h
  | cons c cs ih =>
    have hcall := perform_sameBlock (s := s.withSeq cs) (s' := s'.withSeq cs) c h
    obtain ⟨hphase, -⟩ := id hcall
    rw [runStartup, runStartup, ← hphase]
    split
    · exact hcall
    · exact ih hcall

end Ports

/-! ### The reset state (R27, R190) -/

section Reset

theorem atReset_reset : atReset State.reset := ⟨rfl, rfl, rfl, rfl⟩

/-- A registration call raises or leaves an entry behind. -/
theorem not_atReset_perform (s : State) (c : RegCall) : ¬atReset (s.perform c) := by
  rintro ⟨hp, hpt, hst, -⟩
  obtain ⟨e, h⟩ | ⟨p, -, h⟩ | ⟨q, -, -, h⟩ := perform_cases s c
  · simp [h] at hp
  · simp [h] at hpt
  · simp [h] at hst

theorem not_atReset_of_phase (h : s.phase ≠ .registering) : ¬atReset s := fun ⟨hp, _⟩ => h hp

end Reset

/-! ### What the failing freeze reports (R163, R175) -/

section Report

variable {T : Table} {c : Check} {w : Witness} {p : Primary} {ps : List Primary} {i : Nat}

/-- The self-test reports the first check in R163's order that fails. -/
theorem selfTest_eq_some (h : selfTest T = some (c, w)) : ∃ before after, checkOrder = before ++ c :: after ∧
    offender T c = some w ∧ check T c = false ∧ ∀ c' ∈ before, check T c' = true := by
  obtain ⟨before, c', after, horder, hfound, hbefore⟩ := List.findSome?_eq_some_iff.1 h
  obtain ⟨w', hw, hpair⟩ := Option.map_eq_some_iff.1 hfound
  cases hpair
  have hfails : check T c ≠ true := fun hc => by cases hw.symm.trans (offender_eq_none.2 hc)
  exact ⟨before, after, horder, hw, Bool.eq_false_iff.2 hfails,
    fun d hd => offender_eq_none.1 (Option.map_eq_none_iff.1 (hbefore d hd))⟩

theorem sharesOpcode_cons_zero : sharesOpcode (p :: ps) 0 ↔ ∃ y ∈ ps, y.opcode = p.opcode := by
  constructor
  · rintro ⟨x, y, j, hx, hy, hj, hcode⟩
    obtain ⟨j, rfl⟩ := Nat.exists_eq_succ_of_ne_zero hj
    cases hx
    exact ⟨y, List.mem_of_getElem? hy, hcode⟩
  · rintro ⟨y, hy, hcode⟩
    obtain ⟨j, hj⟩ := List.mem_iff_getElem?.1 hy
    exact ⟨p, y, j + 1, rfl, hj, by simp, hcode⟩

/-- An entry after the first shares its opcode among the later ones, or with the first. -/
theorem sharesOpcode_cons_succ :
    sharesOpcode (p :: ps) (i + 1) ↔ sharesOpcode ps i ∨ ∃ x, ps[i]? = some x ∧ p.opcode = x.opcode := by
  constructor
  · rintro ⟨x, y, _ | j, hx, hy, hj, hcode⟩
    · cases hy
      exact .inr ⟨x, hx, hcode⟩
    · exact .inl ⟨x, y, j, hx, hy, by simpa using hj, hcode⟩
  · rintro (⟨x, y, j, hx, hy, hj, hcode⟩ | ⟨x, hx, hcode⟩)
    · exact ⟨x, y, j + 1, hx, hy, by simpa using hj, hcode⟩
    · exact ⟨x, p, 0, hx, rfl, by simp, hcode⟩

/-- The search asks the later entries only; the first entry it finds is the first that shares its opcode with any. -/
theorem firstSharedOpcode_eq_some (h : firstSharedOpcode ps = some w) :
    ∃ p i, w = .primary p ∧ ps[i]? = some p ∧ sharesOpcode ps i ∧ ∀ j < i, ¬sharesOpcode ps j := by
  induction ps with
  | nil => cases h
  | cons p ps ih =>
    rw [firstSharedOpcode] at h
    split at h
    next hlater =>
      cases h
      exact ⟨p, 0, rfl, rfl, sharesOpcode_cons_zero.2 (by simpa using hlater), by simp⟩
    next hlater =>
      have hfirst : ∀ y ∈ ps, y.opcode ≠ p.opcode := by simpa using hlater
      obtain ⟨x, i, rfl, hx, hshares, hbefore⟩ := ih h
      refine ⟨x, i + 1, rfl, hx, sharesOpcode_cons_succ.2 (.inl hshares), fun j hj hjshares => ?_⟩
      cases j with
      | zero =>
        obtain ⟨y, hy, hcode⟩ := sharesOpcode_cons_zero.1 hjshares
        exact hfirst y hy hcode
      | succ j =>
        obtain hjshares | ⟨y, hy, hcode⟩ := sharesOpcode_cons_succ.1 hjshares
        · exact hbefore j (Nat.lt_of_succ_lt_succ hj) hjshares
        · exact hfirst y (List.mem_of_getElem? hy) hcode.symm

/-- The entry `firstOffender` finds is the first without the property its test decides. -/
theorem firstOffender_eq_some {ok : Secondary → Bool} {st : List Secondary} {P : Secondary → Prop}
    (hok : ∀ q, ok q = true ↔ P q) (h : firstOffender ok st = some w) :
    ∃ q before after, w = .secondary q ∧ st = before ++ q :: after ∧ ¬P q ∧ ∀ x ∈ before, P x := by
  obtain ⟨q, hq, rfl⟩ := Option.map_eq_some_iff.1 h
  obtain ⟨hfails, before, after, hst, hbefore⟩ := List.find?_eq_some_iff_append.1 hq
  refine ⟨q, before, after, rfl, hst, fun hP => ?_, fun x hx => (hok x).1 (by simpa using hbefore x hx)⟩
  simp [(hok q).2 hP] at hfails

theorem opcodeUnique_mem_before_keyMnemonic {before after : List Check}
    (h : checkOrder = before ++ .keyMnemonic :: after) : Check.primaryOpcodeUnique ∈ before := by
  have horder : [.layoutWf, .subcodeFits, .disjoint, .primaryOpcodeUnique, .parentRegistered] ++
      Check.keyMnemonic :: [.shapeParses, .fieldWidths] = before ++ .keyMnemonic :: after := h
  obtain ⟨rfl, -⟩ := (List.append_cons_inj_of_notMem (by decide) (by decide)).1 horder
  decide

/-- The witness of a failed check is its first offending entry. That the key's parent is the only primary of its opcode has been
checked by then. -/
theorem firstOffends_of_offender (hw : offender T c = some w)
    (hunique : c = .keyMnemonic → (T.pt.map Primary.opcode).Nodup) : firstOffends T w c := by
  refine ⟨fun hc => ?_, fun hdisjoint hopcode => ?_⟩
  · subst hc
    exact firstSharedOpcode_eq_some hw
  · cases c with
    | disjoint => exact absurd rfl hdisjoint
    | primaryOpcodeUnique => exact absurd rfl hopcode
    | layoutWf => exact firstOffender_eq_some (fun _ => Iff.rfl) hw
    | subcodeFits => exact firstOffender_eq_some (P := fun q => q.amid < 2 ^ (hdr q.layout).1) (fun _ => decide_eq_true_iff) hw
    | parentRegistered => exact firstOffender_eq_some (fun _ => primaryByCode_isSome) hw
    | keyMnemonic => exact firstOffender_eq_some (fun _ => entryKeyMnemonic_iff (hunique rfl)) hw
    | shapeParses => exact firstOffender_eq_some (fun _ => Option.isSome_iff_ne_none) hw
    | fieldWidths => exact firstOffender_eq_some (fun _ => entryFieldWidths_iff) hw

end Report

/-! ### The statements of the family -/

/-- Settles O1: an answer leaves the block's state, a registration call leaves an entry or an error, the freeze and start-up leave
`REGISTERING`. -/
theorem resetStateIsNeverReturnedTo : Obligations.ResetStateIsNeverReturnedTo := by
  refine ⟨atReset_reset, fun i s t h ht => ?_, fun s t h ht => ?_⟩
  · obtain ⟨-, r, rfl⟩ | ⟨hp, ⟨c, -, rfl⟩ | ⟨cs, -, rfl⟩ | ⟨-, rfl⟩⟩ := exec_next_cases h
    · exact ht
    · exact absurd ht (not_atReset_perform s c)
    · exact absurd ht (not_atReset_of_phase (runStartup_phase_ne_registering cs hp))
    · exact absurd ht (not_atReset_of_phase (freezeTable_phase_ne_registering s))
  · obtain ⟨-, c, cs, -, rfl⟩ | ⟨-, -, rfl⟩ | ⟨-, is, r, rfl⟩ := step_next_cases h
    · exact absurd ht (not_atReset_perform _ c)
    · exact absurd ht (not_atReset_of_phase (freezeTable_phase_ne_registering _))
    · exact ht

/-- Settles O10: the freeze does what the self-test says, and the self-test searches the checks and then the entries in order. -/
theorem freezeFollowsTheSelfTest : Obligations.FreezeFollowsTheSelfTest := by
  refine fun s hp => ⟨fun hc => ?_, fun hc => ?_⟩
  · rw [exec_freeze hp, freezeTable_of_consistent hc, State.enterFrozen]
  · have hsome : selfTest s.table ≠ none := fun h => by simp [selfTest_eq_none.1 h] at hc
    obtain ⟨⟨c, w⟩, hreport⟩ := Option.ne_none_iff_exists'.1 hsome
    obtain ⟨before, after, horder, hw, hfails, hbefore⟩ := selfTest_eq_some hreport
    refine ⟨c, w, before, after, ?_, hreport, horder, hfails, hbefore, firstOffends_of_offender hw fun hkey => ?_⟩
    · rw [exec_freeze hp, freezeTable_of_selfTest hreport, State.raise_eq]
    · subst hkey
      exact of_decide_eq_true (hbefore .primaryOpcodeUnique (opcodeUnique_mem_before_keyMnemonic horder))

/-- Settles O13: start-up performs all its calls and the freeze, or stops at the first call that raises. -/
theorem startupFreezesOrFails : Obligations.StartupFreezesOrFails := by
  intro calls s hp
  rw [exec_startup hp]
  obtain hall | ⟨before, c, after, e, rfl, hstop, hby⟩ := runStartup_cases calls hp
  · rw [hall]
    obtain ⟨hnone, hfreeze⟩ | ⟨c, w, hreport, hfreeze⟩ := freezeTable_cases ((s.withOffers calls).withSeq [])
    · rw [hfreeze]
      have hend : consistent (((s.withOffers calls).withSeq []).enterFrozen).table = true := selfTest_eq_none.1 hnone
      exact ⟨_, calls.length, rfl, by simp, by simp, by simp, rfl, rfl, rfl, .inl ⟨rfl, rfl, rfl, hend⟩⟩
    · rw [hfreeze]
      have hend : consistent (((s.withOffers calls).withSeq []).raise (.selfTestFailed c w)).table = false :=
        consistent_eq_false_of_selfTest hreport
      exact ⟨_, calls.length, rfl, by simp, by simp, by simp, rfl, rfl, rfl,
        .inr (.inl ⟨rfl, rfl, hend, c, w, hreport, rfl⟩)⟩
  · rw [hstop]
    exact ⟨_, before.length, rfl, by simp, by simp, by simp, rfl, rfl, rfl, .inr (.inr ⟨rfl, c, by simp, hby⟩)⟩

/-- Settles O14: no call of such a sequence raises, and the freeze accepts the table. -/
theorem startupFreezesAGoodSequence : Obligations.StartupFreezesAGoodSequence := by
  intro calls s hp hm hk hl hc
  rw [exec_startup hp]
  obtain hall | ⟨before, c, after, e, rfl, -, hby⟩ := runStartup_cases calls hp
  · rw [hall, freezeTable_of_consistent (s := (s.withOffers calls).withSeq []) hc]
    rfl
  · exact absurd hby (not_raisedBy_of_unique rfl rfl hm hk hl)

/-- Settles O15: each step performs the next call as start-up does, and the step after the last call is the freeze. -/
theorem startupIsTheSequencersSteps : Obligations.StartupIsTheSequencersSteps := by
  intro s hp
  rw [exec_startup hp]
  exact exists_run_eq_runStartup hp rfl

/-- Settles O16: every call and the freeze look at the block's own state alone. -/
theorem startupReadsOnlyItsSequence : Obligations.StartupReadsOnlyItsSequence := by
  intro calls s s' t t' h ht ht'
  obtain ⟨-, rfl⟩ := whileRegistering_eq_next.1 ht
  obtain ⟨-, rfl⟩ := whileRegistering_eq_next.1 ht'
  exact runStartup_sameBlock calls h

end Sys2Proof.Machine
end
